-- ==== Sys2Proof/Word.lean ====
section
/-! DEFINITION. The words of the machine: the 32-bit host and command word (R62, R80), the byte (R9),
the 9-bit offset inside the host window (R61) and the direction bit (R83). -/

namespace Sys2Proof

/-- A host word: command words, register values, DMEM words (R62, R80). -/
abbrev Word := BitVec 32

/-- A byte: the shift buffer, an operand field, a DMEM byte or its address (R9, R64). -/
abbrev Byte := BitVec 8

/-- The offset of a host access inside the 512-byte window (R61). -/
abbrev Offset := BitVec 9

/-- The direction flag, encoded as the direction bit value itself (R83). -/
abbrev Dir := BitVec 1

end Sys2Proof
end

