-- ==== Sys2Proof/Syntax.lean ====
section
/-! DEFINITION. The commands: one constructor per row of the opcode map (R88), in the map's order. -/

namespace Sys2Proof

/-- The fifteen commands with their operands. Each operand's type has exactly the width of its field
(R81, R85, R86, R87), so every term of this type can be encoded. INIT's clock rate comes from ARG (R90). -/
inductive Instr where
  /-- INIT (R120). -/
  | init
  /-- WAIT (R125). -/
  | wait
  /-- START (R126). -/
  | start
  /-- RESTART (R127). -/
  | restart
  /-- STOP (R128). -/
  | stop
  /-- SENDACK (R129). -/
  | sendAck
  /-- SENDNAK (R130). -/
  | sendNak
  /-- WRITE byte (R135). -/
  | write (byte : Byte)
  /-- READ ackPolicy (R137). -/
  | read (policy : Byte)
  /-- CALLSLAVE address, direction (R144). -/
  | callSlave (addr : Byte) (dir : Dir)
  /-- CALLSLAVEPLUS address, direction (R145). -/
  | callSlavePlus (addr : Byte) (dir : Dir)
  /-- WRITEPLUS byte (R146). -/
  | writePlus (byte : Byte)
  /-- WRITECOMPLETE address, base, length (R147). -/
  | writeComplete (addr base len : Byte)
  /-- READPLUS ackPolicy (R149). -/
  | readPlus (policy : Byte)
  /-- READCOMPLETE address, base, length (R150). -/
  | readComplete (addr base len : Byte)
  deriving DecidableEq, Repr, Inhabited

end Sys2Proof
end

