-- ==== Sys2Proof/Decode.lean ====
section
/-! DEFINITION. The command word: its fields (R81), the decoder (R89), the encoder (R97). -/

namespace Sys2Proof

/-- Why a word is no command (R89, R91, R92). -/
inductive DecodeError where
  /-- ILLEGAL_OP: `OP = 0` (R91). -/
  | illegalOp
  /-- RSVD_FIELD: a nonzero RSVD or must-be-zero field (R92). -/
  | rsvdField
  deriving DecidableEq, Repr

/-- `OP = w[3:0]` (R82). -/
def fieldOp (w : Word) : BitVec 4 := w.extractLsb' 0 4

/-- `DIR = w[4]` (R83). -/
def fieldDir (w : Word) : Dir := w.extractLsb' 4 1

/-- `RSVD = w[7:5]` (R84). -/
def fieldRsvd (w : Word) : BitVec 3 := w.extractLsb' 5 3

/-- `OPA = w[15:8]` (R85). -/
def fieldOpa (w : Word) : Byte := w.extractLsb' 8 8

/-- `LEN = w[23:16]` (R86). -/
def fieldLen (w : Word) : Byte := w.extractLsb' 16 8

/-- `BASE = w[31:24]` (R87). -/
def fieldBase (w : Word) : Byte := w.extractLsb' 24 8

/-- The command `i` where the must-be-zero fields are zero, RSVD_FIELD where one is not (R89, R92). -/
def acceptFields (zero : Bool) (i : Instr) : Except DecodeError Instr :=
  if zero then .ok i else .error .rsvdField

/-- The rows of R88, with the must-be-zero fields of each, for a word whose RSVD is zero (R89). -/
def decodeRow (op : BitVec 4) (dir : Dir) (opa len base : Byte) : Except DecodeError Instr :=
  match op.toNat with
  | 0x1 => acceptFields (dir == 0 && opa == 0 && len == 0 && base == 0) .init
  | 0x2 => acceptFields (dir == 0 && opa == 0 && len == 0 && base == 0) .wait
  | 0x3 => acceptFields (dir == 0 && opa == 0 && len == 0 && base == 0) .start
  | 0x4 => acceptFields (dir == 0 && opa == 0 && len == 0 && base == 0) .restart
  | 0x5 => acceptFields (dir == 0 && opa == 0 && len == 0 && base == 0) .stop
  | 0x6 => acceptFields (dir == 0 && opa == 0 && len == 0 && base == 0) .sendAck
  | 0x7 => acceptFields (dir == 0 && opa == 0 && len == 0 && base == 0) .sendNak
  | 0x8 => acceptFields (dir == 0 && len == 0 && base == 0) (.write opa)
  | 0x9 => acceptFields (dir == 0 && len == 0 && base == 0) (.read opa)
  | 0xA => acceptFields (len == 0 && base == 0) (.callSlave opa dir)
  | 0xB => acceptFields (len == 0 && base == 0) (.callSlavePlus opa dir)
  | 0xC => acceptFields (dir == 0 && len == 0 && base == 0) (.writePlus opa)
  | 0xD => acceptFields (dir == 0) (.writeComplete opa base len)
  | 0xE => acceptFields (dir == 0 && len == 0 && base == 0) (.readPlus opa)
  | 0xF => acceptFields (dir == 0) (.readComplete opa base len)
  | _ => .error .illegalOp

/-- The command of a word, or why it is none: total on all words, in the order of R89. -/
def decode (w : Word) : Except DecodeError Instr :=
  if fieldOp w = 0 then .error .illegalOp
  else if fieldRsvd w ≠ 0 then .error .rsvdField
  else decodeRow (fieldOp w) (fieldDir w) (fieldOpa w) (fieldLen w) (fieldBase w)

/-- `encode(OP, DIR, OPA, LEN, BASE)` (R97): the word with the given fields and RSVD zero. -/
def packFields (op : BitVec 4) (dir : Dir) (opa len base : Byte) : Word :=
  (base.setWidth 32 <<< 24) ||| (len.setWidth 32 <<< 16) ||| (opa.setWidth 32 <<< 8) |||
    (dir.setWidth 32 <<< 4) ||| op.setWidth 32

/-- The opcode of a command (R88). -/
def opcode : Instr → BitVec 4
  | .init => 0x1
  | .wait => 0x2
  | .start => 0x3
  | .restart => 0x4
  | .stop => 0x5
  | .sendAck => 0x6
  | .sendNak => 0x7
  | .write _ => 0x8
  | .read _ => 0x9
  | .callSlave _ _ => 0xA
  | .callSlavePlus _ _ => 0xB
  | .writePlus _ => 0xC
  | .writeComplete _ _ _ => 0xD
  | .readPlus _ => 0xE
  | .readComplete _ _ _ => 0xF

/-- The word of a command (R97); the fields a command does not use are zero (R88). -/
def encode (i : Instr) : Word :=
  match i with
  | .init | .wait | .start | .restart | .stop | .sendAck | .sendNak => packFields (opcode i) 0 0 0 0
  | .write b => packFields (opcode i) 0 b 0 0
  | .read p => packFields (opcode i) 0 p 0 0
  | .callSlave a d => packFields (opcode i) d a 0 0
  | .callSlavePlus a d => packFields (opcode i) d a 0 0
  | .writePlus b => packFields (opcode i) 0 b 0 0
  | .writeComplete a base len => packFields (opcode i) 0 a len base
  | .readPlus p => packFields (opcode i) 0 p 0 0
  | .readComplete a base len => packFields (opcode i) 0 a len base

/-- The command word whose low `nbits` bits are those of `w`, every bit above them zero. -/
def tableWord (nbits w : Nat) : Word := BitVec.ofNat 32 (w % 2 ^ nbits)

/-- What the decoder reads from an instruction whose bits are `w`, bit 0 the least significant bit of the command word
(R11, R80: one 32-bit word). -/
def decodeTableWord (nbits w : Nat) : Option Instr :=
  match decode (tableWord nbits w) with
  | .ok i => some i
  | .error _ => none

end Sys2Proof
end

