-- ==== Sys2Proof/Config.lean ====
section
/-! DEFINITION. What an integration fixes (R8), what the environment decides (R47, R116, R119), and the free
values: constants without a body, so that nothing can be proved of their values. -/

namespace Sys2Proof

/-- One atomic step of one agent, with the draws the step takes (R70, R100). A list of events is a stretch of the
interleaving (R74): whose step comes next, what the host accesses, what the peer answers. -/
inductive Event where
  /-- The host writes a word at an offset of the window (R61, R62). -/
  | hostWrite (off : Offset) (w : Word)
  /-- The host reads the word at an offset of the window (R61, R62). -/
  | hostRead (off : Offset)
  /-- The scheduler picks the sequencer (R103). -/
  | sequencer
  /-- The scheduler picks the peripheral; `byte` and `ack` are the peer oracle's draws (R116). -/
  | peripheral (byte : Byte) (ack : Bool)
  /-- Reset, an external event (R190). -/
  | reset
  deriving DecidableEq, Repr, Inhabited

/-- One less than the oscillator frequency in Hz (R8: OPEN, a positive integer). -/
opaque Config.fOscPred : Nat

/-- `F_OSC`, the oscillator frequency in Hz (R8, D18): OPEN, and positive. -/
def Config.fOsc : Nat := Config.fOscPred + 1

/-- `DIV_W`, the width of the divisor register (R8, D17): OPEN; the integrator sets it. -/
opaque Config.divW : Nat

/-- `BLOCK_BASE`, the host address of the block's window (R8, R17): OPEN. -/
opaque Config.blockBase : Nat

/-- The host address of an offset of the window (R17). The platform decodes it (R61), so no rule of the block
reads it. -/
def Config.hostAddress (off : Offset) : Nat := Config.blockBase + off.toNat

/-- FREE VALUE: the event that comes next where State.inbox lists none, for the n-th draw (R119: the order in which
agents step is free; R47: the host's program and the peers' bytes are not state). -/
opaque Config.nextEvent : Nat → Event

/-- FREE VALUE: the byte a read of a DMEM byte that was never written returns, for the n-th draw (R69, R75). -/
opaque Config.unwrittenByte : Nat → Byte

end Sys2Proof
end

