-- ==== Sys2Proof/Machine/State.lean ====
section
/-! DEFINITION. The state of the block, its plain data types, the reasons a step can stop, and the state after reset
(spec/10_state.md; reset values R46). -/

namespace Sys2Proof.Machine

open Sys2Proof

/-- A bus condition (R104). -/
inductive Condition where
  | start | restart | stop
  deriving DecidableEq, Repr

/-- The pending action of the peripheral; `PEND` is none or one of these (R32). -/
inductive Pending where
  | start | restart | stop | rcv | ack | xmit
  deriving DecidableEq, Repr

/-- A bus line with a direction setting (R36). -/
inductive Line where
  | scl | sda
  deriving DecidableEq, Repr

/-- The direction of a bus line (R36). -/
inductive LineDir where
  | input | output
  deriving DecidableEq, Repr

/-- The framing state: `FREE` or `OPEN` (R42). -/
inductive Framing where
  | busFree | busOpen
  deriving DecidableEq, Repr

/-- The kinds of model fault (R43, R171, R172). They are ghost: none of them stops the machine. -/
inductive FaultKind where
  /-- A byte, acknowledge, Restart or Stop with no transaction open (R171). -/
  | misuseNoTransaction
  /-- A Start with a transaction already open (R171). -/
  | misuseNestedStart
  /-- A command read a DMEM byte that was never written (R172). -/
  | uninitBufferRead
  deriving DecidableEq, Repr

/-- A set of fault kinds, one Boolean for each, so that equal sets are equal data (R43). -/
structure FaultSet where
  noTransaction : Bool := false
  nestedStart : Bool := false
  uninitRead : Bool := false
  deriving DecidableEq, Repr

/-- The rejection codes (R24, R161). The values 8–15 are never produced and have no name. -/
inductive ErrCode where
  | none | illegalOp | rsvdField | overrun | notInit | reinit | rateZero | dmemBusy
  deriving DecidableEq, Repr

/-- An action on the peripheral port (R105). -/
inductive PortAction where
  /-- SetMode(MASTER). -/
  | setModeMaster
  /-- SetDiv(d). -/
  | setDiv (d : BitVec Config.divW)
  /-- SetDir(line, direction). -/
  | setDir (line : Line) (dir : LineDir)
  /-- AuxReset. -/
  | auxReset
  /-- Start. -/
  | start
  /-- Restart. -/
  | restart
  /-- Stop. -/
  | stop
  /-- Load(b). -/
  | load (b : Byte)
  /-- RcvEnable. -/
  | rcvEnable
  /-- Ack(k). -/
  | ack (k : Bool)
  deriving DecidableEq, Repr

/-- A micro-operation of the sequencer (R104). -/
inductive Uop where
  | waitIdle
  | cond (c : Condition)
  | loadLit (b : Byte)
  | loadMem (x : Byte)
  | rcvEn
  | capture
  | ackLit (k : Bool)
  | ackPol
  | polMem (x : Byte)
  | storeMem (x : Byte)
  | configure (d : BitVec Config.divW)
  deriving DecidableEq, Repr

/-- What a host offset names (R17). -/
inductive HostReg where
  | cmd | arg | status | rdata | reserved
  /-- DMEM word `k` (R65). -/
  | dmem (k : BitVec 6)
  deriving DecidableEq, Repr

/-- DMEM as the list of its written bytes, each with its address: addresses strictly rising, each below 256 (`Memory.wf`).
A byte that is not listed was never written and holds no value (R64, R45). -/
abbrev Memory := List Host.Cell

/-- Everything the spec gives the block (R16), then the model's own three fields. -/
structure State where
  /-- ARG (R19). -/
  arg : Word
  /-- STATUS.INIT_DONE (R22). -/
  initDone : Bool
  /-- STATUS.CMDERR (R23). -/
  cmdErr : Bool
  /-- STATUS.ERRCODE (R24). -/
  errCode : ErrCode
  /-- RDATA (R27). -/
  rdata : Word
  /-- DMEM and WRITTEN (R64, R45). -/
  dmem : Memory
  /-- UOPS, the µops the command in progress has left (R29). -/
  uops : List Uop
  /-- The temporary T (R30). -/
  t : Byte
  /-- The temporary POL (R30). -/
  pol : Bool
  /-- DIV (R34). -/
  div : BitVec Config.divW
  /-- MASTER (R35). -/
  master : Bool
  /-- DIR_SCL (R36). -/
  dirScl : LineDir
  /-- DIR_SDA (R36). -/
  dirSda : LineDir
  /-- ACKDT (R37). -/
  ackdt : Bool
  /-- SHIFTBUF (R38). -/
  shiftBuf : Byte
  /-- PEND (R32, R33). -/
  pend : Option Pending
  /-- FRAMING, ghost (R42). -/
  framing : Framing
  /-- FAULTS, ghost (R43). -/
  faults : FaultSet
  /-- TRACE, ghost, oldest action first (R44). -/
  trace : List PortAction
  /-- The model's own: the word the last host read returned, on the host's side of the port (log entry 9). -/
  hostData : Word
  /-- The model's own: the interleaving's next events, the next one first (log entry 4). -/
  inbox : List Event
  /-- The model's own: how many free values have been drawn (log entry 10). -/
  draws : Nat
  deriving DecidableEq, Repr

/-- The reasons a step could stop with a fault: there is none. No host write, command or bus event stops the block
(R160); a misuse is a member of the ghost set FAULTS and its µop completes (R170). Safe: nothing is cut short. -/
inductive Fault where
  deriving DecidableEq, Repr

/-- The reasons a step could be refused. -/
inductive Refusal where
  /-- Raised by an arm of `exec` for a command without a meaning: no arm raises it. Safe: the machine would stop. -/
  | notModelled (mnemonic : String)
  deriving DecidableEq, Repr

/-- The state right after reset (R46, R190). Where R46 leaves an element unspecified, the value is the one log entries 1 and 2
name. -/
def State.reset : State where
  arg := 0
  initDone := false
  cmdErr := false
  errCode := .none
  rdata := 0
  dmem := []
  uops := []
  t := 0
  pol := false
  div := 0
  master := false
  dirScl := .input
  dirSda := .input
  ackdt := false
  shiftBuf := 0
  pend := none
  framing := .busFree
  faults := {}
  trace := []
  hostData := 0
  inbox := []
  draws := 0

end Sys2Proof.Machine
end

