-- ==== Sys2Proof/Machine/Flags.lean ====
section
/-! DEFINITION. Flags: the peripheral's busy flags (R33), STATUS and its fields (R20–R24), the error code numbers (R161),
membership in the ghost fault set (R43). -/

namespace Sys2Proof.Machine

open Sys2Proof

/-- `condPending`: a condition, receive or acknowledge is pending (R33). -/
def condPending (s : State) : Bool :=
  match s.pend with
  | some .start | some .restart | some .stop | some .rcv | some .ack => true
  | some .xmit | none => false

/-- `xferActive`: a transmit is pending (R33). -/
def xferActive (s : State) : Bool :=
  match s.pend with
  | some .xmit => true
  | some .start | some .restart | some .stop | some .rcv | some .ack | none => false

/-- `periphIdle`: neither flag is up (R33). -/
def periphIdle (s : State) : Bool := !condPending s && !xferActive s

/-- STATUS.BUSY: an accepted command has µops left (R21). -/
def busy (s : State) : Bool := !s.uops.isEmpty

/-- The number of a rejection code (R24, R161). -/
def errNumber : ErrCode → BitVec 4
  | .none => 0
  | .illegalOp => 1
  | .rsvdField => 2
  | .overrun => 3
  | .notInit => 4
  | .reinit => 5
  | .rateZero => 6
  | .dmemBusy => 7

/-- The word a host read of STATUS returns: ERRCODE in 7:4, CMDERR 2, INIT_DONE 1, BUSY 0, the rest 0 (R20). -/
def statusWord (s : State) : Word :=
  ((errNumber s.errCode).setWidth 32 <<< 4) ||| ((BitVec.ofBool s.cmdErr).setWidth 32 <<< 2) |||
    ((BitVec.ofBool s.initDone).setWidth 32 <<< 1) ||| (BitVec.ofBool (busy s)).setWidth 32

/-- The set with the kind added (R43). -/
def addFault (k : FaultKind) (f : FaultSet) : FaultSet :=
  match k with
  | .misuseNoTransaction => { f with noTransaction := true }
  | .misuseNestedStart => { f with nestedStart := true }
  | .uninitBufferRead => { f with uninitRead := true }

/-- The kind is a member of the set (R43). -/
def hasFault (f : FaultSet) : FaultKind → Bool
  | .misuseNoTransaction => f.noTransaction
  | .misuseNestedStart => f.nestedStart
  | .uninitBufferRead => f.uninitRead

end Sys2Proof.Machine
end

