-- ==== Sys2Proof/Machine/Operands.lean ====
section
/-! DEFINITION. Operand forms: the direction values (R8), the address byte (R144), burst addresses (R67), the ack policy (R138),
the divisor (R121), the bytes of a host word (R65), the host offset (R62). -/

namespace Sys2Proof.Machine

open Sys2Proof

/-- `DIR_WRITE` (R8, R83). -/
def dirWrite : Dir := 0

/-- `DIR_READ` (R8, R83). -/
def dirRead : Dir := 1

/-- The address byte `(a + d) mod 256` (R144). -/
def addressByte (a : Byte) (d : Dir) : Byte := a + d.setWidth 8

/-- The `i`-th DMEM address of a burst, `(BASE + i) mod 256` (R67). -/
def burstAddr (base : Byte) (i : Nat) : Byte := base + BitVec.ofNat 8 i

/-- The acknowledge bit of a policy byte: zero is ACK (0), nonzero is NAK (1) (R138, R152). -/
def ackBit (p : Byte) : Bool := p != 0

/-- `trunc_width(floor(fOsc / (4 × rate)) − 1)`, computed over unbounded integers (R121). -/
def divisorOf (fOsc width rate : Nat) : BitVec width := BitVec.ofInt width ((fOsc / (4 * rate) : Nat) - 1 : Int)

/-- `div(rate)` for this integration's parameters (R121). -/
def divisor (rate : Word) : BitVec Config.divW := divisorOf Config.fOsc Config.divW rate.toNat

/-- `sext_32` of a received byte (R12, R140). -/
def signedByte (b : Byte) : Word := b.signExtend 32

/-- Byte `j` of a host word, byte 0 the least significant (R65). -/
def wordByte (w : Word) (j : Nat) : Byte := w.extractLsb' (8 * j) 8

/-- The host word of four bytes, the first argument its least significant byte (R65). -/
def wordOfBytes (b0 b1 b2 b3 : Byte) : Word :=
  (b3.setWidth 32 <<< 24) ||| (b2.setWidth 32 <<< 16) ||| (b1.setWidth 32 <<< 8) ||| b0.setWidth 32

/-- The DMEM address `4k + j` of byte `j` of DMEM word `k` (R65). -/
def dmemAddr (k : BitVec 6) (j : BitVec 2) : Byte := BitVec.ofNat 8 (4 * k.toNat + j.toNat)

/-- What an offset names; its two low bits are ignored (R17, R62). -/
def hostReg (off : Offset) : HostReg :=
  match (off.extractLsb' 2 7).toNat with
  | 0 => .cmd
  | 1 => .arg
  | 2 => .status
  | 3 => .rdata
  | n => if n < 64 then .reserved else .dmem (BitVec.ofNat 6 n)

/-- The offset of CMD (R17). -/
def offCmd : Offset := 0x000

/-- The offset of ARG (R17). -/
def offArg : Offset := 0x004

/-- The offset of STATUS (R17). -/
def offStatus : Offset := 0x008

/-- The offset of RDATA (R17). -/
def offRdata : Offset := 0x00C

/-- The offset `0x100 + 4k` of DMEM word `k` (R65). -/
def offDmem (k : BitVec 6) : Offset := BitVec.ofNat 9 (0x100 + 4 * k.toNat)

end Sys2Proof.Machine
end

