-- ==== Sys2Proof/Machine/Ops.lean ====
section
/-! DEFINITION. The shared operations: DMEM bytes, draws, the two error channels (`reject`, R166; `raiseIf`, R170), port
actions (R105), the DMEM accesses of commands and host, command acceptance (R101), reset (R190). -/

namespace Sys2Proof.Machine

open Sys2Proof

/-! ### DMEM as data -/

/-- What an address that is not listed holds: no value (R64; log entry 3). -/
def Memory.unlisted : Option Byte := none

/-- The byte at an address. -/
def Memory.read : Memory → Nat → Option Byte
  | [], _ => Memory.unlisted
  | (b, v) :: m, a => if a = b then some v else Memory.read m a

/-- Store a byte, keeping the addresses strictly rising. -/
def Memory.write : Memory → Nat → Byte → Memory
  | [], a, v => [(a, v)]
  | (b, w) :: m, a, v =>
    if a < b then (a, v) :: (b, w) :: m
    else if a = b then (a, v) :: m
    else (b, w) :: Memory.write m a v

/-- The addresses rise strictly from `lo` and stay below 256. -/
def Memory.wfFrom : Nat → Memory → Bool
  | _, [] => true
  | lo, (a, _) :: m => decide (lo ≤ a) && decide (a < 256) && Memory.wfFrom (a + 1) m

/-- The canonical form of DMEM: addresses strictly rising, each below 256 (R64). An entry equal to what an unlisted address
holds cannot occur, since that is no value. -/
def Memory.wf (m : Memory) : Bool := Memory.wfFrom 0 m

/-- The `WRITTEN` bit of a DMEM byte (R45): set exactly where the byte is listed. -/
def written (s : State) (a : Byte) : Bool := (s.dmem.read a.toNat).isSome

/-- Store a DMEM byte and set its `WRITTEN` bit: MemWrite (R76). -/
def memWrite (a v : Byte) (s : State) : State := { s with dmem := s.dmem.write a.toNat v }

/-! ### Draws and the interleaving -/

/-- The next event of the interleaving: the first of the inbox, or a free value where the inbox is empty (R119). -/
def nextEvent (s : State) : Event × State :=
  match s.inbox with
  | e :: rest => (e, { s with inbox := rest })
  | [] => (Config.nextEvent s.draws, { s with draws := s.draws + 1 })

/-- Put an event in front of the interleaving. -/
def pushEvent (e : Event) (s : State) : State := { s with inbox := e :: s.inbox }

/-! ### The two error channels -/

/-- `reject(code)`: the latch keeps the first code; nothing else changes (R166). -/
def reject (c : ErrCode) (s : State) : State :=
  if s.cmdErr then s else { s with cmdErr := true, errCode := c }

/-- Clear the error latch: the return from a rejection (R23, R169). -/
def clearError (s : State) : State := { s with cmdErr := false, errCode := .none }

/-- `if b then raise Fault(k)`: add the kind to the ghost set and go on (R170; R75, R107–R111). -/
def raiseIf (b : Bool) (k : FaultKind) (s : State) : State :=
  { s with faults := if b then addFault k s.faults else s.faults }

/-! ### The peripheral port -/

/-- The effect of a port action on the peripheral-interface state (R105). -/
def portEffect (e : PortAction) (s : State) : State :=
  match e with
  | .setModeMaster => { s with master := true }
  | .setDiv d => { s with div := d }
  | .setDir .scl dir => { s with dirScl := dir }
  | .setDir .sda dir => { s with dirSda := dir }
  | .auxReset => { s with ackdt := false }
  | .start => { s with pend := some .start }
  | .restart => { s with pend := some .restart }
  | .stop => { s with pend := some .stop }
  | .load b => { s with shiftBuf := b, pend := some .xmit }
  | .rcvEnable => { s with pend := some .rcv }
  | .ack k => { s with ackdt := k, pend := some .ack }

/-- `Issue(e)`: perform the action and record it (R105). -/
def issue (e : PortAction) (s : State) : State :=
  let s' := portEffect e s
  { s' with trace := s'.trace ++ [e] }

/-! ### DMEM accesses -/

/-- A DMEM byte as it stands, or a fresh draw, which advances the draw counter, where it was never written (R69, R75). -/
def peekByte (a : Byte) (s : State) : Byte × State :=
  ((s.dmem.read a.toNat).getD (Config.unwrittenByte s.draws),
    { s with draws := if written s a then s.draws else s.draws + 1 })

/-- MemRead by a command µop: an unwritten byte raises UninitBufferRead, and the read still returns (R75). -/
def memRead (a : Byte) (s : State) : Byte × State :=
  peekByte a (raiseIf (!written s a) .uninitBufferRead s)

/-- The host's read of DMEM word `k`: four bytes, little-endian, each unwritten byte a draw of its own (R65, R69). -/
def readDmemWord (k : BitVec 6) (s : State) : Word × State :=
  let r0 := peekByte (dmemAddr k 0) s
  let r1 := peekByte (dmemAddr k 1) r0.2
  let r2 := peekByte (dmemAddr k 2) r1.2
  let r3 := peekByte (dmemAddr k 3) r2.2
  (wordOfBytes r0.1 r1.1 r2.1 r3.1, r3.2)

/-- The four bytes of a host write of DMEM word `k` (R65, R68). -/
def writeDmemWord (k : BitVec 6) (w : Word) (s : State) : State :=
  memWrite (dmemAddr k 3) (wordByte w 3) (memWrite (dmemAddr k 2) (wordByte w 2)
    (memWrite (dmemAddr k 1) (wordByte w 1) (memWrite (dmemAddr k 0) (wordByte w 0) s)))

/-! ### Command acceptance and reset -/

/-- Acceptance of a command other than INIT (R101, R124, R164): the µops become the remaining list. -/
def acceptCommand (us : List Uop) (s : State) : State :=
  if busy s then reject .overrun s
  else if !s.initDone then reject .notInit s
  else { s with uops := us }

/-- Acceptance of INIT (R101, R123, R164): `us` is its µop list. -/
def acceptInit (us : List Uop) (s : State) : State :=
  if busy s then reject .overrun s
  else if s.initDone then reject .reinit s
  else if s.arg = 0 then reject .rateZero s
  else { s with initDone := true, uops := us }

/-- Acceptance of a word that is no command (R101, R162, R163): OVERRUN comes first (R168). -/
def acceptNone (c : ErrCode) (s : State) : State :=
  if busy s then reject .overrun s else reject c s

/-- Reset (R190): every element of the spec takes its reset value; the interleaving goes on. -/
def resetBlock (s : State) : State := { State.reset with inbox := s.inbox, draws := s.draws }

end Sys2Proof.Machine
end

