-- ==== Sys2Proof/Machine/Expand.lean ====
section
/-! DEFINITION. The µop lists into which commands expand (R102), built from the lists of the commands a composition calls (R143). -/

namespace Sys2Proof.Machine

open Sys2Proof

/-- `WAITP` (R102, R125). -/
def waitP : List Uop := [.waitIdle]

/-- `STARTP` (R102, R126). -/
def startP : List Uop := [.waitIdle, .cond .start]

/-- The list of RESTART (R102, R127). -/
def restartP : List Uop := [.waitIdle, .cond .restart]

/-- `STOPP` (R102, R128). -/
def stopP : List Uop := [.waitIdle, .cond .stop]

/-- The list of SENDACK and SENDNAK (R102, R129, R130). -/
def ackP (k : Bool) : List Uop := [.waitIdle, .ackLit k]

/-- `WRITEP(b)` (R102, R135). -/
def writeP (b : Byte) : List Uop := [.waitIdle, .loadLit b]

/-- `READP(p)` (R102, R137). -/
def readP (p : Byte) : List Uop := [.waitIdle, .rcvEn, .waitIdle, .capture, .waitIdle, .ackLit (ackBit p)]

/-- `CALLP(a, d)` (R102, R144). -/
def callP (a : Byte) (d : Dir) : List Uop := writeP (addressByte a d)

/-- One payload byte of WRITECOMPLETE (R102, R147). -/
def payloadP (x : Byte) : List Uop := [.waitIdle, .loadMem x]

/-- `SLOT(x)` (R102, R150). -/
def slotP (x : Byte) : List Uop :=
  [.polMem x, .waitIdle, .rcvEn, .waitIdle, .capture, .waitIdle, .ackPol, .storeMem x]

/-- `concat_{i<L} f((BASE + i) mod 256)` (R14, R67, R102). -/
def burstP (f : Byte → List Uop) (base len : Byte) : List Uop :=
  (List.range len.toNat).flatMap fun i => f (burstAddr base i)

/-- The list of INIT with the clock rate in ARG (R102, R120). -/
def initP (rate : Word) : List Uop := [.configure (divisor rate)]

/-- The list of CALLSLAVEPLUS (R102, R145). -/
def callPlusP (a : Byte) (d : Dir) : List Uop := startP ++ callP a d

/-- The list of WRITEPLUS (R102, R146). -/
def writePlusP (b : Byte) : List Uop := writeP b ++ stopP

/-- The list of WRITECOMPLETE (R102, R147). -/
def writeCompleteP (a base len : Byte) : List Uop :=
  startP ++ callP a dirWrite ++ burstP payloadP base len ++ stopP

/-- The list of READPLUS (R102, R149). -/
def readPlusP (p : Byte) : List Uop := readP p ++ stopP

/-- The list of READCOMPLETE: the select transaction, then the read transaction (R102, R150). -/
def readCompleteP (a base len : Byte) : List Uop :=
  startP ++ callP a dirWrite ++ payloadP base ++ stopP ++
    startP ++ callP a dirRead ++ burstP slotP base len ++ stopP

/-- `expand(C, ARG)` (R102). -/
def expand (i : Instr) (arg : Word) : List Uop :=
  match i with
  | .init => initP arg
  | .wait => waitP
  | .start => startP
  | .restart => restartP
  | .stop => stopP
  | .sendAck => ackP false
  | .sendNak => ackP true
  | .write b => writeP b
  | .read p => readP p
  | .callSlave a d => callP a d
  | .callSlavePlus a d => callPlusP a d
  | .writePlus b => writePlusP b
  | .writeComplete a base len => writeCompleteP a base len
  | .readPlus p => readPlusP p
  | .readComplete a base len => readCompleteP a base len

end Sys2Proof.Machine
end

