-- ==== Sys2Proof/Machine/ByteTransfer.lean ====
section
/-! DEFINITION. Byte transfer commands (spec/43_byte_transfer.md). -/

namespace Sys2Proof.Machine

open Sys2Proof

/-- WRITE byte (R135). -/
def execWrite (b : Byte) (s : State) : Host.Outcome State Fault Refusal := .next (acceptCommand (writeP b) s)

/-- READ ackPolicy (R137, R138). -/
def execRead (p : Byte) (s : State) : Host.Outcome State Fault Refusal := .next (acceptCommand (readP p) s)

end Sys2Proof.Machine
end

