-- ==== Sys2Proof/Machine/Conditions.lean ====
section
/-! DEFINITION. Wait and bus-condition commands (spec/42_conditions.md). -/

namespace Sys2Proof.Machine

open Sys2Proof

/-- WAIT (R125). -/
def execWait (s : State) : Host.Outcome State Fault Refusal := .next (acceptCommand waitP s)

/-- START (R126). -/
def execStart (s : State) : Host.Outcome State Fault Refusal := .next (acceptCommand startP s)

/-- RESTART (R127). -/
def execRestart (s : State) : Host.Outcome State Fault Refusal := .next (acceptCommand restartP s)

/-- STOP (R128). -/
def execStop (s : State) : Host.Outcome State Fault Refusal := .next (acceptCommand stopP s)

/-- SENDACK: the acknowledge bit 0 (R129). -/
def execSendAck (s : State) : Host.Outcome State Fault Refusal := .next (acceptCommand (ackP false) s)

/-- SENDNAK: the acknowledge bit 1 (R130). -/
def execSendNak (s : State) : Host.Outcome State Fault Refusal := .next (acceptCommand (ackP true) s)

end Sys2Proof.Machine
end

