-- ==== Sys2Proof/Machine/Initialization.lean ====
section
/-! DEFINITION. The initialization command (spec/41_initialization.md). -/

namespace Sys2Proof.Machine

open Sys2Proof

/-- INIT: reads the clock rate in ARG at acceptance, sets INIT_DONE, expands to CONFIGURE (R120, R123). -/
def execInit (s : State) : Host.Outcome State Fault Refusal := .next (acceptInit (initP s.arg) s)

end Sys2Proof.Machine
end

