-- ==== Sys2Proof/Machine/Transactions.lean ====
section
/-! DEFINITION. Transaction commands (spec/44_transactions.md). -/

namespace Sys2Proof.Machine

open Sys2Proof

/-- CALLSLAVE address, direction (R144). -/
def execCallSlave (a : Byte) (d : Dir) (s : State) : Host.Outcome State Fault Refusal :=
  .next (acceptCommand (callP a d) s)

/-- CALLSLAVEPLUS address, direction (R145). -/
def execCallSlavePlus (a : Byte) (d : Dir) (s : State) : Host.Outcome State Fault Refusal :=
  .next (acceptCommand (callPlusP a d) s)

/-- WRITEPLUS byte (R146). -/
def execWritePlus (b : Byte) (s : State) : Host.Outcome State Fault Refusal :=
  .next (acceptCommand (writePlusP b) s)

/-- WRITECOMPLETE address, base, length (R147, R148). -/
def execWriteComplete (a base len : Byte) (s : State) : Host.Outcome State Fault Refusal :=
  .next (acceptCommand (writeCompleteP a base len) s)

/-- READPLUS ackPolicy (R149). -/
def execReadPlus (p : Byte) (s : State) : Host.Outcome State Fault Refusal :=
  .next (acceptCommand (readPlusP p) s)

/-- READCOMPLETE address, base, length (R150–R152). -/
def execReadComplete (a base len : Byte) (s : State) : Host.Outcome State Fault Refusal :=
  .next (acceptCommand (readCompleteP a base len) s)

end Sys2Proof.Machine
end

