-- ==== Sys2Proof/Machine/Dispatch.lean ====
section
/-! DEFINITION. One arm per command, in the order of the opcode map (R88). What `exec` gives is the host step that
presents the command to the block: acceptance or rejection (R101; log entry 6). -/

namespace Sys2Proof.Machine

open Sys2Proof

def exec (i : Instr) (s : State) : Host.Outcome State Fault Refusal :=
  match i with
  | .init => Sys2Proof.Machine.execInit s
  | .wait => Sys2Proof.Machine.execWait s
  | .start => Sys2Proof.Machine.execStart s
  | .restart => Sys2Proof.Machine.execRestart s
  | .stop => Sys2Proof.Machine.execStop s
  | .sendAck => Sys2Proof.Machine.execSendAck s
  | .sendNak => Sys2Proof.Machine.execSendNak s
  | .write b => Sys2Proof.Machine.execWrite b s
  | .read p => Sys2Proof.Machine.execRead p s
  | .callSlave a d => Sys2Proof.Machine.execCallSlave a d s
  | .callSlavePlus a d => Sys2Proof.Machine.execCallSlavePlus a d s
  | .writePlus b => Sys2Proof.Machine.execWritePlus b s
  | .writeComplete a base len => Sys2Proof.Machine.execWriteComplete a base len s
  | .readPlus p => Sys2Proof.Machine.execReadPlus p s
  | .readComplete a base len => Sys2Proof.Machine.execReadComplete a base len s

end Sys2Proof.Machine
end

