-- ==== Sys2Proof/Machine/Peripheral.lean ====
section
/-! DEFINITION. The peripheral agent: it completes the pending action (R116) and does nothing else (R117). -/

namespace Sys2Proof.Machine

open Sys2Proof

/-- PeriphComplete(b, k): a receive delivers the byte `b`; the acknowledge bit `k` of a transmit is recorded nowhere
(R116, R174). With nothing pending the step is not enabled and nothing happens (log entry 5). -/
def periphComplete (b : Byte) (_k : Bool) (s : State) : State :=
  match s.pend with
  | none => s
  | some .rcv => { s with shiftBuf := b, pend := none }
  | some .xmit => { s with pend := none }
  | some .start => { s with pend := none }
  | some .restart => { s with pend := none }
  | some .stop => { s with pend := none }
  | some .ack => { s with pend := none }

end Sys2Proof.Machine
end

