-- ==== Sys2Proof/Machine/Sequencer.lean ====
section
/-! DEFINITION. The sequencer agent: the effect of each µop (R106–R114) and the sequencer step (R103). -/

namespace Sys2Proof.Machine

open Sys2Proof

/-- The framing check of every µop that needs an open transaction (R107–R111, R171). -/
def requireOpen (s : State) : State :=
  raiseIf (decide (s.framing = .busFree)) .misuseNoTransaction s

/-- The framing check of a Start (R107, R171). -/
def requireFree (s : State) : State :=
  raiseIf (decide (s.framing = .busOpen)) .misuseNestedStart s

/-- WAITIDLE: no effect once it is enabled (R106). -/
def uopWaitIdle (s : State) : State := s

/-- COND(c): framing check and update, then the condition in every case (R107). -/
def uopCond (c : Condition) (s : State) : State :=
  match c with
  | .start => issue .start { requireFree s with framing := .busOpen }
  | .restart => issue .restart { requireOpen s with framing := .busOpen }
  | .stop => issue .stop { requireOpen s with framing := .busFree }

/-- LOADLIT(b) (R108). -/
def uopLoadLit (b : Byte) (s : State) : State := issue (.load b) (requireOpen s)

/-- LOADMEM(x): the read comes before the framing check (R108, R176). -/
def uopLoadMem (x : Byte) (s : State) : State :=
  let r := memRead x s
  issue (.load r.1) (requireOpen r.2)

/-- RCVEN (R109). -/
def uopRcvEn (s : State) : State := issue .rcvEnable (requireOpen s)

/-- CAPTURE: `T <- SHIFTBUF; RDATA <- sext_32(T)` (R110). -/
def uopCapture (s : State) : State := { s with t := s.shiftBuf, rdata := signedByte s.shiftBuf }

/-- ACKLIT(k) (R111). -/
def uopAckLit (k : Bool) (s : State) : State := issue (.ack k) (requireOpen s)

/-- ACKPOL (R111). -/
def uopAckPol (s : State) : State := issue (.ack s.pol) (requireOpen s)

/-- POLMEM(x): issues nothing and does not check framing (R112). -/
def uopPolMem (x : Byte) (s : State) : State :=
  let r := memRead x s
  { r.2 with pol := ackBit r.1 }

/-- STOREMEM(x) (R113). -/
def uopStoreMem (x : Byte) (s : State) : State := memWrite x s.t s

/-- CONFIGURE(d): the five configuration actions, in this order (R114). -/
def uopConfigure (d : BitVec Config.divW) (s : State) : State :=
  issue .auxReset (issue (.setDir .sda .input) (issue (.setDir .scl .input)
    (issue (.setDiv d) (issue .setModeMaster s))))

/-- The effect of a µop (R104). -/
def runUop (u : Uop) (s : State) : State :=
  match u with
  | .waitIdle => uopWaitIdle s
  | .cond c => uopCond c s
  | .loadLit b => uopLoadLit b s
  | .loadMem x => uopLoadMem x s
  | .rcvEn => uopRcvEn s
  | .capture => uopCapture s
  | .ackLit k => uopAckLit k s
  | .ackPol => uopAckPol s
  | .polMem x => uopPolMem x s
  | .storeMem x => uopStoreMem x s
  | .configure d => uopConfigure d s

/-- Every µop is enabled except WAITIDLE, which needs the peripheral idle (R103, R106). -/
def uopEnabled (u : Uop) (s : State) : Bool :=
  match u with
  | .waitIdle => periphIdle s
  | .cond _ | .loadLit _ | .loadMem _ | .rcvEn | .capture | .ackLit _ | .ackPol | .polMem _ | .storeMem _
  | .configure _ => true

/-- The µops that issue an action which sets PEND (R104). -/
def Uop.issuing : Uop → Bool
  | .cond _ | .loadLit _ | .loadMem _ | .rcvEn | .ackLit _ | .ackPol => true
  | .waitIdle | .capture | .polMem _ | .storeMem _ | .configure _ => false

/-- The sequencer has a step: a head µop that is enabled (R103). -/
def sequencerEnabled (s : State) : Bool :=
  match s.uops with
  | [] => false
  | u :: _ => uopEnabled u s

/-- The sequencer step: the head µop's effect, then the head is removed (R103). Where it is not enabled, nothing happens:
the hold of R106 (log entry 5). -/
def sequencerStep (s : State) : State :=
  match s.uops with
  | [] => s
  | u :: rest => if uopEnabled u s then { runUop u s with uops := rest } else s

end Sys2Proof.Machine
end

