-- ==== Sys2Proof/Machine/HostPort.lean ====
section
/-! DEFINITION. The host port (R17–R28, R61–R69) and the step of each agent (R70, R100). -/

namespace Sys2Proof.Machine

open Sys2Proof

/-- The rejection code of a word that is no command (R161). -/
def decodeErrCode : DecodeError → ErrCode
  | .illegalOp => .illegalOp
  | .rsvdField => .rsvdField

/-- A host write of CMD: the word is decoded and presented to acceptance (R18, R101). Every path checks OVERRUN first
(R164, R168): `exec` for a command, `acceptNone` for a word that is none. -/
def hostWriteCmd (w : Word) (s : State) : Host.Outcome State Fault Refusal :=
  match decode w with
  | .ok i => exec i s
  | .error c => .next (acceptNone (decodeErrCode c) s)

/-- A host write of STATUS: bit 2 clears the error latch, the other bits are ignored (R23). -/
def hostWriteStatus (w : Word) (s : State) : State := if w.getLsbD 2 then clearError s else s

/-- A host write of DMEM word `k`: refused while busy (R68, R167). -/
def hostWriteDmem (k : BitVec 6) (w : Word) (s : State) : State :=
  if busy s then reject .dmemBusy s else writeDmemWord k w s

/-- A host write (R17, R28, R63). -/
def hostWrite (off : Offset) (w : Word) (s : State) : Host.Outcome State Fault Refusal :=
  match hostReg off with
  | .cmd => hostWriteCmd w s
  | .arg => .next { s with arg := w }
  | .status => .next (hostWriteStatus w s)
  | .rdata => .next s
  | .reserved => .next s
  | .dmem k => .next (hostWriteDmem k w s)

/-- The word a host read returns, and the state with the draws the read took (R17, R18, R28, R69). -/
def readReg (off : Offset) (s : State) : Word × State :=
  match hostReg off with
  | .cmd => (0, s)
  | .arg => (s.arg, s)
  | .status => (statusWord s, s)
  | .rdata => (s.rdata, s)
  | .reserved => (0, s)
  | .dmem k => readDmemWord k s

/-- A host read: the word goes to the host, and the block is unchanged (R63). -/
def hostRead (off : Offset) (s : State) : State :=
  let r := readReg off s
  { r.2 with hostData := r.1 }

/-- One event of the interleaving (R70, R100). -/
def runEvent (e : Event) (s : State) : Host.Outcome State Fault Refusal :=
  match e with
  | .hostWrite off w => hostWrite off w s
  | .hostRead off => .next (hostRead off s)
  | .sequencer => .next (sequencerStep s)
  | .peripheral b k => .next (periphComplete b k s)
  | .reset => .next (resetBlock s)

end Sys2Proof.Machine
end

