-- ==== Sys2Proof/Machine/Step.lean ====
section
/-! DEFINITION. One step of the machine: the next event of the interleaving (R74). -/

namespace Sys2Proof.Machine

open Sys2Proof

/-- Take the next event and perform it. -/
def step (s : State) : Host.Outcome State Fault Refusal :=
  runEvent (nextEvent s).1 (nextEvent s).2

/-- The state in which the next event is the host's write to CMD of the word whose low `nbits` bits are those of `w`. -/
def State.withFetchWord (s : State) (nbits w : Nat) : State :=
  pushEvent (.hostWrite offCmd (tableWord nbits w)) s

end Sys2Proof.Machine
end

