-- ==== Sys2Proof/WellFormed.lean ====
section
/-! DEFINITION. Well-formedness. A term of `Instr` is well formed by its type: every operand has exactly its field's
width. What can be ill formed is a command word (the match and mask columns of R88) and a line of the host's assembly,
whose operands are plain numbers (R95). -/

namespace Sys2Proof

/-- One row of the opcode map: a word decodes as the row exactly when `word &&& mask = value` (R88). -/
structure TableRow where
  mnemonic : String
  value : Word
  mask : Word
  deriving DecidableEq, Repr

/-- The match and mask columns of R88. -/
def opcodeTable : List TableRow :=
  [ ⟨"INIT", 0x00000001, 0xFFFFFFFF⟩, ⟨"WAIT", 0x00000002, 0xFFFFFFFF⟩, ⟨"START", 0x00000003, 0xFFFFFFFF⟩,
    ⟨"RESTART", 0x00000004, 0xFFFFFFFF⟩, ⟨"STOP", 0x00000005, 0xFFFFFFFF⟩, ⟨"SENDACK", 0x00000006, 0xFFFFFFFF⟩,
    ⟨"SENDNAK", 0x00000007, 0xFFFFFFFF⟩, ⟨"WRITE", 0x00000008, 0xFFFF00FF⟩, ⟨"READ", 0x00000009, 0xFFFF00FF⟩,
    ⟨"CALLSLAVE", 0x0000000A, 0xFFFF00EF⟩, ⟨"CALLSLAVEPLUS", 0x0000000B, 0xFFFF00EF⟩,
    ⟨"WRITEPLUS", 0x0000000C, 0xFFFF00FF⟩, ⟨"WRITECOMPLETE", 0x0000000D, 0x000000FF⟩,
    ⟨"READPLUS", 0x0000000E, 0xFFFF00FF⟩, ⟨"READCOMPLETE", 0x0000000F, 0x000000FF⟩ ]

/-- The word is in the row. -/
def TableRow.matches (r : TableRow) (w : Word) : Bool := w &&& r.mask == r.value

/-- The mnemonic of a command (R88). -/
def mnemonicOf : Instr → String
  | .init => "INIT"
  | .wait => "WAIT"
  | .start => "START"
  | .restart => "RESTART"
  | .stop => "STOP"
  | .sendAck => "SENDACK"
  | .sendNak => "SENDNAK"
  | .write _ => "WRITE"
  | .read _ => "READ"
  | .callSlave _ _ => "CALLSLAVE"
  | .callSlavePlus _ _ => "CALLSLAVEPLUS"
  | .writePlus _ => "WRITEPLUS"
  | .writeComplete _ _ _ => "WRITECOMPLETE"
  | .readPlus _ => "READPLUS"
  | .readComplete _ _ _ => "READCOMPLETE"

/-- A command word is well formed when some row of the opcode map has it (R88). -/
def wordWellFormed (w : Word) : Bool := opcodeTable.any (·.matches w)

/-- A line of the host's assembly with its operands as plain numbers (R95). -/
inductive AsmLine where
  /-- The pseudo-instruction `INIT rate` (R96). -/
  | init (rate : Nat)
  | wait
  | start
  | restart
  | stop
  | sendAck
  | sendNak
  | write (byte : Nat)
  | read (pol : Nat)
  | callSlave (addr : Nat) (dir : Dir)
  | callSlavePlus (addr : Nat) (dir : Dir)
  | writePlus (byte : Nat)
  | writeComplete (addr base len : Nat)
  | readPlus (pol : Nat)
  | readComplete (addr base len : Nat)
  /-- The directive `DMEM base: b0, b1, ...`. -/
  | dmem (base : Nat) (bytes : List Nat)
  deriving DecidableEq, Repr

/-- The number fits an 8-bit field: 0 … 255 (R95). -/
def fitsByte (n : Nat) : Bool := decide (n < 256)

/-- The operands of a line fit their fields; the assembler refuses a line where one does not (R95). A DMEM directive whose
bytes run past DMEM[0xFF] is refused too (log entry 16). -/
def AsmLine.wf : AsmLine → Bool
  | .init rate => decide (1 ≤ rate) && decide (rate < 2 ^ 32)
  | .wait | .start | .restart | .stop | .sendAck | .sendNak => true
  | .write b => fitsByte b
  | .read p => fitsByte p
  | .callSlave a _ => fitsByte a
  | .callSlavePlus a _ => fitsByte a
  | .writePlus b => fitsByte b
  | .writeComplete a base len => fitsByte a && fitsByte base && fitsByte len
  | .readPlus p => fitsByte p
  | .readComplete a base len => fitsByte a && fitsByte base && fitsByte len
  | .dmem base bytes => fitsByte base && bytes.all fitsByte && decide (base + bytes.length ≤ 256)

end Sys2Proof
end

