-- ==== Sys2Proof/Machine/Driver.lean ====
section
/-! DEFINITION. The host driver of R95 and R96: the command a line of assembly stands for, the host operations a line expands into, the
poll and the DMEM directive among them, and a program's run over the host port beside the other agents. It is the host's
software; no step of the block calls it. -/

namespace Sys2Proof.Machine

open Sys2Proof

/-- The byte of a number that fits one (R95). -/
def byteOf (n : Nat) : Byte := BitVec.ofNat 8 n

/-- The command of a line whose operands fit; no command where one does not, and none for the DMEM directive (R95, R96). -/
def assemble (l : AsmLine) : Option Instr :=
  if l.wf then
    match l with
    | .init _ => some .init
    | .wait => some .wait
    | .start => some .start
    | .restart => some .restart
    | .stop => some .stop
    | .sendAck => some .sendAck
    | .sendNak => some .sendNak
    | .write b => some (.write (byteOf b))
    | .read p => some (.read (byteOf p))
    | .callSlave a d => some (.callSlave (byteOf a) d)
    | .callSlavePlus a d => some (.callSlavePlus (byteOf a) d)
    | .writePlus b => some (.writePlus (byteOf b))
    | .writeComplete a base len => some (.writeComplete (byteOf a) (byteOf base) (byteOf len))
    | .readPlus p => some (.readPlus (byteOf p))
    | .readComplete a base len => some (.readComplete (byteOf a) (byteOf base) (byteOf len))
    | .dmem _ _ => none
  else none

/-- One operation of the host driver: a host access, repeated where it is the poll (R96). -/
inductive HostOp where
  /-- Read STATUS until it reads BUSY = 0. -/
  | poll
  /-- Write ARG, for INIT only. -/
  | writeArg (rate : Word)
  /-- Write a command's word to CMD. -/
  | writeCmd (w : Word)
  /-- Read DMEM word `k`, the first access of a read-modify-write. -/
  | readWord (k : BitVec 6)
  /-- Write DMEM word `k` as read, with the bytes the directive names replaced. -/
  | writeWord (base : Nat) (bytes : List Nat) (k : BitVec 6)
  deriving DecidableEq, Repr

/-- The byte the directive `DMEM base: bytes` names at a DMEM address, if it names one (R95). -/
def namedByte (base : Nat) (bytes : List Nat) (a : Nat) : Option Byte :=
  if base ≤ a then (bytes[a - base]?).map byteOf else none

/-- The directive names a byte of DMEM word `k` (R96). -/
def wordCovered (base : Nat) (bytes : List Nat) (k : Nat) : Bool :=
  (List.range 4).any fun j => (namedByte base bytes (4 * k + j)).isSome

/-- DMEM word `k`, read as `w`, with the named bytes replaced and the others kept (R62, R96). DESIGN CHOICE (log entry 20): an unnamed
byte that was never written is kept as the read returned it, a draw. -/
def mergeWord (base : Nat) (bytes : List Nat) (k : Nat) (w : Word) : Word :=
  let b (j : Nat) : Byte := (namedByte base bytes (4 * k + j)).getD (wordByte w j)
  wordOfBytes (b 0) (b 1) (b 2) (b 3)

/-- The host access an operation makes (R96). -/
def hostOpEvent (op : HostOp) (s : State) : Event :=
  match op with
  | .poll => .hostRead offStatus
  | .writeArg rate => .hostWrite offArg rate
  | .writeCmd w => .hostWrite offCmd w
  | .readWord k => .hostRead (offDmem k)
  | .writeWord base bytes k => .hostWrite (offDmem k) (mergeWord base bytes k.toNat s.hostData)

/-- The poll goes on where the STATUS it read has bit 0 = 1 (R96); no other operation is repeated. -/
def hostOpAgain (op : HostOp) (s : State) : Bool :=
  match op with
  | .poll => s.hostData.getLsbD 0
  | .writeArg _ | .writeCmd _ | .readWord _ | .writeWord _ _ _ => false

/-- The write of ARG that only the pseudo-instruction `INIT rate` makes (R96). -/
def argOps : AsmLine → List HostOp
  | .init rate => [.writeArg (BitVec.ofNat 32 rate)]
  | .wait | .start | .restart | .stop | .sendAck | .sendNak | .write _ | .read _ | .callSlave _ _
  | .callSlavePlus _ _ | .writePlus _ | .writeComplete _ _ _ | .readPlus _ | .readComplete _ _ _ | .dmem _ _ => []

/-- The read-modify-writes of the words a DMEM directive covers, in rising order (R62, R96; log entry 16). -/
def directiveOps (base : Nat) (bytes : List Nat) : List HostOp :=
  ((List.range 64).filter (wordCovered base bytes)).flatMap fun k =>
    [.readWord (BitVec.ofNat 6 k), .writeWord base bytes (BitVec.ofNat 6 k)]

/-- What a line does after its poll (R96). -/
def bodyOps (l : AsmLine) : List HostOp :=
  match l with
  | .dmem base bytes => directiveOps base bytes
  | .init _ | .wait | .start | .restart | .stop | .sendAck | .sendNak | .write _ | .read _ | .callSlave _ _
  | .callSlavePlus _ _ | .writePlus _ | .writeComplete _ _ _ | .readPlus _ | .readComplete _ _ _ =>
    argOps l ++ ((assemble l).map fun i => HostOp.writeCmd (encode i)).toList

/-- The host sequence a line stands for: the poll until BUSY = 0, then the line's accesses; no sequence for a line the assembler
refuses (R95, R96). -/
def lineOps (l : AsmLine) : Option (List HostOp) := if l.wf then some (.poll :: bodyOps l) else none

/-- The host sequence of a program, line after line; none where the assembler refuses a line (R95, R96). -/
def programOps : List AsmLine → Option (List HostOp)
  | [] => some []
  | l :: ls =>
    match lineOps l, programOps ls with
    | some a, some b => some (a ++ b)
    | _, _ => none

/-- The host's turn: the access of the operation it stands at; it stays at the poll while BUSY reads 1 (R96). -/
def hostTurn (ops : List HostOp) (s : State) : List HostOp × State :=
  match ops with
  | [] => ([], s)
  | op :: rest =>
    match runEvent (hostOpEvent op s) s with
    | .next t => (if hostOpAgain op t then op :: rest else rest, t)
    | .fault _ => (op :: rest, s)
    | .refused _ => (op :: rest, s)

/-- Whose turn it is in the interleaving of a host program with the other agents (R74, R119). -/
inductive Turn where
  /-- The host performs its next access. -/
  | host
  /-- Another agent's event. -/
  | agent (e : Event)
  deriving DecidableEq, Repr

/-- A host program beside the other agents: the operations left and the state after a list of turns (R96, R119). -/
def runHost : List Turn → List HostOp → State → List HostOp × State
  | [], ops, s => (ops, s)
  | .host :: ts, ops, s => runHost ts (hostTurn ops s).1 (hostTurn ops s).2
  | .agent e :: ts, ops, s =>
    match runEvent e s with
    | .next t => runHost ts ops t
    | .fault _ => (ops, s)
    | .refused _ => (ops, s)

end Sys2Proof.Machine
end

