-- ==== Sys2Proof/Safety.lean ====
section
/-! DEFINITION. What claims are stated in: runs over a list of events, a command run to its completion (R115), what the spec says a
command leaves (files 41–44), the machine's invariant (R118 and others), fairness (R200), final states (R201). -/

namespace Sys2Proof.Machine

open Sys2Proof

/-! ### Runs -/

/-- The events of a list, one after the other (R74). -/
def runEvents : List Event → State → Host.Outcome State Fault Refusal
  | [], s => .next s
  | e :: es, s =>
    match runEvent e s with
    | .next s' => runEvents es s'
    | .fault r => .fault r
    | .refused r => .refused r

/-- The events run the command in progress exactly to its completion (R115): the command has µops left before each of them,
none of them is a reset, and after the last one UOPS is empty. Host accesses and peripheral steps may stand anywhere among
them. -/
def finish : List Event → State → Option State
  | [], s => if s.uops = [] then some s else none
  | e :: es, s =>
    if s.uops = [] ∨ e = .reset then none
    else
      match runEvent e s with
      | .next s' => finish es s'
      | .fault _ => none
      | .refused _ => none

/-- The byte an event delivers, if it completes a receive (R116). -/
def delivered (e : Event) (s : State) : List Byte :=
  match e, s.pend with
  | .peripheral b _, some .rcv => [b]
  | _, _ => []

/-- The bytes the peripheral delivers in a run, in order (R116). -/
def receivedBytes : List Event → State → List Byte
  | [], _ => []
  | e :: es, s =>
    delivered e s ++
      match runEvent e s with
      | .next s' => receivedBytes es s'
      | .fault _ => []
      | .refused _ => []

/-- Rounds of one peripheral event and one sequencer event, with the peer's answers (R116). With nothing pending the peripheral event
changes nothing (log entry 5). -/
def rounds (answers : List (Byte × Bool)) : List Event :=
  answers.flatMap fun a => [.peripheral a.1 a.2, .sequencer]

/-- The event with its acknowledge draw set to ACK (R174). -/
def eraseAck : Event → Event
  | .peripheral b _ => .peripheral b false
  | .hostWrite off w => .hostWrite off w
  | .hostRead off => .hostRead off
  | .sequencer => .sequencer
  | .reset => .reset

/-- A host access: a read or a write of the window (R61). -/
def isHostAccess : Event → Bool
  | .hostWrite _ _ | .hostRead _ => true
  | .sequencer | .peripheral _ _ | .reset => false

/-- A peripheral step (R116). -/
def isPeripheral : Event → Bool
  | .peripheral _ _ => true
  | .hostWrite _ _ | .hostRead _ | .sequencer | .reset => false

/-! ### What a command needs and what it leaves -/

/-- The block accepts the command (R101): not busy, and the order with INIT is kept. -/
def acceptable (i : Instr) (s : State) : Bool :=
  !busy s && (if i = .init then !s.initDone && s.arg != 0 else s.initDone)

/-- The state after the block accepts the command: only UOPS and, for INIT, INIT_DONE differ (R101, R102). -/
def accepted (i : Instr) (s : State) : State := { s with initDone := true, uops := expand i s.arg }

/-- The DMEM addresses a command reads (R147, R150, R151). -/
def readAddrs : Instr → List Byte
  | .writeComplete _ base len => (List.range len.toNat).map (base + BitVec.ofNat 8 ·)
  | .readComplete _ base len => base :: (List.range len.toNat).map (base + BitVec.ofNat 8 ·)
  | .init | .wait | .start | .restart | .stop | .sendAck | .sendNak | .write _ | .read _ | .callSlave _ _
  | .callSlavePlus _ _ | .writePlus _ | .readPlus _ => []

/-- Every DMEM byte the command reads has been written (R192, R198). -/
def operandsWritten (i : Instr) (s : State) : Bool := (readAddrs i).all (written s)

/-- A DMEM byte of the state; 0 stands for a byte that was never written, which no claim reads. -/
def byteAt (s : State) (x : Byte) : Byte := (s.dmem.read x.toNat).getD 0

/-- The port actions a command appends to TRACE ("State written" of R120, R125–R130, R135, R137, R144–R150). -/
def portTrace (i : Instr) (s : State) : List PortAction :=
  match i with
  | .init =>
    [.setModeMaster, .setDiv (divisor s.arg), .setDir .scl .input, .setDir .sda .input, .auxReset]
  | .wait => []
  | .start => [.start]
  | .restart => [.restart]
  | .stop => [.stop]
  | .sendAck => [.ack false]
  | .sendNak => [.ack true]
  | .write b => [.load b]
  | .read p => [.rcvEnable, .ack (decide (p ≠ 0))]
  | .callSlave a d => [.load (BitVec.ofNat 8 (a.toNat + d.toNat))]
  | .callSlavePlus a d => [.start, .load (BitVec.ofNat 8 (a.toNat + d.toNat))]
  | .writePlus b => [.load b, .stop]
  | .writeComplete a base len =>
    [.start, .load a] ++ (List.range len.toNat).map (fun j => .load (byteAt s (base + BitVec.ofNat 8 j))) ++ [.stop]
  | .readPlus p => [.rcvEnable, .ack (decide (p ≠ 0)), .stop]
  | .readComplete a base len =>
    [.start, .load a, .load (byteAt s base), .stop, .start, .load (BitVec.ofNat 8 (a.toNat + 1))] ++
      (List.range len.toNat).flatMap
        (fun j => [.rcvEnable, .ack (decide (byteAt s (base + BitVec.ofNat 8 j) ≠ 0))]) ++ [.stop]

/-- FRAMING after a command (R126–R128, R145–R150). -/
def framingAfter (i : Instr) (f : Framing) : Framing :=
  match i with
  | .start | .restart | .callSlavePlus _ _ => .busOpen
  | .stop | .writePlus _ | .writeComplete _ _ _ | .readPlus _ | .readComplete _ _ _ => .busFree
  | .init | .wait | .sendAck | .sendNak | .write _ | .read _ | .callSlave _ _ => f

/-- The commands that can raise MisuseNoTransaction (R171). -/
def needsOpen : Instr → Bool
  | .restart | .stop | .sendAck | .sendNak | .write _ | .read _ | .callSlave _ _ | .writePlus _ | .readPlus _ => true
  | .init | .wait | .start | .callSlavePlus _ _ | .writeComplete _ _ _ | .readComplete _ _ _ => false

/-- The commands that can raise MisuseNestedStart (R171). -/
def needsFree : Instr → Bool
  | .start | .callSlavePlus _ _ | .writeComplete _ _ _ | .readComplete _ _ _ => true
  | .init | .wait | .restart | .stop | .sendAck | .sendNak | .write _ | .read _ | .callSlave _ _ | .writePlus _
  | .readPlus _ => false

/-- A µop raises a fault kind in a state (R171, R172). -/
def raises (u : Uop) (s : State) : FaultKind → Bool
  | .misuseNoTransaction =>
    decide (s.framing = .busFree) &&
      (match u with
      | .cond .restart | .cond .stop | .loadLit _ | .loadMem _ | .rcvEn | .ackLit _ | .ackPol => true
      | .cond .start | .waitIdle | .capture | .polMem _ | .storeMem _ | .configure _ => false)
  | .misuseNestedStart => decide (s.framing = .busOpen) && decide (u = .cond .start)
  | .uninitBufferRead =>
    match u with
    | .loadMem x | .polMem x => !written s x
    | .waitIdle | .cond _ | .loadLit _ | .rcvEn | .capture | .ackLit _ | .ackPol | .storeMem _ | .configure _ => false

/-- FAULTS after a command (R171, R172). -/
def faultsAfter (i : Instr) (s : State) : FaultSet where
  noTransaction := s.faults.noTransaction || (needsOpen i && decide (s.framing = .busFree))
  nestedStart := s.faults.nestedStart || (needsFree i && decide (s.framing = .busOpen))
  uninitRead := s.faults.uninitRead || !operandsWritten i s

/-- PEND at the completion of a command other than INIT, which leaves PEND alone (R115, R120). -/
def pendAfter (i : Instr) (p : Option Pending) : Option Pending :=
  match i with
  | .init => p
  | .wait => none
  | .start => some .start
  | .restart => some .restart
  | .stop | .writePlus _ | .writeComplete _ _ _ | .readPlus _ | .readComplete _ _ _ => some .stop
  | .sendAck | .sendNak | .read _ => some .ack
  | .write _ | .callSlave _ _ | .callSlavePlus _ _ => some .xmit

/-- ACKDT after a command (R37, R120, R129, R130, R137, R149, R150). -/
def ackdtAfter (i : Instr) (s : State) : Bool :=
  match i with
  | .init | .sendAck => false
  | .sendNak => true
  | .read p | .readPlus p => decide (p ≠ 0)
  | .readComplete _ base len =>
    if len = 0 then s.ackdt else decide (byteAt s (base + (len - 1)) ≠ 0)
  | .wait | .start | .restart | .stop | .write _ | .callSlave _ _ | .callSlavePlus _ _ | .writePlus _
  | .writeComplete _ _ _ => s.ackdt

/-- How many bytes a command receives (R137, R149, R150). -/
def receiveCount : Instr → Nat
  | .read _ | .readPlus _ => 1
  | .readComplete _ _ len => len.toNat
  | .init | .wait | .start | .restart | .stop | .sendAck | .sendNak | .write _ | .callSlave _ _ | .callSlavePlus _ _
  | .writePlus _ | .writeComplete _ _ _ => 0

/-- The last byte a command loads for transmission, if it loads one (R135, R144–R150). -/
def lastLoaded (i : Instr) (s : State) : Option Byte :=
  match i with
  | .write b | .writePlus b => some b
  | .callSlave a d | .callSlavePlus a d => some (BitVec.ofNat 8 (a.toNat + d.toNat))
  | .writeComplete a base len => some (if len = 0 then a else byteAt s (base + (len - 1)))
  | .readComplete a _ _ => some (BitVec.ofNat 8 (a.toNat + 1))
  | .init | .wait | .start | .restart | .stop | .sendAck | .sendNak | .read _ | .readPlus _ => none

/-- The number of µops of a command (R155). -/
def uopCount : Instr → Nat
  | .init | .wait => 1
  | .start | .restart | .stop | .sendAck | .sendNak | .write _ | .callSlave _ _ => 2
  | .callSlavePlus _ _ | .writePlus _ => 4
  | .read _ => 6
  | .readPlus _ => 8
  | .writeComplete _ _ len => 2 * len.toNat + 6
  | .readComplete _ _ len => 8 * len.toNat + 14

/-- How many Starts a command issues (R154). -/
def startCount : Instr → Nat
  | .start | .callSlavePlus _ _ | .writeComplete _ _ _ => 1
  | .readComplete _ _ _ => 2
  | .init | .wait | .restart | .stop | .sendAck | .sendNak | .write _ | .read _ | .callSlave _ _ | .writePlus _
  | .readPlus _ => 0

/-- How many Stops a command issues (R154). -/
def stopCount : Instr → Nat
  | .stop | .writePlus _ | .writeComplete _ _ _ | .readPlus _ => 1
  | .readComplete _ _ _ => 2
  | .init | .wait | .start | .restart | .sendAck | .sendNak | .write _ | .read _ | .callSlave _ _
  | .callSlavePlus _ _ => 0

/-- The state with what the host may change while a command runs set to fixed values: ARG, the error latch, the host's own
word, the interleaving and the draw counter (R19, R23, R63). -/
def commandView (s : State) : State :=
  { s with arg := 0, cmdErr := false, errCode := .none, hostData := 0, inbox := [], draws := 0 }

/-! ### The invariant -/

/-- Each issuing µop of the list is directly preceded by WAITIDLE, or is the head where `idle` says the peripheral is idle
(R118). -/
def guarded : Bool → List Uop → Bool
  | _, [] => true
  | idle, u :: us => (!u.issuing || idle) && guarded (decide (u = .waitIdle)) us

/-- Each RCVEN of the list is directly followed by WAITIDLE (R102, R110). -/
def receiveWaited : List Uop → Bool
  | [] => true
  | u :: us => (decide (u ≠ .rcvEn) || decide (us.head? = some .waitIdle)) && receiveWaited us

/-- The framing after one more port action: open after a Start or Restart, free after a Stop (R42). -/
def framingStep (f : Framing) : PortAction → Framing
  | .start | .restart => .busOpen
  | .stop => .busFree
  | .setModeMaster | .setDiv _ | .setDir _ _ | .auxReset | .load _ | .rcvEnable | .ack _ => f

/-- FRAMING as the port trace gives it (R42). -/
def framingOf (tr : List PortAction) : Framing := tr.foldl framingStep .busFree

/-- The pending action a port action leaves, if it sets PEND (R105). -/
def pendingOf : PortAction → Option Pending
  | .start => some .start
  | .restart => some .restart
  | .stop => some .stop
  | .load _ => some .xmit
  | .rcvEnable => some .rcv
  | .ack _ => some .ack
  | .setModeMaster | .setDiv _ | .setDir _ _ | .auxReset => none

/-- The error latch is consistent: ERRCODE is NONE exactly while CMDERR is 0 (R23, R24, R166). -/
def latchConsistent (s : State) : Prop := s.cmdErr = false ↔ s.errCode = .none

/-- Before INIT is accepted nothing has been issued, nothing is pending and nothing is recorded (R124, R191). -/
def quietBeforeInit (s : State) : Prop :=
  s.initDone = false →
    s.uops = [] ∧ s.pend = none ∧ s.trace = [] ∧ s.framing = .busFree ∧ s.faults = {}

/-- CONFIGURE is only ever the whole list of an INIT, before any action was issued (R120, R123). -/
def configureAlone (s : State) : Prop :=
  ∀ d, Uop.configure d ∈ s.uops → s.uops = [.configure d] ∧ s.pend = none ∧ s.trace = []

/-- A receive is pending only while the head µop is the WAITIDLE that waits for it (R110). -/
def receiveHeld (s : State) : Prop :=
  receiveWaited s.uops = true ∧ (s.pend = some .rcv → s.uops.head? = some .waitIdle)

/-- PEND is none or what the last action issued left pending (R105). -/
def pendIsLast (s : State) : Prop :=
  s.pend = none ∨ ∃ e, s.trace.getLast? = some e ∧ s.pend = pendingOf e

/-- What every step keeps: DMEM in canonical form (R64), a consistent error latch (R166), every issuing µop guarded by a
WAITIDLE (R118), every receive waited for (R110), quiet before INIT (R124), CONFIGURE alone (R123), FRAMING a function of the
issued actions (R42), and PEND none or the pending action of the last action issued (R105). -/
structure Inv (s : State) : Prop where
  dmemWf : s.dmem.wf = true
  latch : latchConsistent s
  issueGuarded : guarded (decide (s.pend = none)) s.uops = true
  receive : receiveHeld s
  quiet : quietBeforeInit s
  alone : configureAlone s
  framed : s.framing = framingOf s.trace
  pendLast : pendIsLast s

/-! ### Infinite runs and fairness -/

/-- The states `σ` are a run of the events `ε` (R74). -/
def IsRun (ε : Nat → Event) (σ : Nat → State) : Prop := ∀ n, runEvent (ε n) (σ n) = .next (σ (n + 1))

/-- `PERIPH_FAIR`: where an action is pending from some point on, a peripheral step occurs (R200). -/
def PeriphFair (ε : Nat → Event) (σ : Nat → State) : Prop :=
  ∀ n, (∀ m, n ≤ m → (σ m).pend ≠ none) → ∃ m, n ≤ m ∧ isPeripheral (ε m) = true

/-- Weak fairness of the sequencer: where it has a step from some point on, it takes one (R200). -/
def SequencerFair (ε : Nat → Event) (σ : Nat → State) : Prop :=
  ∀ n, (∀ m, n ≤ m → sequencerEnabled (σ m) = true) → ∃ m, n ≤ m ∧ ε m = .sequencer

/-! ### Final states -/

/-- The event is a host write. -/
def isHostWrite : Event → Bool
  | .hostWrite _ _ => true
  | .hostRead _ | .sequencer | .peripheral _ _ | .reset => false

/-- The event the machine takes at its `n`-th step from a state (R74): the lined-up events first, then the free values. -/
def comingEvent : Nat → State → Event
  | 0, s => (nextEvent s).1
  | n + 1, s =>
    match step s with
    | .next t => comingEvent n t
    | .fault _ => (nextEvent s).1
    | .refused _ => (nextEvent s).1

/-- A final state (R201), `rest` being all the events of the run still to come: that the host performs no more writes is a fact of
the host's program, which is no state of the block (R47; log entry 15). -/
def FinalBefore (rest : Nat → Event) (s : State) : Prop :=
  (∀ n, isHostWrite (rest n) = false) ∧ s.uops = [] ∧ s.pend = none ∧ s.framing = .busFree ∧ s.faults = {}

/-- A final state of the machine's own run (R201). -/
def Final (s : State) : Prop := FinalBefore (fun n => comingEvent n s) s

end Sys2Proof.Machine
end

