-- ==== Sys2Proof/Certificates/Slice0/Obligations.lean ====
section
/-! DEFINITION. The statements for the provers. Each docstring names the rules of spec/ the statement is drawn from. -/

open Sys2Proof Sys2Proof.Machine

/-! ### Encoding (30_encoding.md) -/

/-- R89, R97: decoding the word of a command gives the command, with every operand at every value of its field. -/
def Obligations.DecodeOfEncode : Prop := ∀ i : Instr, decode (encode i) = .ok i

/-- R88, R97: a word that decodes is the word of the command it decodes to. -/
def Obligations.EncodeOfDecode : Prop := ∀ (w : Word) (i : Instr), decode w = .ok i → encode i = w

/-- R97: the encoding function, and its five examples. -/
def Obligations.EncodeIsFieldSum : Prop :=
  (∀ (op : BitVec 4) (dir : Dir) (opa len base : Byte),
    (packFields op dir opa len base).toNat =
      base.toNat * 2 ^ 24 + len.toNat * 2 ^ 16 + opa.toNat * 2 ^ 8 + dir.toNat * 2 ^ 4 + op.toNat) ∧
  encode .start = 0x00000003 ∧ encode (.callSlave 0x90 dirRead) = 0x0000901A ∧
  encode (.write 0x05) = 0x00000508 ∧ encode (.writeComplete 0x50 0x00 2) = 0x0002500D ∧
  encode (.readComplete 0x90 0x10 2) = 0x1002900F

/-- R88: a word decodes as a row exactly when it agrees with the row's match under its mask. -/
def Obligations.DecodeMatchesTable : Prop :=
  ∀ (w : Word), ∀ r ∈ opcodeTable,
    (w &&& r.mask = r.value ↔ ∃ i, decode w = .ok i ∧ mnemonicOf i = r.mnemonic)

/-- R162, R163: a word with `OP = 0` and a word with an assigned `OP` that is in no row of the opcode map, each written while the
block is not busy, execute nothing and are rejected by name. -/
def Obligations.BadWordsRejected : Prop :=
  ∀ (w : Word) (s : State), busy s = false →
    (fieldOp w = 0 → hostWrite offCmd w s = .next (reject .illegalOp s)) ∧
    (fieldOp w ≠ 0 → wordWellFormed w = false → hostWrite offCmd w s = .next (reject .rsvdField s))

/-- Words written out from R88 and 95_test_vectors.md §2.1, one of each family at least. -/
def Obligations.SampleWordsDecode : Prop :=
  decode 0x00000001 = .ok .init ∧ decode 0x00000005 = .ok .stop ∧ decode 0x00000109 = .ok (.read 1) ∧
  decode 0x0000501B = .ok (.callSlavePlus 0x50 1) ∧ decode 0xFE03500D = .ok (.writeComplete 0x50 0xFE 3) ∧
  decode 0x1002900F = .ok (.readComplete 0x90 0x10 2) ∧ decode 0x00000013 = .error .rsvdField ∧
  decode 0x00000010 = .error .illegalOp

/-! ### The step -/

/-- R18, R101: where the host's next access is a CMD write of a word that decodes to `i`, a step is `exec i`, after the access has
been taken from the interleaving. -/
def Obligations.StepRunsDecodedCommand : Prop :=
  (∀ (s : State) (w : Word) (i : Instr), decode w = .ok i →
    step (pushEvent (.hostWrite offCmd w) s) = exec i s) ∧
  (∀ (s : State) (nbits w : Nat) (i : Instr), decodeTableWord nbits w = some i →
    step (s.withFetchWord nbits w) = exec i s)

/-- R74, R119 and the model's own inbox (log entry 4): a step performs the next event, and a run of the core over the lined-up
events is the run of those events. -/
def Obligations.CoreRunsTheEvents : Prop :=
  ∀ (es q : List Event) (s : State),
    core.run es.length { s with inbox := es ++ q } = runEvents es { s with inbox := q }

/-- R160: no event stops the block: every step answers a next state. -/
def Obligations.EveryStepAnswersNext : Prop := ∀ s : State, ∃ t, step s = .next t

/-! ### Acceptance and rejection (R101, R161–R169) -/

/-- R101, R102: an acceptable command becomes the remaining µop list; nothing else but INIT_DONE changes. -/
def Obligations.AcceptableCommandAccepted : Prop :=
  ∀ (i : Instr) (s : State), acceptable i s = true → exec i s = .next (accepted i s)

/-- R102: the µop list of each command. -/
def Obligations.ExpandLists : Prop :=
  (∀ rate, expand .init rate = [.configure (divisor rate)]) ∧
  ∀ rate,
    expand .wait rate = [.waitIdle] ∧
    expand .start rate = [.waitIdle, .cond .start] ∧
    expand .restart rate = [.waitIdle, .cond .restart] ∧
    expand .stop rate = [.waitIdle, .cond .stop] ∧
    expand .sendAck rate = [.waitIdle, .ackLit false] ∧
    expand .sendNak rate = [.waitIdle, .ackLit true] ∧
    (∀ b, expand (.write b) rate = [.waitIdle, .loadLit b]) ∧
    (∀ p, expand (.read p) rate =
      [.waitIdle, .rcvEn, .waitIdle, .capture, .waitIdle, .ackLit (decide (p ≠ 0))]) ∧
    (∀ a d, expand (.callSlave a d) rate = [.waitIdle, .loadLit (BitVec.ofNat 8 (a.toNat + d.toNat))]) ∧
    (∀ a d, expand (.callSlavePlus a d) rate =
      [.waitIdle, .cond .start, .waitIdle, .loadLit (BitVec.ofNat 8 (a.toNat + d.toNat))]) ∧
    (∀ b, expand (.writePlus b) rate = [.waitIdle, .loadLit b, .waitIdle, .cond .stop]) ∧
    (∀ a base len, expand (.writeComplete a base len) rate =
      [.waitIdle, .cond .start, .waitIdle, .loadLit a] ++
        (List.range len.toNat).flatMap
          (fun j => [.waitIdle, .loadMem (BitVec.ofNat 8 (base.toNat + j))]) ++
        [.waitIdle, .cond .stop]) ∧
    (∀ p, expand (.readPlus p) rate =
      [.waitIdle, .rcvEn, .waitIdle, .capture, .waitIdle, .ackLit (decide (p ≠ 0)), .waitIdle, .cond .stop]) ∧
    (∀ a base len, expand (.readComplete a base len) rate =
      [.waitIdle, .cond .start, .waitIdle, .loadLit a, .waitIdle, .loadMem base, .waitIdle, .cond .stop,
        .waitIdle, .cond .start, .waitIdle, .loadLit (BitVec.ofNat 8 (a.toNat + 1))] ++
        (List.range len.toNat).flatMap
          (fun j =>
            [.polMem (BitVec.ofNat 8 (base.toNat + j)), .waitIdle, .rcvEn, .waitIdle, .capture, .waitIdle, .ackPol,
              .storeMem (BitVec.ofNat 8 (base.toNat + j))]) ++
        [.waitIdle, .cond .stop])

/-- R155: the number of µops of every command. -/
def Obligations.UopCounts : Prop := ∀ (i : Instr) (rate : Word), (expand i rate).length = uopCount i

/-- R164, R168: a CMD write while busy is dropped whatever its word is; the command in progress goes on unchanged, and only
OVERRUN is reported. -/
def Obligations.OverrunDropsCommandWrite : Prop :=
  ∀ (w : Word) (s : State), busy s = true →
    hostWrite offCmd w s =
      .next (if s.cmdErr then s else { s with cmdErr := true, errCode := .overrun })

/-- R124: before INIT is accepted, every other command is rejected with NOT_INIT and does nothing. -/
def Obligations.NotInitRejection : Prop :=
  ∀ (i : Instr) (s : State), i ≠ .init → busy s = false → s.initDone = false →
    exec i s = .next (if s.cmdErr then s else { s with cmdErr := true, errCode := .notInit })

/-- R123: a second INIT is rejected with REINIT whatever ARG is, and an INIT with `ARG = 0` with RATE_ZERO; nothing is
configured and INIT_DONE stays. -/
def Obligations.ReinitAndRateZero : Prop :=
  ∀ s : State, busy s = false →
    (s.initDone = true →
      exec .init s = .next (if s.cmdErr then s else { s with cmdErr := true, errCode := .reinit })) ∧
    (s.initDone = false → s.arg = 0 →
      exec .init s = .next (if s.cmdErr then s else { s with cmdErr := true, errCode := .rateZero }))

/-- R166: `reject` keeps the first error, and changes no other state. -/
def Obligations.RejectKeepsFirstError : Prop :=
  ∀ (c d : ErrCode) (s : State),
    (s.cmdErr = false → reject c s = { s with cmdErr := true, errCode := c }) ∧
    (s.cmdErr = true → reject c s = s) ∧ reject d (reject c s) = reject c s

/-- R101, R166: the frame of every command write. What `exec` answers differs from the state before in UOPS, INIT_DONE and the error
latch at most; UOPS only where the block was not busy, INIT_DONE only for INIT; every DMEM byte reads as before. -/
def Obligations.CommandWriteFrame : Prop :=
  ∀ (i : Instr) (s t : State), exec i s = .next t →
    t = { s with initDone := t.initDone, uops := t.uops, cmdErr := t.cmdErr, errCode := t.errCode } ∧
    (busy s = true → t.uops = s.uops) ∧ (i ≠ .init → t.initDone = s.initDone) ∧
    (t.uops ≠ s.uops → t.cmdErr = s.cmdErr ∧ t.errCode = s.errCode) ∧
    ∀ a, t.dmem.read a = s.dmem.read a

/-! ### Commands run to completion, over every interleaving (R115, R143, files 41–44)

`finish es (accepted i s) = some u`: the events `es`, host accesses and peripheral steps anywhere among them, run command `i`
from its acceptance in `s` exactly to its last µop, and leave `u`. -/

/-- R103, R106, R116, R200 and the model's stutter (log entry 5, DESIGN CHOICE): from any state, rounds of one peripheral event and one
sequencer event remove one µop each, so as many rounds as there are µops complete the command, whatever the peer answers. Where
nothing is pending R116 gives the peripheral no step, and the round's peripheral event changes nothing. -/
def Obligations.RoundsComplete : Prop :=
  ∀ (s : State) (answers : List (Byte × Bool)), answers.length = s.uops.length →
    ∃ u, finish (rounds answers) s = some u ∧ runEvents (rounds answers) s = .next u

/-- R120–R150: every command, once accepted, has a run to its completion, and every such run issues the command's actions, in order,
and no other. -/
def Obligations.CommandPortTrace : Prop :=
  ∀ (i : Instr) (s : State), acceptable i s = true → operandsWritten i s = true →
    exec i s = .next (accepted i s) ∧
    (∃ es u, finish es (accepted i s) = some u) ∧
    ∀ es u, finish es (accepted i s) = some u → u.trace = s.trace ++ portTrace i s

/-- R42, R126–R128, R143–R150: the framing state every command leaves. -/
def Obligations.CommandFraming : Prop :=
  ∀ (i : Instr) (s : State), acceptable i s = true →
    exec i s = .next (accepted i s) ∧
    ∀ es u, finish es (accepted i s) = some u → u.framing = framingAfter i s.framing

/-- R171, R172: the model faults every command records, and no other. -/
def Obligations.CommandFaults : Prop :=
  ∀ (i : Instr) (s : State), acceptable i s = true →
    exec i s = .next (accepted i s) ∧
    ∀ es u, finish es (accepted i s) = some u → u.faults = faultsAfter i s

/-- R115, R125, R131: what is pending when a command completes: the action issued last, and nothing after WAIT. -/
def Obligations.CommandPend : Prop :=
  ∀ (i : Instr) (s : State), acceptable i s = true → (i = .init → s.pend = none) →
    exec i s = .next (accepted i s) ∧
    ∀ es u, finish es (accepted i s) = some u → u.pend = pendAfter i s.pend

/-- R37, R129, R130, R138, R152: the acknowledge data bit every command leaves. -/
def Obligations.CommandAckdt : Prop :=
  ∀ (i : Instr) (s : State), acceptable i s = true → operandsWritten i s = true →
    exec i s = .next (accepted i s) ∧
    ∀ es u, finish es (accepted i s) = some u → u.ackdt = ackdtAfter i s

/-- R38, R116: the shift buffer holds the last byte received, else the last byte loaded, else what it held. -/
def Obligations.CommandShiftBuf : Prop :=
  ∀ (i : Instr) (s : State), acceptable i s = true → operandsWritten i s = true → s.pend ≠ some .rcv →
    exec i s = .next (accepted i s) ∧
    ∀ es u, finish es (accepted i s) = some u →
      u.shiftBuf =
        (receivedBytes es (accepted i s)).getLast?.getD ((lastLoaded i s).getD s.shiftBuf)

/-- R27, R137, R140, R149: READ and READPLUS receive one byte and return it, sign-extended. -/
def Obligations.ReadReturnsReceivedByte : Prop :=
  ∀ (i : Instr) (p : Byte) (s : State), i = .read p ∨ i = .readPlus p → acceptable i s = true →
    s.pend ≠ some .rcv →
    exec i s = .next (accepted i s) ∧
    ∀ es u, finish es (accepted i s) = some u →
      ∃ b, receivedBytes es (accepted i s) = [b] ∧ u.rdata = b.signExtend 32 ∧ u.dmem = s.dmem

/-- R150, P5: READCOMPLETE receives `len` bytes and stores the `j`-th in slot `(base + j) mod 256`; every other DMEM byte is
unchanged; RDATA is the last byte received, sign-extended, or unchanged for `len = 0`. -/
def Obligations.ReadCompleteFillsBuffer : Prop :=
  ∀ (a base len : Byte) (s : State), acceptable (.readComplete a base len) s = true → s.pend ≠ some .rcv →
    exec (.readComplete a base len) s = .next (accepted (.readComplete a base len) s) ∧
    ∀ es u, finish es (accepted (.readComplete a base len) s) = some u →
      ∃ bs, receivedBytes es (accepted (.readComplete a base len) s) = bs ∧ bs.length = len.toNat ∧
        (∀ j, (h : j < bs.length) → u.dmem.read (BitVec.ofNat 8 (base.toNat + j)).toNat = some bs[j]) ∧
        (∀ x : Nat, (∀ j, j < len.toNat → x ≠ (BitVec.ofNat 8 (base.toNat + j)).toNat) →
          u.dmem.read x = s.dmem.read x) ∧
        u.rdata = ((bs.getLast?).map (·.signExtend 32)).getD s.rdata

/-- R137, R147, R149, R150: the frame of a command's run. No command but INIT writes DIV, MASTER, DIR_SCL, DIR_SDA; only the
commands that receive write T and RDATA; only READCOMPLETE writes DMEM and POL; INIT_DONE stays 1. -/
def Obligations.CommandRunFrame : Prop :=
  ∀ (i : Instr) (s : State), acceptable i s = true →
    exec i s = .next (accepted i s) ∧
    ∀ es u, finish es (accepted i s) = some u →
      u.initDone = true ∧
      (i ≠ .init → u.div = s.div ∧ u.master = s.master ∧ u.dirScl = s.dirScl ∧ u.dirSda = s.dirSda) ∧
      (receiveCount i = 0 → u.rdata = s.rdata ∧ u.t = s.t) ∧
      ((∀ a base len, i ≠ .readComplete a base len) → u.dmem = s.dmem ∧ u.pol = s.pol)

/-- R120, R114, R121: INIT takes one sequencer step, programs the divisor of ARG at acceptance, makes the peripheral bus master, sets
both lines to input and ACKDT to 0, and issues its five actions in order; nothing else changes. -/
def Obligations.InitConfigures : Prop :=
  ∀ s : State, acceptable .init s = true →
    exec .init s = .next (accepted .init s) ∧
    finish [.sequencer] (accepted .init s) =
      some { s with
        initDone := true, uops := [], master := true,
        div := BitVec.ofInt Config.divW (((Config.fOsc / (4 * s.arg.toNat) : Nat) : Int) - 1),
        dirScl := .input, dirSda := .input, ackdt := false,
        trace := s.trace ++ [.setModeMaster, .setDiv (divisor s.arg), .setDir .scl .input, .setDir .sda .input,
          .auxReset] }

/-- R154: how many Starts and how many Stops a command issues. -/
def Obligations.FramingCounts : Prop :=
  ∀ (i : Instr) (s : State), acceptable i s = true →
    exec i s = .next (accepted i s) ∧
    ∀ es u, finish es (accepted i s) = some u →
      u.trace.count .start = s.trace.count .start + startCount i ∧
      u.trace.count .stop = s.trace.count .stop + stopCount i

/-- R119, R143: the interleaving does not matter. Two runs of one command in which the peer delivers the same bytes leave the same
state, but for what the host may change while the command runs (`commandView`). -/
def Obligations.InterleavingsAgree : Prop :=
  ∀ (i : Instr) (s : State), acceptable i s = true → operandsWritten i s = true → (i = .init → s.pend = none) →
    ∀ es₁ es₂ u₁ u₂, finish es₁ (accepted i s) = some u₁ → finish es₂ (accepted i s) = some u₂ →
      receivedBytes es₁ (accepted i s) = receivedBytes es₂ (accepted i s) → commandView u₁ = commandView u₂

/-- R143, R145–R151: the list of a composed command is the lists of its constituents, one after the other, and a run of two lists
put together is a run of the first and then a run of the second. -/
def Obligations.CompositionsRunAsConstituents : Prop :=
  (∀ (rate : Word) (a b base len : Byte) (d : Dir),
    expand (.callSlavePlus a d) rate = expand .start rate ++ expand (.callSlave a d) rate ∧
    expand (.writePlus b) rate = expand (.write b) rate ++ expand .stop rate ∧
    expand (.readPlus b) rate = expand (.read b) rate ++ expand .stop rate ∧
    expand (.writeComplete a base len) rate =
      expand (.callSlavePlus a 0) rate ++ burstP payloadP base len ++ expand .stop rate ∧
    expand (.readComplete a base len) rate =
      expand (.writeComplete a base 1) rate ++ expand (.callSlavePlus a 1) rate ++ burstP slotP base len ++
        expand .stop rate) ∧
  ∀ (us vs : List Uop) (s : State) (es : List Event) (u : State),
    finish es { s with uops := us ++ vs } = some u →
    ∃ es₁ es₂ m, es = es₁ ++ es₂ ∧ finish es₁ { s with uops := us } = some m ∧
      finish es₂ { m with uops := vs } = some u

/-- R200: under PERIPH_FAIR and weak fairness of the sequencer, the block is not busy again and again: every accepted command
completes. -/
def Obligations.FairRunsComplete : Prop :=
  ∀ (ε : Nat → Event) (σ : Nat → State), IsRun ε σ → PeriphFair ε σ → SequencerFair ε σ →
    ∀ n, ∃ m, n ≤ m ∧ busy (σ m) = false

/-- R106, R173: while an action is pending and the head µop is WAITIDLE, no event but a peripheral step or a reset moves the command:
BUSY stays 1 and nothing is issued. A sequencer event is then the model's stutter, not a step (log entry 5, DESIGN CHOICE). -/
def Obligations.HangHolds : Prop :=
  ∀ (es : List Event) (s t : State) (rest : List Uop), s.uops = .waitIdle :: rest → s.pend ≠ none →
    (∀ e ∈ es, isPeripheral e = false ∧ e ≠ .reset) → runEvents es s = .next t →
    commandView t = commandView s ∧ busy t = true

/-- R174, R136: acknowledge draws change nothing: runs that differ only in them end alike. -/
def Obligations.SilentNak : Prop :=
  ∀ (es fs : List Event) (s : State), es.map eraseAck = fs.map eraseAck → runEvents es s = runEvents fs s

/-- R143, R164, R68: a host access while a command runs changes nothing of the command's state. -/
def Obligations.HostCannotDisturb : Prop :=
  ∀ (e : Event) (s t : State), isHostAccess e = true → busy s = true → runEvent e s = .next t →
    commandView t = commandView s

/-! ### The invariant (R118 and others) -/

/-- R64, R110, R118, R124, R166, R42: every step keeps the invariant. -/
def Obligations.StepKeepsInvariant : Prop := ∀ s t : State, Inv s → step s = .next t → Inv t

/-- R46: the state after reset meets the invariant. -/
def Obligations.ResetMeetsInvariant : Prop := Inv State.reset

/-- R118: whenever an issuing µop executes, `PEND = none`: in every state that any list of events leads to from a state that meets
the invariant, and in particular from reset. -/
def Obligations.NoActionIssuedWhilePending : Prop :=
  ∀ (es : List Event) (s t : State), s = State.reset ∨ Inv s → runEvents es s = .next t →
    ∀ u rest, t.uops = u :: rest → u.issuing = true → t.pend = none

/-! ### Whole-machine rules -/

/-- R22: INIT_DONE is set by the acceptance of INIT and by nothing else; only a reset clears it. -/
def Obligations.InitDoneOnlyByInit : Prop :=
  ∀ (e : Event) (s t : State), runEvent e s = .next t → e ≠ .reset → t.initDone ≠ s.initDone →
    s.initDone = false ∧ t.initDone = true ∧ busy s = false ∧ s.arg ≠ 0 ∧
    ∃ off, hostReg off = .cmd ∧ e = .hostWrite off 0x00000001

/-- R43, R44, R105, R170: no step removes a fault or a port action, and only a sequencer step adds one. -/
def Obligations.GhostsOnlyGrow : Prop :=
  ∀ (e : Event) (s t : State), runEvent e s = .next t → e ≠ .reset →
    (∀ k, hasFault s.faults k = true → hasFault t.faults k = true) ∧
    (∀ k, hasFault s.faults k = false → hasFault t.faults k = true → e = .sequencer) ∧
    ∃ l, t.trace = s.trace ++ l ∧ (l ≠ [] → e = .sequencer)

/-- R171, R172, R176: which µop raises which fault kind, and in which states. -/
def Obligations.UopFaults : Prop :=
  ∀ (u : Uop) (s : State) (k : FaultKind),
    hasFault (runUop u s).faults k = (hasFault s.faults k || raises u s k)

/-- R34, R35, R36: DIV, MASTER and the line directions are written only by CONFIGURE. -/
def Obligations.ConfigurationOnlyByConfigure : Prop :=
  ∀ (e : Event) (s t : State), runEvent e s = .next t → e ≠ .reset →
    (t.div ≠ s.div ∨ t.master ≠ s.master ∨ t.dirScl ≠ s.dirScl ∨ t.dirSda ≠ s.dirSda) →
    e = .sequencer ∧ ∃ d rest, s.uops = .configure d :: rest

/-- R27: RDATA is written only by CAPTURE, with the sign-extended shift buffer. -/
def Obligations.RdataOnlyByCapture : Prop :=
  ∀ (e : Event) (s t : State), runEvent e s = .next t → e ≠ .reset → t.rdata ≠ s.rdata →
    e = .sequencer ∧ (∃ rest, s.uops = .capture :: rest) ∧ t.rdata = s.shiftBuf.signExtend 32

/-- R68, R76: a DMEM byte changes only by a STOREMEM to its address or by a host write of its word while not busy. -/
def Obligations.DmemWriters : Prop :=
  ∀ (e : Event) (s t : State) (a : Nat), runEvent e s = .next t → e ≠ .reset →
    t.dmem.read a ≠ s.dmem.read a →
    (e = .sequencer ∧ ∃ x rest, s.uops = .storeMem x :: rest ∧ a = x.toNat ∧ t.dmem.read a = some s.t) ∨
    (busy s = false ∧ ∃ off w k, e = .hostWrite off w ∧ hostReg off = .dmem k ∧
      4 * k.toNat ≤ a ∧ a < 4 * k.toNat + 4)

/-- R23, R161, R166, R169, R176: the error latch. It is set only by a rejected host write, of CMD or, while busy, of DMEM, which changes
nothing else; it is cleared only by a STATUS write with bit 2 set; while it stays set, the first code is kept. -/
def Obligations.ErrorLatchSticky : Prop :=
  ∀ (e : Event) (s t : State), runEvent e s = .next t → e ≠ .reset →
    (t.cmdErr = s.cmdErr ∧ t.errCode = s.errCode) ∨
    (t.cmdErr = false ∧ t.errCode = .none ∧
      ∃ off w, e = .hostWrite off w ∧ 0x008 ≤ off.toNat ∧ off.toNat < 0x00C ∧ w.getLsbD 2 = true) ∨
    (s.cmdErr = false ∧ t = { s with cmdErr := true, errCode := t.errCode } ∧
      ∃ off w, e = .hostWrite off w ∧
        ((off.toNat < 0x004 ∧
            t.errCode ∈ [.illegalOp, .rsvdField, .overrun, .notInit, .reinit, .rateZero]) ∨
          (0x100 ≤ off.toNat ∧ busy s = true ∧ t.errCode = .dmemBusy)))

/-! ### The host port (10_state.md, 20_memory.md) -/

/-- R23: a STATUS write with bit 2 set clears CMDERR and ERRCODE; with bit 2 clear it changes nothing. -/
def Obligations.StatusWriteClears : Prop :=
  ∀ (w : Word) (s : State),
    (w.getLsbD 2 = true → hostWrite offStatus w s = .next { s with cmdErr := false, errCode := .none }) ∧
    (w.getLsbD 2 = false → hostWrite offStatus w s = .next s)

/-- R20, R21, R24: the word a host read of STATUS returns, bit by bit, with the number of every error code. -/
def Obligations.StatusFields : Prop :=
  ∀ s : State,
    let w := (hostRead offStatus s).hostData
    w.getLsbD 0 = decide (s.uops ≠ []) ∧ w.getLsbD 1 = s.initDone ∧ w.getLsbD 2 = s.cmdErr ∧
    w.getLsbD 3 = false ∧ (∀ j, 8 ≤ j → w.getLsbD j = false) ∧
    ∀ p ∈ [(ErrCode.none, 0), (.illegalOp, 1), (.rsvdField, 2), (.overrun, 3), (.notInit, 4), (.reinit, 5),
        (.rateZero, 6), (.dmemBusy, (7 : BitVec 4))],
      s.errCode = p.1 → w.extractLsb' 4 4 = p.2

/-- R28, R62: the reserved offsets, the reserved bits of STATUS, and the two low bits of an offset, which are ignored. -/
def Obligations.ReservedOffsets : Prop :=
  (∀ (off : Offset) (w : Word) (s : State), 0x010 ≤ off.toNat → off.toNat ≤ 0x0FF →
    hostWrite off w s = .next s ∧ hostRead off s = { s with hostData := 0 }) ∧
  (∀ (s : State) (j : Nat), j = 3 ∨ 8 ≤ j → (hostRead offStatus s).hostData.getLsbD j = false) ∧
  ∀ (off off' : Offset) (w : Word) (s : State), off.extractLsb' 2 7 = off'.extractLsb' 2 7 →
    hostWrite off w s = hostWrite off' w s ∧ hostRead off s = hostRead off' s

/-- R18, R19, R63: writes to RDATA are ignored; ARG takes a write at any time, and nothing but a write to it or a reset changes it; CMD
reads 0, ARG and RDATA read as they stand; no host read changes the block, and it draws at most. -/
def Obligations.HostReadsArePure : Prop :=
  (∀ (off : Offset) (s : State), ∃ v n, hostRead off s = { s with hostData := v, draws := s.draws + n }) ∧
  (∀ (w : Word) (s : State), hostWrite offRdata w s = .next s ∧ hostWrite offArg w s = .next { s with arg := w }) ∧
  (∀ s : State, hostRead offCmd s = { s with hostData := 0 } ∧ hostRead offArg s = { s with hostData := s.arg } ∧
    hostRead offRdata s = { s with hostData := s.rdata }) ∧
  ∀ (e : Event) (s t : State), runEvent e s = .next t → e ≠ .reset → t.arg ≠ s.arg →
    ∃ off w, e = .hostWrite off w ∧ 0x004 ≤ off.toNat ∧ off.toNat < 0x008 ∧ t = { s with arg := w }

/-- R65, R68, R69: a host write of DMEM word `k` while not busy stores its four bytes, little-endian, and no other byte; reading the word
gives it back. A host read of word `k` in any state, busy or not, returns the four bytes as they stand, little-endian, an unwritten
byte as the free value of its own draw, lowest byte first (log entries 3 and 10), and changes nothing else. -/
def Obligations.DmemWordWrite : Prop :=
  (∀ (k : BitVec 6) (w : Word) (s : State), busy s = false →
    ∃ t, hostWrite (offDmem k) w s = .next t ∧ t = { s with dmem := t.dmem } ∧
      t.dmem.read (4 * k.toNat) = some (w.extractLsb' 0 8) ∧
      t.dmem.read (4 * k.toNat + 1) = some (w.extractLsb' 8 8) ∧
      t.dmem.read (4 * k.toNat + 2) = some (w.extractLsb' 16 8) ∧
      t.dmem.read (4 * k.toNat + 3) = some (w.extractLsb' 24 8) ∧
      (∀ a, a < 4 * k.toNat ∨ 4 * k.toNat + 4 ≤ a → t.dmem.read a = s.dmem.read a) ∧
      hostRead (offDmem k) t = { t with hostData := w }) ∧
  (∀ (k : BitVec 6) (s : State) (b0 b1 b2 b3 : Byte),
    s.dmem.read (4 * k.toNat) = some b0 → s.dmem.read (4 * k.toNat + 1) = some b1 →
    s.dmem.read (4 * k.toNat + 2) = some b2 → s.dmem.read (4 * k.toNat + 3) = some b3 →
    hostRead (offDmem k) s = { s with hostData := b3 ++ b2 ++ b1 ++ b0 }) ∧
  ∀ (k : BitVec 6) (s : State),
    let unwritten (j : Nat) : Nat := (List.range j).countP fun i => (s.dmem.read (4 * k.toNat + i)).isNone
    let t := hostRead (offDmem k) s
    t = { s with hostData := t.hostData, draws := s.draws + unwritten 4 } ∧
    ∀ j, j < 4 →
      t.hostData.extractLsb' (8 * j) 8 =
        (s.dmem.read (4 * k.toNat + j)).getD (Config.unwrittenByte (s.draws + unwritten j))

/-- R167: a host write to DMEM while busy is dropped and rejected with DMEM_BUSY; a host read of DMEM, busy or not, never is rejected. -/
def Obligations.DmemBusyRefused : Prop :=
  ∀ (off : Offset) (w : Word) (s : State), 0x100 ≤ off.toNat →
    (busy s = true →
      hostWrite off w s = .next (if s.cmdErr then s else { s with cmdErr := true, errCode := .dmemBusy })) ∧
    (hostRead off s).cmdErr = s.cmdErr ∧ (hostRead off s).errCode = s.errCode

/-- R75, R108, R112, R172, R176: a µop that reads a byte that was never written reads a free value, records UninitBufferRead and goes on.
LOADMEM loads that value, and records MisuseNoTransaction too where no transaction is open; POLMEM sets POL to the acknowledge
bit of that value, issues nothing and does not check the framing. -/
def Obligations.UnwrittenLoadGoesOn : Prop :=
  ∀ (x : Byte) (s : State), written s x = false →
    runUop (.loadMem x) s =
      { s with
        draws := s.draws + 1, shiftBuf := Config.unwrittenByte s.draws, pend := some .xmit,
        faults := { s.faults with
          uninitRead := true, noTransaction := s.faults.noTransaction || decide (s.framing = .busFree) },
        trace := s.trace ++ [.load (Config.unwrittenByte s.draws)] } ∧
    runUop (.polMem x) s =
      { s with
        draws := s.draws + 1, pol := decide (Config.unwrittenByte s.draws ≠ 0),
        faults := { s.faults with uninitRead := true } }

/-! ### Peripheral, divisor, reset, boot, end of a run -/

/-- R116, R117: a peripheral step clears PEND and, for a receive, writes the shift buffer; it changes nothing else, and nothing at
all where nothing is pending. -/
def Obligations.PeripheralCompletes : Prop :=
  ∀ (b : Byte) (k : Bool) (s : State),
    runEvent (.peripheral b k) s =
      .next { s with pend := none, shiftBuf := if s.pend = some .rcv then b else s.shiftBuf }

/-- R121, R122: the divisor, computed exactly and then reduced to the register's width; the source's scenario gives 19; where
`4 × rate` exceeds the oscillator frequency, the divisor is the slowest, `2^DIV_W − 1`. -/
def Obligations.DivisorFormula : Prop :=
  (∀ fOsc width rate : Nat, 1 ≤ rate →
    ((divisorOf fOsc width rate).toNat : Int) = ((fOsc / (4 * rate) : Nat) - 1 : Int) % (2 ^ width : Nat)) ∧
  divisorOf 8000000 8 100000 = 19 ∧
  ∀ fOsc width rate : Nat, fOsc < 4 * rate → (divisorOf fOsc width rate).toNat = 2 ^ width - 1

/-- R46, R190: a reset gives every element its reset value and abandons the command in progress, with no action issued. (Only the
values the spec states are stated.) -/
def Obligations.ResetFromAnyState : Prop :=
  ∀ s : State, ∃ t, runEvent .reset s = .next t ∧ t.arg = 0 ∧ t.uops = [] ∧ busy t = false ∧ t.initDone = false ∧
    t.cmdErr = false ∧ t.errCode = .none ∧ t.rdata = 0 ∧ (∀ x, written t x = false) ∧ t.pend = none ∧
    t.framing = .busFree ∧ (∀ k, hasFault t.faults k = false) ∧ t.trace = [] ∧ statusWord t = 0

/-- R192, R120: the boot sequence: ARG, then INIT, then the sequencer's one step. -/
def Obligations.BootSequence : Prop :=
  ∀ rate : Word, rate ≠ 0 →
    ∃ t, runEvents [.hostWrite offArg rate, .hostWrite offCmd 0x00000001, .sequencer] State.reset = .next t ∧
      statusWord t = 0x00000002 ∧ t.div = divisor rate ∧ t.master = true ∧ t.dirScl = .input ∧ t.dirSda = .input ∧
      t.ackdt = false ∧ t.pend = none ∧
      t.trace = [.setModeMaster, .setDiv (divisor rate), .setDir .scl .input, .setDir .sda .input, .auxReset]

/-- R201, R196: a WRITECOMPLETE or READCOMPLETE from a state with no transaction open and no fault, its buffer written, and then a
WAIT, end in a state that is final exactly if the host performs no more writes. -/
def Obligations.CompleteThenWaitIsFinal : Prop :=
  ∀ (i : Instr) (a base len : Byte) (s : State),
    i = .writeComplete a base len ∨ i = .readComplete a base len → acceptable i s = true →
    operandsWritten i s = true → s.framing = .busFree → s.faults = {} →
    ∀ es fs u v, finish es (accepted i s) = some u → exec .wait u = .next (accepted .wait u) ∧
      (finish fs (accepted .wait u) = some v →
        (∀ rest, FinalBefore rest v ↔ ∀ n, isHostWrite (rest n) = false) ∧
        (Final v ↔ ∀ n, isHostWrite (comingEvent n v) = false))

/-- R201, R202: final means no host write to come, no µop left, nothing pending, no transaction open and no fault; the run to come of the
machine's own final states is the one `step` takes; and what comes after a final state is final. -/
def Obligations.FinalStates : Prop :=
  (∀ (rest : Nat → Event) (s : State),
    FinalBefore rest s ↔
      (∀ n off w, rest n ≠ .hostWrite off w) ∧ busy s = false ∧ periphIdle s = true ∧ s.framing ≠ .busOpen ∧
        ∀ k, hasFault s.faults k = false) ∧
  (∀ (s t : State), step s = .next t →
    step s = runEvent (comingEvent 0 s) (nextEvent s).2 ∧ ∀ n, comingEvent (n + 1) s = comingEvent n t) ∧
  ∀ (rest : Nat → Event) (s t : State), FinalBefore rest s → runEvent (rest 0) s = .next t →
    FinalBefore (fun n => rest (n + 1)) t

/-! ### The host driver (R95, R96) -/

/-- R95, R96: the assembler refuses a rate outside 1 … 2^32 − 1 and any other operand outside 0 … 255, and encodes every other command
line: the poll, the write of ARG for INIT, and the write of the command's word. The poll reads STATUS until BUSY is 0, so a program
of such lines, run beside the other agents by any order of turns, never causes OVERRUN or DMEM_BUSY. -/
def Obligations.AssemblerChecksOperands : Prop :=
  (∀ rate : Nat, rate = 0 ∨ 2 ^ 32 ≤ rate → lineOps (.init rate) = none) ∧
  (∀ (n m k : Nat) (d : Dir), 256 ≤ n →
    lineOps (.write n) = none ∧ lineOps (.read n) = none ∧ lineOps (.callSlave n d) = none ∧
    lineOps (.callSlavePlus n d) = none ∧ lineOps (.writePlus n) = none ∧
    lineOps (.readPlus n) = none ∧
    lineOps (.writeComplete n m k) = none ∧ lineOps (.writeComplete m n k) = none ∧
    lineOps (.writeComplete m k n) = none ∧ lineOps (.readComplete n m k) = none ∧
    lineOps (.readComplete m n k) = none ∧ lineOps (.readComplete m k n) = none) ∧
  (∀ rate : Nat, 1 ≤ rate → rate < 2 ^ 32 →
    lineOps (.init rate) =
      some [.poll, .writeArg (BitVec.ofNat 32 rate), .writeCmd 0x00000001]) ∧
  lineOps .wait = some [.poll, .writeCmd 0x00000002] ∧
  lineOps .start = some [.poll, .writeCmd 0x00000003] ∧
  lineOps .restart = some [.poll, .writeCmd 0x00000004] ∧
  lineOps .stop = some [.poll, .writeCmd 0x00000005] ∧
  lineOps .sendAck = some [.poll, .writeCmd 0x00000006] ∧
  lineOps .sendNak = some [.poll, .writeCmd 0x00000007] ∧
  (∀ (n : Nat) (d : Dir), n < 256 →
    lineOps (.write n) = some [.poll, .writeCmd (BitVec.ofNat 32 (n * 2 ^ 8 + 0x8))] ∧
    lineOps (.read n) = some [.poll, .writeCmd (BitVec.ofNat 32 (n * 2 ^ 8 + 0x9))] ∧
    lineOps (.callSlave n d) =
      some [.poll, .writeCmd (BitVec.ofNat 32 (n * 2 ^ 8 + d.toNat * 2 ^ 4 + 0xA))] ∧
    lineOps (.callSlavePlus n d) =
      some [.poll, .writeCmd (BitVec.ofNat 32 (n * 2 ^ 8 + d.toNat * 2 ^ 4 + 0xB))] ∧
    lineOps (.writePlus n) = some [.poll, .writeCmd (BitVec.ofNat 32 (n * 2 ^ 8 + 0xC))] ∧
    lineOps (.readPlus n) = some [.poll, .writeCmd (BitVec.ofNat 32 (n * 2 ^ 8 + 0xE))]) ∧
  (∀ a base len : Nat, a < 256 → base < 256 → len < 256 →
    lineOps (.writeComplete a base len) =
      some [.poll,
        .writeCmd (BitVec.ofNat 32 (base * 2 ^ 24 + len * 2 ^ 16 + a * 2 ^ 8 + 0xD))] ∧
    lineOps (.readComplete a base len) =
      some [.poll,
        .writeCmd (BitVec.ofNat 32 (base * 2 ^ 24 + len * 2 ^ 16 + a * 2 ^ 8 + 0xF))]) ∧
  (∀ (ops : List HostOp) (s : State),
    hostTurn (.poll :: ops) s = (if busy s then .poll :: ops else ops, { s with hostData := statusWord s })) ∧
  (∀ (rate w : Word) (ops : List HostOp) (s : State),
    hostTurn (.writeArg rate :: ops) s = (ops, { s with arg := rate }) ∧
    ∀ t, hostWrite offCmd w s = .next t → hostTurn (.writeCmd w :: ops) s = (ops, t)) ∧
  ∀ (ls : List AsmLine) (ops left : List HostOp) (turns : List Turn) (s t : State), programOps ls = some ops →
    (∀ e, Turn.agent e ∈ turns → isHostAccess e = false) → runHost turns ops s = (left, t) →
    s.cmdErr = false → t.cmdErr = true → t.errCode ≠ .overrun ∧ t.errCode ≠ .dmemBusy

/-- R95, R96, R62: the DMEM directive refuses a base or a byte outside 0 … 255, and bytes that run past 0xFF (log entry 16). Any other
polls until BUSY is 0, and then, the other agents' turns anywhere among the host's, stores the bytes it names at `base`, `base + 1`, …,
keeps every written byte it does not name, and changes nothing of the block but DMEM; the peripheral may meanwhile complete a
pending action. -/
def Obligations.DmemDirectiveStores : Prop :=
  (∀ (base : Nat) (bytes : List Nat),
    256 ≤ base ∨ (∃ b ∈ bytes, 256 ≤ b) ∨ 256 < base + bytes.length → lineOps (.dmem base bytes) = none) ∧
  ∀ (base : Nat) (bytes : List Nat), base < 256 → (∀ b ∈ bytes, b < 256) → base + bytes.length ≤ 256 →
    ∃ ops, lineOps (.dmem base bytes) = some (.poll :: ops) ∧
      (∀ s : State, busy s = true →
        hostTurn (.poll :: ops) s = (.poll :: ops, { s with hostData := statusWord s })) ∧
      (∀ s : State, busy s = false →
        (runHost (List.replicate (ops.length + 1) .host) (.poll :: ops) s).1 = []) ∧
      ∀ (turns : List Turn) (s t : State), busy s = false →
        (∀ e, Turn.agent e ∈ turns → e = .sequencer ∨ isPeripheral e = true) →
        runHost turns (.poll :: ops) s = ([], t) →
        t = { s with dmem := t.dmem, hostData := t.hostData, draws := t.draws, pend := t.pend, shiftBuf := t.shiftBuf } ∧
        (t.pend = s.pend ∧ t.shiftBuf = s.shiftBuf ∨ ∃ e, Turn.agent e ∈ turns ∧ isPeripheral e = true) ∧
        (∀ j, (h : j < bytes.length) → t.dmem.read (base + j) = some (BitVec.ofNat 8 bytes[j])) ∧
        ∀ a v, a < base ∨ base + bytes.length ≤ a → s.dmem.read a = some v → t.dmem.read a = some v
end

