-- ==== Sys2Proof/Laws/State.lean ====
section
/-! SUPPORT. One lemma per field for each update of the state that the shared operations make, so that no later proof unfolds a
record update. -/

namespace Sys2Proof.Machine

open Sys2Proof

variable (s : State)

/-! ### memWrite -/

@[simp] theorem memWrite_arg (a v : Byte) : (memWrite a v s).arg = s.arg := rfl

@[simp] theorem memWrite_initDone (a v : Byte) : (memWrite a v s).initDone = s.initDone := rfl

@[simp] theorem memWrite_cmdErr (a v : Byte) : (memWrite a v s).cmdErr = s.cmdErr := rfl

@[simp] theorem memWrite_errCode (a v : Byte) : (memWrite a v s).errCode = s.errCode := rfl

@[simp] theorem memWrite_rdata (a v : Byte) : (memWrite a v s).rdata = s.rdata := rfl

@[simp] theorem memWrite_dmem (a v : Byte) : (memWrite a v s).dmem = s.dmem.write a.toNat v := rfl

@[simp] theorem memWrite_uops (a v : Byte) : (memWrite a v s).uops = s.uops := rfl

@[simp] theorem memWrite_t (a v : Byte) : (memWrite a v s).t = s.t := rfl

@[simp] theorem memWrite_pol (a v : Byte) : (memWrite a v s).pol = s.pol := rfl

@[simp] theorem memWrite_div (a v : Byte) : (memWrite a v s).div = s.div := rfl

@[simp] theorem memWrite_master (a v : Byte) : (memWrite a v s).master = s.master := rfl

@[simp] theorem memWrite_dirScl (a v : Byte) : (memWrite a v s).dirScl = s.dirScl := rfl

@[simp] theorem memWrite_dirSda (a v : Byte) : (memWrite a v s).dirSda = s.dirSda := rfl

@[simp] theorem memWrite_ackdt (a v : Byte) : (memWrite a v s).ackdt = s.ackdt := rfl

@[simp] theorem memWrite_shiftBuf (a v : Byte) : (memWrite a v s).shiftBuf = s.shiftBuf := rfl

@[simp] theorem memWrite_pend (a v : Byte) : (memWrite a v s).pend = s.pend := rfl

@[simp] theorem memWrite_framing (a v : Byte) : (memWrite a v s).framing = s.framing := rfl

@[simp] theorem memWrite_faults (a v : Byte) : (memWrite a v s).faults = s.faults := rfl

@[simp] theorem memWrite_trace (a v : Byte) : (memWrite a v s).trace = s.trace := rfl

@[simp] theorem memWrite_hostData (a v : Byte) : (memWrite a v s).hostData = s.hostData := rfl

@[simp] theorem memWrite_inbox (a v : Byte) : (memWrite a v s).inbox = s.inbox := rfl

@[simp] theorem memWrite_draws (a v : Byte) : (memWrite a v s).draws = s.draws := rfl

/-! ### raiseIf -/

@[simp] theorem raiseIf_arg (b : Bool) (k : FaultKind) : (raiseIf b k s).arg = s.arg := rfl

@[simp] theorem raiseIf_initDone (b : Bool) (k : FaultKind) : (raiseIf b k s).initDone = s.initDone := rfl

@[simp] theorem raiseIf_cmdErr (b : Bool) (k : FaultKind) : (raiseIf b k s).cmdErr = s.cmdErr := rfl

@[simp] theorem raiseIf_errCode (b : Bool) (k : FaultKind) : (raiseIf b k s).errCode = s.errCode := rfl

@[simp] theorem raiseIf_rdata (b : Bool) (k : FaultKind) : (raiseIf b k s).rdata = s.rdata := rfl

@[simp] theorem raiseIf_dmem (b : Bool) (k : FaultKind) : (raiseIf b k s).dmem = s.dmem := rfl

@[simp] theorem raiseIf_uops (b : Bool) (k : FaultKind) : (raiseIf b k s).uops = s.uops := rfl

@[simp] theorem raiseIf_t (b : Bool) (k : FaultKind) : (raiseIf b k s).t = s.t := rfl

@[simp] theorem raiseIf_pol (b : Bool) (k : FaultKind) : (raiseIf b k s).pol = s.pol := rfl

@[simp] theorem raiseIf_div (b : Bool) (k : FaultKind) : (raiseIf b k s).div = s.div := rfl

@[simp] theorem raiseIf_master (b : Bool) (k : FaultKind) : (raiseIf b k s).master = s.master := rfl

@[simp] theorem raiseIf_dirScl (b : Bool) (k : FaultKind) : (raiseIf b k s).dirScl = s.dirScl := rfl

@[simp] theorem raiseIf_dirSda (b : Bool) (k : FaultKind) : (raiseIf b k s).dirSda = s.dirSda := rfl

@[simp] theorem raiseIf_ackdt (b : Bool) (k : FaultKind) : (raiseIf b k s).ackdt = s.ackdt := rfl

@[simp] theorem raiseIf_shiftBuf (b : Bool) (k : FaultKind) : (raiseIf b k s).shiftBuf = s.shiftBuf := rfl

@[simp] theorem raiseIf_pend (b : Bool) (k : FaultKind) : (raiseIf b k s).pend = s.pend := rfl

@[simp] theorem raiseIf_framing (b : Bool) (k : FaultKind) : (raiseIf b k s).framing = s.framing := rfl

@[simp] theorem raiseIf_faults (b : Bool) (k : FaultKind) : (raiseIf b k s).faults = if b then addFault k s.faults else s.faults := rfl

@[simp] theorem raiseIf_trace (b : Bool) (k : FaultKind) : (raiseIf b k s).trace = s.trace := rfl

@[simp] theorem raiseIf_hostData (b : Bool) (k : FaultKind) : (raiseIf b k s).hostData = s.hostData := rfl

@[simp] theorem raiseIf_inbox (b : Bool) (k : FaultKind) : (raiseIf b k s).inbox = s.inbox := rfl

@[simp] theorem raiseIf_draws (b : Bool) (k : FaultKind) : (raiseIf b k s).draws = s.draws := rfl

/-! ### clearError -/

@[simp] theorem clearError_arg : (clearError s).arg = s.arg := rfl

@[simp] theorem clearError_initDone : (clearError s).initDone = s.initDone := rfl

@[simp] theorem clearError_cmdErr : (clearError s).cmdErr = false := rfl

@[simp] theorem clearError_errCode : (clearError s).errCode = .none := rfl

@[simp] theorem clearError_rdata : (clearError s).rdata = s.rdata := rfl

@[simp] theorem clearError_dmem : (clearError s).dmem = s.dmem := rfl

@[simp] theorem clearError_uops : (clearError s).uops = s.uops := rfl

@[simp] theorem clearError_t : (clearError s).t = s.t := rfl

@[simp] theorem clearError_pol : (clearError s).pol = s.pol := rfl

@[simp] theorem clearError_div : (clearError s).div = s.div := rfl

@[simp] theorem clearError_master : (clearError s).master = s.master := rfl

@[simp] theorem clearError_dirScl : (clearError s).dirScl = s.dirScl := rfl

@[simp] theorem clearError_dirSda : (clearError s).dirSda = s.dirSda := rfl

@[simp] theorem clearError_ackdt : (clearError s).ackdt = s.ackdt := rfl

@[simp] theorem clearError_shiftBuf : (clearError s).shiftBuf = s.shiftBuf := rfl

@[simp] theorem clearError_pend : (clearError s).pend = s.pend := rfl

@[simp] theorem clearError_framing : (clearError s).framing = s.framing := rfl

@[simp] theorem clearError_faults : (clearError s).faults = s.faults := rfl

@[simp] theorem clearError_trace : (clearError s).trace = s.trace := rfl

@[simp] theorem clearError_hostData : (clearError s).hostData = s.hostData := rfl

@[simp] theorem clearError_inbox : (clearError s).inbox = s.inbox := rfl

@[simp] theorem clearError_draws : (clearError s).draws = s.draws := rfl

/-! ### pushEvent -/

@[simp] theorem pushEvent_arg (e : Event) : (pushEvent e s).arg = s.arg := rfl

@[simp] theorem pushEvent_initDone (e : Event) : (pushEvent e s).initDone = s.initDone := rfl

@[simp] theorem pushEvent_cmdErr (e : Event) : (pushEvent e s).cmdErr = s.cmdErr := rfl

@[simp] theorem pushEvent_errCode (e : Event) : (pushEvent e s).errCode = s.errCode := rfl

@[simp] theorem pushEvent_rdata (e : Event) : (pushEvent e s).rdata = s.rdata := rfl

@[simp] theorem pushEvent_dmem (e : Event) : (pushEvent e s).dmem = s.dmem := rfl

@[simp] theorem pushEvent_uops (e : Event) : (pushEvent e s).uops = s.uops := rfl

@[simp] theorem pushEvent_t (e : Event) : (pushEvent e s).t = s.t := rfl

@[simp] theorem pushEvent_pol (e : Event) : (pushEvent e s).pol = s.pol := rfl

@[simp] theorem pushEvent_div (e : Event) : (pushEvent e s).div = s.div := rfl

@[simp] theorem pushEvent_master (e : Event) : (pushEvent e s).master = s.master := rfl

@[simp] theorem pushEvent_dirScl (e : Event) : (pushEvent e s).dirScl = s.dirScl := rfl

@[simp] theorem pushEvent_dirSda (e : Event) : (pushEvent e s).dirSda = s.dirSda := rfl

@[simp] theorem pushEvent_ackdt (e : Event) : (pushEvent e s).ackdt = s.ackdt := rfl

@[simp] theorem pushEvent_shiftBuf (e : Event) : (pushEvent e s).shiftBuf = s.shiftBuf := rfl

@[simp] theorem pushEvent_pend (e : Event) : (pushEvent e s).pend = s.pend := rfl

@[simp] theorem pushEvent_framing (e : Event) : (pushEvent e s).framing = s.framing := rfl

@[simp] theorem pushEvent_faults (e : Event) : (pushEvent e s).faults = s.faults := rfl

@[simp] theorem pushEvent_trace (e : Event) : (pushEvent e s).trace = s.trace := rfl

@[simp] theorem pushEvent_hostData (e : Event) : (pushEvent e s).hostData = s.hostData := rfl

@[simp] theorem pushEvent_inbox (e : Event) : (pushEvent e s).inbox = e :: s.inbox := rfl

@[simp] theorem pushEvent_draws (e : Event) : (pushEvent e s).draws = s.draws := rfl

/-! ### issue -/

@[simp] theorem issue_arg (e : PortAction) : (issue e s).arg = s.arg := by cases e with
  | setDir l d => cases l <;> rfl
  | _ => rfl

@[simp] theorem issue_initDone (e : PortAction) : (issue e s).initDone = s.initDone := by cases e with
  | setDir l d => cases l <;> rfl
  | _ => rfl

@[simp] theorem issue_cmdErr (e : PortAction) : (issue e s).cmdErr = s.cmdErr := by cases e with
  | setDir l d => cases l <;> rfl
  | _ => rfl

@[simp] theorem issue_errCode (e : PortAction) : (issue e s).errCode = s.errCode := by cases e with
  | setDir l d => cases l <;> rfl
  | _ => rfl

@[simp] theorem issue_rdata (e : PortAction) : (issue e s).rdata = s.rdata := by cases e with
  | setDir l d => cases l <;> rfl
  | _ => rfl

@[simp] theorem issue_dmem (e : PortAction) : (issue e s).dmem = s.dmem := by cases e with
  | setDir l d => cases l <;> rfl
  | _ => rfl

@[simp] theorem issue_uops (e : PortAction) : (issue e s).uops = s.uops := by cases e with
  | setDir l d => cases l <;> rfl
  | _ => rfl

@[simp] theorem issue_t (e : PortAction) : (issue e s).t = s.t := by cases e with
  | setDir l d => cases l <;> rfl
  | _ => rfl

@[simp] theorem issue_pol (e : PortAction) : (issue e s).pol = s.pol := by cases e with
  | setDir l d => cases l <;> rfl
  | _ => rfl

@[simp] theorem issue_framing (e : PortAction) : (issue e s).framing = s.framing := by cases e with
  | setDir l d => cases l <;> rfl
  | _ => rfl

@[simp] theorem issue_faults (e : PortAction) : (issue e s).faults = s.faults := by cases e with
  | setDir l d => cases l <;> rfl
  | _ => rfl

@[simp] theorem issue_trace (e : PortAction) : (issue e s).trace = s.trace ++ [e] := by cases e with
  | setDir l d => cases l <;> rfl
  | _ => rfl

@[simp] theorem issue_hostData (e : PortAction) : (issue e s).hostData = s.hostData := by cases e with
  | setDir l d => cases l <;> rfl
  | _ => rfl

@[simp] theorem issue_inbox (e : PortAction) : (issue e s).inbox = s.inbox := by cases e with
  | setDir l d => cases l <;> rfl
  | _ => rfl

@[simp] theorem issue_draws (e : PortAction) : (issue e s).draws = s.draws := by cases e with
  | setDir l d => cases l <;> rfl
  | _ => rfl

/-! ### reject -/

@[simp] theorem reject_arg (c : ErrCode) : (reject c s).arg = s.arg := by
  unfold reject; split <;> simp_all

@[simp] theorem reject_initDone (c : ErrCode) : (reject c s).initDone = s.initDone := by
  unfold reject; split <;> simp_all

@[simp] theorem reject_cmdErr (c : ErrCode) : (reject c s).cmdErr = true := by
  unfold reject; split <;> simp_all

@[simp] theorem reject_rdata (c : ErrCode) : (reject c s).rdata = s.rdata := by
  unfold reject; split <;> simp_all

@[simp] theorem reject_dmem (c : ErrCode) : (reject c s).dmem = s.dmem := by
  unfold reject; split <;> simp_all

@[simp] theorem reject_uops (c : ErrCode) : (reject c s).uops = s.uops := by
  unfold reject; split <;> simp_all

@[simp] theorem reject_t (c : ErrCode) : (reject c s).t = s.t := by
  unfold reject; split <;> simp_all

@[simp] theorem reject_pol (c : ErrCode) : (reject c s).pol = s.pol := by
  unfold reject; split <;> simp_all

@[simp] theorem reject_div (c : ErrCode) : (reject c s).div = s.div := by
  unfold reject; split <;> simp_all

@[simp] theorem reject_master (c : ErrCode) : (reject c s).master = s.master := by
  unfold reject; split <;> simp_all

@[simp] theorem reject_dirScl (c : ErrCode) : (reject c s).dirScl = s.dirScl := by
  unfold reject; split <;> simp_all

@[simp] theorem reject_dirSda (c : ErrCode) : (reject c s).dirSda = s.dirSda := by
  unfold reject; split <;> simp_all

@[simp] theorem reject_ackdt (c : ErrCode) : (reject c s).ackdt = s.ackdt := by
  unfold reject; split <;> simp_all

@[simp] theorem reject_shiftBuf (c : ErrCode) : (reject c s).shiftBuf = s.shiftBuf := by
  unfold reject; split <;> simp_all

@[simp] theorem reject_pend (c : ErrCode) : (reject c s).pend = s.pend := by
  unfold reject; split <;> simp_all

@[simp] theorem reject_framing (c : ErrCode) : (reject c s).framing = s.framing := by
  unfold reject; split <;> simp_all

@[simp] theorem reject_faults (c : ErrCode) : (reject c s).faults = s.faults := by
  unfold reject; split <;> simp_all

@[simp] theorem reject_trace (c : ErrCode) : (reject c s).trace = s.trace := by
  unfold reject; split <;> simp_all

@[simp] theorem reject_hostData (c : ErrCode) : (reject c s).hostData = s.hostData := by
  unfold reject; split <;> simp_all

@[simp] theorem reject_inbox (c : ErrCode) : (reject c s).inbox = s.inbox := by
  unfold reject; split <;> simp_all

@[simp] theorem reject_draws (c : ErrCode) : (reject c s).draws = s.draws := by
  unfold reject; split <;> simp_all

/-! ### issue, action by action (R105) -/

theorem issue_setModeMaster : issue .setModeMaster s = { s with master := true, trace := s.trace ++ [.setModeMaster] } := rfl

theorem issue_setDiv (d : BitVec Config.divW) : issue (.setDiv d) s = { s with div := d, trace := s.trace ++ [.setDiv d] } := rfl

theorem issue_setDirScl (x : LineDir) :
    issue (.setDir .scl x) s = { s with dirScl := x, trace := s.trace ++ [.setDir .scl x] } := rfl

theorem issue_setDirSda (x : LineDir) :
    issue (.setDir .sda x) s = { s with dirSda := x, trace := s.trace ++ [.setDir .sda x] } := rfl

theorem issue_auxReset : issue .auxReset s = { s with ackdt := false, trace := s.trace ++ [.auxReset] } := rfl

theorem issue_start : issue .start s = { s with pend := some .start, trace := s.trace ++ [.start] } := rfl

theorem issue_restart : issue .restart s = { s with pend := some .restart, trace := s.trace ++ [.restart] } := rfl

theorem issue_stop : issue .stop s = { s with pend := some .stop, trace := s.trace ++ [.stop] } := rfl

theorem issue_load (b : Byte) :
    issue (.load b) s = { s with shiftBuf := b, pend := some .xmit, trace := s.trace ++ [.load b] } := rfl

theorem issue_rcvEnable : issue .rcvEnable s = { s with pend := some .rcv, trace := s.trace ++ [.rcvEnable] } := rfl

theorem issue_ack (k : Bool) :
    issue (.ack k) s = { s with ackdt := k, pend := some .ack, trace := s.trace ++ [.ack k] } := rfl

end Sys2Proof.Machine
end

