-- ==== Sys2Proof/Laws/Memory.lean ====
section
/-! SUPPORT. DMEM as data: what a read after a write gives, and that every operation keeps the canonical form (R64, R76). -/

namespace Sys2Proof.Machine

open Sys2Proof

theorem Memory.read_write (m : Memory) (a b : Nat) (v : Byte) :
    (m.write a v).read b = if b = a then some v else m.read b := by
  induction m with
  | nil => simp [Memory.write, Memory.read]
  | cons c m ih =>
    obtain ⟨d, w⟩ := c
    simp only [Memory.write]
    split
    · simp [Memory.read]
    · split
      · subst_vars
        simp only [Memory.read]
        split <;> rfl
      · simp only [Memory.read, ih]
        split
        · split
          · omega
          · rfl
        · rfl

@[simp] theorem Memory.read_write_same (m : Memory) (a : Nat) (v : Byte) : (m.write a v).read a = some v := by
  simp [Memory.read_write]

theorem Memory.read_write_other (m : Memory) {a b : Nat} (v : Byte) (h : b ≠ a) :
    (m.write a v).read b = m.read b := by
  simp [Memory.read_write, h]

theorem Memory.wfFrom_mono {lo lo' : Nat} {m : Memory} (h : lo' ≤ lo) (hm : Memory.wfFrom lo m = true) :
    Memory.wfFrom lo' m = true := by
  cases m with
  | nil => rfl
  | cons c m =>
    obtain ⟨d, w⟩ := c
    simp only [Memory.wfFrom, Bool.and_eq_true, decide_eq_true_eq] at hm ⊢
    exact ⟨⟨Nat.le_trans h hm.1.1, hm.1.2⟩, hm.2⟩

theorem Memory.wfFrom_write {lo : Nat} {m : Memory} {a : Nat} (v : Byte) (hm : Memory.wfFrom lo m = true)
    (hlo : lo ≤ a) (ha : a < 256) : Memory.wfFrom lo (m.write a v) = true := by
  induction m generalizing lo with
  | nil => simp [Memory.write, Memory.wfFrom, hlo, ha]
  | cons c m ih =>
    obtain ⟨d, w⟩ := c
    simp only [Memory.wfFrom, Bool.and_eq_true, decide_eq_true_eq] at hm
    simp only [Memory.write]
    split
    · simp only [Memory.wfFrom, Bool.and_eq_true, decide_eq_true_eq]
      exact ⟨⟨hlo, ha⟩, ⟨by omega, hm.1.2⟩, hm.2⟩
    · split
      · subst_vars
        simp only [Memory.wfFrom, Bool.and_eq_true, decide_eq_true_eq]
        exact ⟨⟨hlo, ha⟩, hm.2⟩
      · simp only [Memory.wfFrom, Bool.and_eq_true, decide_eq_true_eq]
        exact ⟨hm.1, ih hm.2 (by omega)⟩

/-- A stored byte keeps the canonical form. -/
theorem Memory.wf_write {m : Memory} {a : Nat} (v : Byte) (hm : m.wf = true) (ha : a < 256) :
    (m.write a v).wf = true :=
  Memory.wfFrom_write v hm (Nat.zero_le a) ha

theorem memWrite_wf {s : State} (a v : Byte) (h : s.dmem.wf = true) : (memWrite a v s).dmem.wf = true :=
  Memory.wf_write v h a.isLt

theorem writeDmemWord_wf {s : State} (k : BitVec 6) (w : Word) (h : s.dmem.wf = true) :
    (writeDmemWord k w s).dmem.wf = true := by
  simp only [writeDmemWord]
  exact memWrite_wf _ _ (memWrite_wf _ _ (memWrite_wf _ _ (memWrite_wf _ _ h)))

theorem reset_dmem_wf : State.reset.dmem.wf = true := rfl

theorem Memory.read_below {m : Memory} {lo a : Nat} (hm : Memory.wfFrom lo m = true) (h : a < lo) :
    m.read a = none := by
  induction m generalizing lo with
  | nil => rfl
  | cons c m ih =>
    obtain ⟨d, w⟩ := c
    simp only [Memory.wfFrom, Bool.and_eq_true, decide_eq_true_eq] at hm
    simp only [Memory.read]
    rw [if_neg (by omega)]
    exact ih hm.2 (by omega)

/-- Memories in canonical form that read alike are the same data. -/
theorem Memory.ext_of_wf {m n : Memory} (hm : m.wf = true) (hn : n.wf = true)
    (h : ∀ a, m.read a = n.read a) : m = n := by
  have key : ∀ {lo lo' : Nat} {m n : Memory}, Memory.wfFrom lo m = true → Memory.wfFrom lo' n = true →
      (∀ a, m.read a = n.read a) → m = n := by
    intro lo lo' m
    induction m generalizing lo lo' with
    | nil =>
      intro n _ hn h
      cases n with
      | nil => rfl
      | cons c n => have := h c.1; simp [Memory.read, Memory.unlisted] at this
    | cons c m ih =>
      obtain ⟨d, w⟩ := c
      intro n hm hn h
      cases n with
      | nil => have := h d; simp [Memory.read, Memory.unlisted] at this
      | cons c' n =>
        obtain ⟨d', w'⟩ := c'
        simp only [Memory.wfFrom, Bool.and_eq_true, decide_eq_true_eq] at hm hn
        have hd : d = d' := by
          rcases Nat.lt_trichotomy d d' with hlt | heq | hlt
          · have := h d
            simp only [Memory.read, if_pos, if_neg (Nat.ne_of_lt hlt)] at this
            rw [Memory.read_below hn.2 (by omega)] at this
            cases this
          · exact heq
          · have := h d'
            simp only [Memory.read, if_pos, if_neg (Nat.ne_of_lt hlt)] at this
            rw [Memory.read_below hm.2 (by omega)] at this
            cases this
        subst hd
        have hw : w = w' := by
          have := h d
          simpa [Memory.read] using this
        subst hw
        have := ih hm.2 hn.2 (fun a => by
          by_cases ha : a = d
          · rw [ha, Memory.read_below hm.2 (by omega), Memory.read_below hn.2 (by omega)]
          · have := h a
            simpa [Memory.read, ha] using this)
        rw [this]
  exact key hm hn h

end Sys2Proof.Machine
end

