-- ==== Sys2Proof/Laws/Ops.lean ====
section
/-! SUPPORT. One spec lemma for each shared operation: everything it can do, cited instead of unfolding it. -/

namespace Sys2Proof.Machine

open Sys2Proof

/-! ### Flags -/

@[simp] theorem periphIdle_eq (s : State) : periphIdle s = decide (s.pend = none) := by
  simp only [periphIdle, condPending, xferActive]
  rcases s.pend with _ | p
  · rfl
  · cases p <;> rfl

theorem busy_eq_false {s : State} : busy s = false ↔ s.uops = [] := by
  simp [busy]

theorem busy_eq_true {s : State} : busy s = true ↔ s.uops ≠ [] := by
  simp [busy]

/-! ### Draws and DMEM reads -/

theorem peekByte_frame (a : Byte) (s : State) :
    (peekByte a s).2 = { s with draws := (peekByte a s).2.draws } := rfl

theorem peekByte_draws (a : Byte) (s : State) : ∃ n, (peekByte a s).2.draws = s.draws + n := by
  simp only [peekByte]
  split
  · exact ⟨0, rfl⟩
  · exact ⟨1, rfl⟩

theorem peekByte_written {a v : Byte} {s : State} (h : s.dmem.read a.toNat = some v) :
    peekByte a s = (v, s) := by
  simp [peekByte, written, h]

theorem readDmemWord_frame (k : BitVec 6) (s : State) :
    ∃ n, (readDmemWord k s).2 = { s with draws := s.draws + n } := by
  obtain ⟨n0, h0⟩ := peekByte_draws (dmemAddr k 0) s
  obtain ⟨n1, h1⟩ := peekByte_draws (dmemAddr k 1) (peekByte (dmemAddr k 0) s).2
  obtain ⟨n2, h2⟩ := peekByte_draws (dmemAddr k 2) (peekByte (dmemAddr k 1) (peekByte (dmemAddr k 0) s).2).2
  obtain ⟨n3, h3⟩ := peekByte_draws (dmemAddr k 3)
    (peekByte (dmemAddr k 2) (peekByte (dmemAddr k 1) (peekByte (dmemAddr k 0) s).2).2).2
  refine ⟨n0 + n1 + n2 + n3, ?_⟩
  have : (readDmemWord k s).2 = { s with draws := (readDmemWord k s).2.draws } := rfl
  rw [this]
  simp only [readDmemWord]
  rw [h3, h2, h1, h0]
  simp only [Nat.add_assoc]

/-- A command's read: the byte, and the state with the fault and the draw of an unwritten byte (R75). -/
theorem memRead_eq (a : Byte) (s : State) :
    memRead a s =
      ((s.dmem.read a.toNat).getD (Config.unwrittenByte s.draws),
        { s with
          draws := if written s a then s.draws else s.draws + 1,
          faults := if !written s a then addFault .uninitBufferRead s.faults else s.faults }) := rfl

/-! ### Acceptance -/

theorem reject_cases (c : ErrCode) (s : State) :
    (s.cmdErr = true ∧ reject c s = s) ∨
      (s.cmdErr = false ∧ reject c s = { s with cmdErr := true, errCode := c }) := by
  unfold reject
  cases h : s.cmdErr <;> simp

theorem exec_eq (i : Instr) (s : State) :
    exec i s =
      .next (if i = .init then acceptInit (expand i s.arg) s else acceptCommand (expand i s.arg) s) := by
  cases i <;> rfl

/-- What a command write can do: reject by name, or accept (R101). -/
theorem exec_cases {i : Instr} {s t : State} (h : exec i s = .next t) :
    (∃ c, t = reject c s) ∨ (acceptable i s = true ∧ t = accepted i s) := by
  rw [exec_eq] at h
  simp only [Host.Outcome.next.injEq] at h
  subst h
  by_cases hi : i = .init
  · rw [if_pos hi]
    unfold acceptInit
    split
    · exact .inl ⟨_, rfl⟩
    · split
      · exact .inl ⟨_, rfl⟩
      · split
        · exact .inl ⟨_, rfl⟩
        · rename_i hb hd ha
          exact .inr ⟨by simp [acceptable, hi, hb, hd]; exact ha, rfl⟩
  · rw [if_neg hi]
    unfold acceptCommand
    split
    · exact .inl ⟨_, rfl⟩
    · split
      · exact .inl ⟨_, rfl⟩
      · rename_i hb hd
        have hd : s.initDone = true := by simpa using hd
        exact .inr ⟨by simp [acceptable, hi, hb, hd], by simp [accepted, ← hd]⟩

/-! ### The sequencer -/

theorem requireOpen_eq (s : State) :
    requireOpen s =
      { s with
        faults := if decide (s.framing = .busFree) then addFault .misuseNoTransaction s.faults else s.faults } := rfl

theorem requireFree_eq (s : State) :
    requireFree s =
      { s with
        faults := if decide (s.framing = .busOpen) then addFault .misuseNestedStart s.faults else s.faults } := rfl

/-! Each µop as one update of the state (R106–R114). -/

theorem runUop_waitIdle (s : State) : runUop .waitIdle s = s := rfl

theorem runUop_condStart (s : State) :
    runUop (.cond .start) s =
      { s with
        faults := if decide (s.framing = .busOpen) then addFault .misuseNestedStart s.faults else s.faults,
        framing := .busOpen, pend := some .start, trace := s.trace ++ [.start] } := by
  simp only [runUop, uopCond, requireFree_eq, issue_start]

theorem runUop_condRestart (s : State) :
    runUop (.cond .restart) s =
      { s with
        faults := if decide (s.framing = .busFree) then addFault .misuseNoTransaction s.faults else s.faults,
        framing := .busOpen, pend := some .restart, trace := s.trace ++ [.restart] } := by
  simp only [runUop, uopCond, requireOpen_eq, issue_restart]

theorem runUop_condStop (s : State) :
    runUop (.cond .stop) s =
      { s with
        faults := if decide (s.framing = .busFree) then addFault .misuseNoTransaction s.faults else s.faults,
        framing := .busFree, pend := some .stop, trace := s.trace ++ [.stop] } := by
  simp only [runUop, uopCond, requireOpen_eq, issue_stop]

theorem runUop_loadLit (b : Byte) (s : State) :
    runUop (.loadLit b) s =
      { s with
        faults := if decide (s.framing = .busFree) then addFault .misuseNoTransaction s.faults else s.faults,
        shiftBuf := b, pend := some .xmit, trace := s.trace ++ [.load b] } := by
  simp only [runUop, uopLoadLit, requireOpen_eq, issue_load]

/-- The faults a command's read of a DMEM byte leaves (R75). -/
def readFaults (x : Byte) (s : State) : FaultSet :=
  if !written s x then addFault .uninitBufferRead s.faults else s.faults

theorem runUop_loadMem (x : Byte) (s : State) :
    runUop (.loadMem x) s =
      { s with
        draws := if written s x then s.draws else s.draws + 1,
        faults := if decide (s.framing = .busFree) then addFault .misuseNoTransaction (readFaults x s) else readFaults x s,
        shiftBuf := (s.dmem.read x.toNat).getD (Config.unwrittenByte s.draws), pend := some .xmit,
        trace := s.trace ++ [.load ((s.dmem.read x.toNat).getD (Config.unwrittenByte s.draws))] } := by
  simp only [runUop, uopLoadMem, memRead_eq, requireOpen_eq, issue_load, readFaults]

theorem runUop_rcvEn (s : State) :
    runUop .rcvEn s =
      { s with
        faults := if decide (s.framing = .busFree) then addFault .misuseNoTransaction s.faults else s.faults,
        pend := some .rcv, trace := s.trace ++ [.rcvEnable] } := by
  simp only [runUop, uopRcvEn, requireOpen_eq, issue_rcvEnable]

theorem runUop_capture (s : State) :
    runUop .capture s = { s with t := s.shiftBuf, rdata := signedByte s.shiftBuf } := rfl

theorem runUop_ackLit (k : Bool) (s : State) :
    runUop (.ackLit k) s =
      { s with
        faults := if decide (s.framing = .busFree) then addFault .misuseNoTransaction s.faults else s.faults,
        ackdt := k, pend := some .ack, trace := s.trace ++ [.ack k] } := by
  simp only [runUop, uopAckLit, requireOpen_eq, issue_ack]

theorem runUop_ackPol (s : State) :
    runUop .ackPol s =
      { s with
        faults := if decide (s.framing = .busFree) then addFault .misuseNoTransaction s.faults else s.faults,
        ackdt := s.pol, pend := some .ack, trace := s.trace ++ [.ack s.pol] } := by
  simp only [runUop, uopAckPol, requireOpen_eq, issue_ack]

theorem runUop_polMem (x : Byte) (s : State) :
    runUop (.polMem x) s =
      { s with
        draws := if written s x then s.draws else s.draws + 1, faults := readFaults x s,
        pol := ackBit ((s.dmem.read x.toNat).getD (Config.unwrittenByte s.draws)) } := by
  simp only [runUop, uopPolMem, memRead_eq, readFaults]

theorem runUop_storeMem (x : Byte) (s : State) :
    runUop (.storeMem x) s = { s with dmem := s.dmem.write x.toNat s.t } := rfl

theorem runUop_configure (d : BitVec Config.divW) (s : State) :
    runUop (.configure d) s =
      { s with
        master := true, div := d, dirScl := .input, dirSda := .input, ackdt := false,
        trace := s.trace ++ [.setModeMaster, .setDiv d, .setDir .scl .input, .setDir .sda .input, .auxReset] } := by
  simp only [runUop, uopConfigure, issue_setModeMaster, issue_setDiv, issue_setDirScl, issue_setDirSda,
    issue_auxReset, List.append_assoc, List.cons_append, List.nil_append]

/-- What a µop leaves alone: the command list, ARG, the error latch, INIT_DONE, the host's word and the inbox. -/
theorem runUop_frame (u : Uop) (s : State) :
    (runUop u s).uops = s.uops ∧ (runUop u s).arg = s.arg ∧ (runUop u s).initDone = s.initDone ∧
      (runUop u s).cmdErr = s.cmdErr ∧ (runUop u s).errCode = s.errCode ∧
      (runUop u s).hostData = s.hostData ∧ (runUop u s).inbox = s.inbox := by
  cases u with
  | cond c =>
    cases c <;> simp only [runUop_condStart, runUop_condRestart, runUop_condStop, and_self]
  | _ =>
    simp only [runUop_waitIdle, runUop_loadLit, runUop_loadMem, runUop_rcvEn, runUop_capture, runUop_ackLit,
      runUop_ackPol, runUop_polMem, runUop_storeMem, runUop_configure, and_self]

/-- What a sequencer step can do: nothing, or the head µop (R103). -/
theorem sequencerStep_cases (s : State) :
    (sequencerEnabled s = false ∧ sequencerStep s = s) ∨
      ∃ u rest, s.uops = u :: rest ∧ (u = .waitIdle → s.pend = none) ∧
        sequencerStep s = { runUop u s with uops := rest } := by
  unfold sequencerStep sequencerEnabled
  rcases hu : s.uops with _ | ⟨u, rest⟩
  · simp
  · by_cases he : uopEnabled u s = true
    · right
      refine ⟨u, rest, rfl, ?_, by simp [he]⟩
      rintro rfl
      simpa [uopEnabled] using he
    · left
      simp [he]

/-- What a peripheral step does (R116). -/
theorem periphComplete_eq (b : Byte) (k : Bool) (s : State) :
    periphComplete b k s =
      { s with pend := none, shiftBuf := if s.pend = some .rcv then b else s.shiftBuf } := by
  unfold periphComplete
  rcases hp : s.pend with _ | p
  · cases s; simp_all
  · cases p <;> simp

/-! ### Events -/

/-- Every event answers a next state (R160). -/
theorem runEvent_next (e : Event) (s : State) : ∃ t, runEvent e s = .next t := by
  cases e with
  | hostWrite off w =>
    simp only [runEvent, hostWrite]
    cases hostReg off with
    | cmd =>
      simp only [hostWriteCmd]
      cases decode w with
      | ok i => exact ⟨_, exec_eq i s⟩
      | error c => exact ⟨_, rfl⟩
    | _ => exact ⟨_, rfl⟩
  | _ => exact ⟨_, rfl⟩

/-- What a host write can do: clear or set the error latch, write ARG or DMEM, accept a command, or nothing. -/
theorem hostWrite_cases {off : Offset} {w : Word} {s t : State} (h : hostWrite off w s = .next t) :
    t = s ∨ (∃ c, t = reject c s) ∨
      (∃ i, hostReg off = .cmd ∧ decode w = .ok i ∧ acceptable i s = true ∧ t = accepted i s) ∨
      (hostReg off = .arg ∧ t = { s with arg := w }) ∨
      (hostReg off = .status ∧ w.getLsbD 2 = true ∧ t = clearError s) ∨
      ∃ k, hostReg off = .dmem k ∧ busy s = false ∧ t = writeDmemWord k w s := by
  unfold hostWrite at h
  cases hr : hostReg off <;> rw [hr] at h <;> simp only [Host.Outcome.next.injEq] at h
  case cmd =>
    unfold hostWriteCmd at h
    cases hd : decode w with
    | ok i =>
      rw [hd] at h
      rcases exec_cases h with ⟨c, hc⟩ | ⟨ha, ht⟩
      · exact .inr (.inl ⟨c, hc⟩)
      · exact .inr (.inr (.inl ⟨i, rfl, rfl, ha, ht⟩))
    | error c =>
      rw [hd] at h
      simp only [Host.Outcome.next.injEq, acceptNone] at h
      refine .inr (.inl ?_)
      split at h
      · exact ⟨_, h.symm⟩
      · exact ⟨_, h.symm⟩
  case arg => exact .inr (.inr (.inr (.inl ⟨rfl, h.symm⟩)))
  case status =>
    unfold hostWriteStatus at h
    split at h
    · rename_i hb
      exact .inr (.inr (.inr (.inr (.inl ⟨rfl, hb, h.symm⟩))))
    · exact .inl h.symm
  case rdata => exact .inl h.symm
  case reserved => exact .inl h.symm
  case dmem k =>
    unfold hostWriteDmem at h
    cases hb : busy s <;> rw [hb] at h
    · exact .inr (.inr (.inr (.inr (.inr ⟨k, rfl, rfl, h.symm⟩))))
    · exact .inr (.inl ⟨_, h.symm⟩)

/-- A host read changes the host's word and the draw counter at most (R63). -/
theorem hostRead_frame (off : Offset) (s : State) :
    ∃ v n, hostRead off s = { s with hostData := v, draws := s.draws + n } := by
  unfold hostRead readReg
  cases hostReg off with
  | dmem k =>
    obtain ⟨n, hn⟩ := readDmemWord_frame k s
    exact ⟨(readDmemWord k s).1, n, by simp only [hn]⟩
  | _ => exact ⟨_, 0, rfl⟩

/-- A run of events can be cut anywhere. -/
theorem runEvents_append (es fs : List Event) (s : State) :
    runEvents (es ++ fs) s =
      match runEvents es s with
      | .next t => runEvents fs t
      | .fault r => .fault r
      | .refused r => .refused r := by
  induction es generalizing s with
  | nil => rfl
  | cons e es ih =>
    obtain ⟨t, ht⟩ := runEvent_next e s
    simp only [List.cons_append, runEvents, ht]
    exact ih t

/-- Every run of events answers a next state. -/
theorem runEvents_next (es : List Event) (s : State) : ∃ t, runEvents es s = .next t := by
  induction es generalizing s with
  | nil => exact ⟨s, rfl⟩
  | cons e es ih =>
    obtain ⟨t, ht⟩ := runEvent_next e s
    obtain ⟨u, hu⟩ := ih t
    exact ⟨u, by simp only [runEvents, ht]; exact hu⟩

/-! ### The inbox is only carried along (log entry 4) -/

theorem runUop_withInbox (u : Uop) (s : State) (q : List Event) :
    runUop u { s with inbox := q } = { runUop u s with inbox := q } := by
  cases u with
  | cond c => cases c <;> simp only [runUop_condStart, runUop_condRestart, runUop_condStop]
  | loadMem x => simp only [runUop_loadMem]; rfl
  | polMem x => simp only [runUop_polMem]; rfl
  | _ => simp only [runUop_waitIdle, runUop_loadLit, runUop_rcvEn, runUop_capture, runUop_ackLit,
      runUop_ackPol, runUop_storeMem, runUop_configure]

theorem reject_withInbox (c : ErrCode) (s : State) (q : List Event) :
    reject c { s with inbox := q } = { reject c s with inbox := q } := by
  simp only [reject]; split <;> rfl

theorem sequencerStep_nil {s : State} (h : s.uops = []) : sequencerStep s = s := by
  unfold sequencerStep; rw [h]

theorem sequencerStep_cons {s : State} {u : Uop} {rest : List Uop} (h : s.uops = u :: rest) :
    sequencerStep s = if uopEnabled u s then { runUop u s with uops := rest } else s := by
  unfold sequencerStep; rw [h]

/-- What an event does does not depend on the inbox, and it leaves the inbox alone. -/
theorem runEvent_withInbox (e : Event) (s t : State) (q : List Event) (h : runEvent e s = .next t) :
    runEvent e { s with inbox := q } = .next { t with inbox := q } := by
  cases e with
  | hostWrite off w =>
    simp only [runEvent, hostWrite] at h ⊢
    cases hr : hostReg off <;> rw [hr] at h <;> simp only at h ⊢
    case cmd =>
      simp only [hostWriteCmd] at h ⊢
      cases hd : decode w <;> rw [hd] at h <;> simp only at h ⊢
      · cases h
        simp only [acceptNone, Host.Outcome.next.injEq]
        have hb' : busy { s with inbox := q } = busy s := rfl
        by_cases hb : busy s = true
        · rw [if_pos (hb'.trans hb), if_pos hb]; exact reject_withInbox _ _ _
        · rw [if_neg (fun h => hb (hb'.symm.trans h)), if_neg hb]; exact reject_withInbox _ _ _
      · rename_i i
        rw [exec_eq] at h ⊢
        cases h
        simp only [Host.Outcome.next.injEq]
        have hb' : busy { s with inbox := q } = busy s := rfl
        by_cases hi : i = Instr.init
        · rw [if_pos hi, if_pos hi]
          unfold acceptInit
          by_cases hb : busy s = true
          · rw [if_pos (hb'.trans hb), if_pos hb]; exact reject_withInbox _ _ _
          · rw [if_neg (fun h => hb (hb'.symm.trans h)), if_neg hb]
            by_cases hd : s.initDone = true
            · rw [if_pos hd, if_pos hd]; exact reject_withInbox _ _ _
            · rw [if_neg hd, if_neg hd]
              by_cases ha : s.arg = 0
              · rw [if_pos ha, if_pos ha]; exact reject_withInbox _ _ _
              · rw [if_neg ha, if_neg ha]
        · rw [if_neg hi, if_neg hi]
          unfold acceptCommand
          by_cases hb : busy s = true
          · rw [if_pos (hb'.trans hb), if_pos hb]; exact reject_withInbox _ _ _
          · rw [if_neg (fun h => hb (hb'.symm.trans h)), if_neg hb]
            by_cases hd : (!s.initDone) = true
            · rw [if_pos hd, if_pos hd]; exact reject_withInbox _ _ _
            · rw [if_neg hd, if_neg hd]
    case dmem k =>
      cases h
      simp only [hostWriteDmem, Host.Outcome.next.injEq]
      have hb' : busy { s with inbox := q } = busy s := rfl
      by_cases hb : busy s = true
      · rw [if_pos (hb'.trans hb), if_pos hb]; exact reject_withInbox _ _ _
      · rw [if_neg (fun h => hb (hb'.symm.trans h)), if_neg hb]; rfl
    case status =>
      cases h
      simp only [hostWriteStatus, Host.Outcome.next.injEq]
      split <;> rfl
    all_goals (cases h; rfl)
  | hostRead off =>
    simp only [runEvent, Host.Outcome.next.injEq] at h ⊢
    subst h
    simp only [hostRead, readReg]
    cases hostReg off <;> rfl
  | sequencer =>
    simp only [runEvent, Host.Outcome.next.injEq] at h ⊢
    subst h
    have hcase : s.uops = [] ∨ ∃ u rest, s.uops = u :: rest := by cases s.uops <;> simp
    rcases hcase with hu | ⟨u, rest, hu⟩
    · rw [sequencerStep_nil hu, sequencerStep_nil (s := { s with inbox := q }) hu]
    · rw [sequencerStep_cons hu, sequencerStep_cons (s := { s with inbox := q }) hu, runUop_withInbox]
      have he : uopEnabled u { s with inbox := q } = uopEnabled u s := by cases u <;> rfl
      by_cases hb : uopEnabled u s = true
      · rw [if_pos (he.trans hb), if_pos hb]
      · rw [if_neg (fun h => hb (he.symm.trans h)), if_neg hb]
  | peripheral b k =>
    simp only [runEvent, Host.Outcome.next.injEq] at h ⊢
    subst h
    simp only [periphComplete_eq]
  | reset => cases h; rfl

/-! ### The bytes of a host word (R65) -/

/-- A host word is its four bytes, the least significant last. -/
theorem wordOfBytes_eq_append (b0 b1 b2 b3 : Byte) : wordOfBytes b0 b1 b2 b3 = b3 ++ b2 ++ b1 ++ b0 := by
  apply BitVec.eq_of_getLsbD_eq
  intro i hi
  simp only [wordOfBytes, BitVec.getLsbD_or, BitVec.getLsbD_shiftLeft, BitVec.getLsbD_setWidth, BitVec.getLsbD_append]
  interval_cases i <;> simp

theorem dmemAddr_toNat (k : BitVec 6) (j : BitVec 2) : (dmemAddr k j).toNat = 4 * k.toNat + j.toNat := by
  have := k.isLt
  have := j.isLt
  simp only [dmemAddr, BitVec.toNat_ofNat]
  omega

theorem hostReg_offDmem (k : BitVec 6) : hostReg (offDmem k) = .dmem k := by
  revert k; decide

theorem append_byte0 (a b c d : Byte) : (d ++ c ++ b ++ a).extractLsb' 0 8 = a := by
  apply BitVec.eq_of_getLsbD_eq; intro i hi
  simp only [BitVec.getLsbD_extractLsb', BitVec.getLsbD_append, hi, decide_true, Bool.true_and, Nat.zero_add, if_true]

theorem append_byte1 (a b c d : Byte) : (d ++ c ++ b ++ a).extractLsb' 8 8 = b := by
  apply BitVec.eq_of_getLsbD_eq; intro i hi
  have e1 : ¬ 8 + i < 8 := by omega
  have e2 : 8 + i - 8 = i := by omega
  simp only [BitVec.getLsbD_extractLsb', BitVec.getLsbD_append, hi, e1, e2, decide_true, Bool.true_and, if_true, if_false]

theorem append_byte2 (a b c d : Byte) : (d ++ c ++ b ++ a).extractLsb' 16 8 = c := by
  apply BitVec.eq_of_getLsbD_eq; intro i hi
  have e1 : ¬ 16 + i < 8 := by omega
  have e3 : ¬ 16 + i - 8 < 8 := by omega
  have e2 : 16 + i - 8 - 8 = i := by omega
  simp only [BitVec.getLsbD_extractLsb', BitVec.getLsbD_append, hi, e1, e2, e3, decide_true, Bool.true_and, if_true, if_false]

theorem append_byte3 (a b c d : Byte) : (d ++ c ++ b ++ a).extractLsb' 24 8 = d := by
  apply BitVec.eq_of_getLsbD_eq; intro i hi
  have e1 : ¬ 24 + i < 8 := by omega
  have e3 : ¬ 24 + i - 8 < 8 := by omega
  have e4 : ¬ 24 + i - 8 - 8 < 8 := by omega
  have e2 : 24 + i - 8 - 8 - 8 = i := by omega
  simp only [BitVec.getLsbD_extractLsb', BitVec.getLsbD_append, hi, e1, e2, e3, e4, decide_true, Bool.true_and, if_false]

/-- How many of the first `j` bytes of DMEM word `k` were never written: the draws a host read takes before byte `j` (R69). -/
def unwrittenBelow (k : BitVec 6) (s : State) (j : Nat) : Nat :=
  (List.range j).countP fun i => (s.dmem.read (4 * k.toNat + i)).isNone

theorem unwrittenBelow_succ (k : BitVec 6) (s : State) (j : Nat) :
    unwrittenBelow k s (j + 1) =
      if (s.dmem.read (4 * k.toNat + j)).isSome then unwrittenBelow k s j else unwrittenBelow k s j + 1 := by
  simp only [unwrittenBelow, List.range_succ, List.countP_append, List.countP_cons, List.countP_nil]
  cases s.dmem.read (4 * k.toNat + j) <;> simp
/-- The host's read of DMEM word `k`: its bytes as they stand, each unwritten one the free value of its own draw (R65, R69). -/
theorem readDmemWord_eq (k : BitVec 6) (s : State) : readDmemWord k s =
   (wordOfBytes ((s.dmem.read (4 * k.toNat)).getD (Config.unwrittenByte (s.draws + unwrittenBelow k s 0)))
      ((s.dmem.read (4 * k.toNat + 1)).getD (Config.unwrittenByte (s.draws + unwrittenBelow k s 1)))
      ((s.dmem.read (4 * k.toNat + 2)).getD (Config.unwrittenByte (s.draws + unwrittenBelow k s 2)))
      ((s.dmem.read (4 * k.toNat + 3)).getD (Config.unwrittenByte (s.draws + unwrittenBelow k s 3))),
      { s with draws := s.draws + unwrittenBelow k s 4 }) := by
  have step : ∀ j : BitVec 2, peekByte (dmemAddr k j) { s with draws := s.draws + unwrittenBelow k s j.toNat } =
      ((s.dmem.read (4 * k.toNat + j.toNat)).getD (Config.unwrittenByte (s.draws + unwrittenBelow k s j.toNat)),
        { s with draws := s.draws + unwrittenBelow k s (j.toNat + 1) }) := by
    intro j
    simp only [peekByte, written, dmemAddr_toNat, unwrittenBelow_succ]
    by_cases h : (s.dmem.read (4 * k.toNat + j.toNat)).isSome = true
    · rw [if_pos h, if_pos h]
    · rw [if_neg h, if_neg h, Nat.add_assoc]
  have s0 := step 0
  have s1 := step 1
  have s2 := step 2
  have s3 := step 3
  simp only [show (0:BitVec 2).toNat = 0 from rfl, show (1:BitVec 2).toNat = 1 from rfl,
    show (2:BitVec 2).toNat = 2 from rfl, show (3:BitVec 2).toNat = 3 from rfl, Nat.add_zero, Nat.zero_add] at s0 s1 s2 s3
  have z : ({ s with draws := s.draws + unwrittenBelow k s 0 } : State) = s := rfl
  rw [z] at s0
  simp only [readDmemWord]
  rw [s0]
  simp only
  rw [s1]
  simp only
  rw [s2]
  simp only
  rw [s3]

/-! ### The offsets of the host registers (R17, R62) -/

theorem hostReg_cmd {off : Offset} (h : hostReg off = .cmd) : off.toNat < 0x004 := by
  revert off; decide

theorem hostReg_arg {off : Offset} (h : hostReg off = .arg) : 0x004 ≤ off.toNat ∧ off.toNat < 0x008 := by
  revert off; decide

theorem hostReg_status {off : Offset} (h : hostReg off = .status) : 0x008 ≤ off.toNat ∧ off.toNat < 0x00C := by
  revert off; decide

theorem hostReg_dmem {off : Offset} {k : BitVec 6} (h : hostReg off = .dmem k) : 0x100 ≤ off.toNat := by
  have key : ∀ off : Offset, off.toNat < 0x100 → (hostReg off matches .dmem _) = false := by decide
  refine Nat.le_of_not_lt fun hlt => ?_
  have := key off hlt
  rw [h] at this
  cases this

/-! ### The events to come -/

theorem comingEvent_zero (s : State) : comingEvent 0 s = (nextEvent s).1 := rfl

theorem comingEvent_succ {s t : State} (n : Nat) (h : step s = .next t) : comingEvent (n + 1) s = comingEvent n t := by
  simp only [comingEvent, h]

end Sys2Proof.Machine
end

