-- ==== Sys2Proof/Laws/Driver.lean ====
section
/-! SUPPORT. The host driver: what the poll reads, what a turn of the host or of another agent can do, and that a run can be cut
anywhere (R95, R96). -/

namespace Sys2Proof.Machine

open Sys2Proof

theorem hostRead_offStatus (s : State) : hostRead offStatus s = { s with hostData := statusWord s } := rfl

/-- Bit 0 of STATUS is BUSY (R20, R21). -/
theorem statusWord_bit0 (s : State) : (statusWord s).getLsbD 0 = busy s := by
  simp only [statusWord, BitVec.getLsbD_or, BitVec.getLsbD_shiftLeft, BitVec.getLsbD_setWidth]
  cases busy s <;> simp

@[simp] theorem hostTurn_nil (s : State) : hostTurn [] s = ([], s) := rfl

/-- A turn of the host is one access, after which it goes on unless it stands at the poll and BUSY reads 1. -/
theorem hostTurn_cons {op : HostOp} {s t : State} (rest : List HostOp) (h : runEvent (hostOpEvent op s) s = .next t) :
    hostTurn (op :: rest) s = (if hostOpAgain op t then op :: rest else rest, t) := by
  simp only [hostTurn, h]

@[simp] theorem runHost_nil (ops : List HostOp) (s : State) : runHost [] ops s = (ops, s) := rfl

@[simp] theorem runHost_host (ts : List Turn) (ops : List HostOp) (s : State) :
    runHost (.host :: ts) ops s = runHost ts (hostTurn ops s).1 (hostTurn ops s).2 := rfl

theorem runHost_agent {e : Event} {s t : State} (ts : List Turn) (ops : List HostOp) (h : runEvent e s = .next t) :
    runHost (.agent e :: ts) ops s = runHost ts ops t := by
  simp only [runHost, h]

theorem runHost_append (us vs : List Turn) (ops : List HostOp) (s : State) :
    runHost (us ++ vs) ops s = runHost vs (runHost us ops s).1 (runHost us ops s).2 := by
  induction us generalizing ops s with
  | nil => rfl
  | cons u us ih =>
    cases u with
    | host => exact ih _ _
    | agent e =>
      obtain ⟨t, ht⟩ := runEvent_next e s
      rw [List.cons_append, runHost_agent _ _ ht, runHost_agent _ _ ht]
      exact ih _ _

/-- No agent but the host starts a command: where the block is not busy, its events leave it so (R101). -/
theorem agent_not_busy {e : Event} {s t : State} (he : isHostAccess e = false) (hb : busy s = false)
    (h : runEvent e s = .next t) : busy t = false := by
  have hu := busy_eq_false.mp hb
  cases e with
  | hostWrite off w => cases he
  | hostRead off => cases he
  | sequencer =>
    simp only [runEvent, Host.Outcome.next.injEq, sequencerStep_nil hu] at h
    rw [← h]; exact hb
  | peripheral b k =>
    simp only [runEvent, Host.Outcome.next.injEq, periphComplete_eq] at h
    rw [← h]; exact hb
  | reset =>
    simp only [runEvent, Host.Outcome.next.injEq] at h
    rw [← h]; rfl

/-- Every access that needs BUSY = 0 comes after a poll, a command write between them ends what the poll saw; `idle` says that the
block is known not to be busy. -/
def pollGuarded : Bool → List HostOp → Bool
  | _, [] => true
  | _, .poll :: ops => pollGuarded true ops
  | idle, .writeArg _ :: ops => pollGuarded idle ops
  | idle, .writeCmd _ :: ops => idle && pollGuarded false ops
  | idle, .readWord _ :: ops => pollGuarded idle ops
  | idle, .writeWord _ _ _ :: ops => idle && pollGuarded idle ops

theorem pollGuarded_mono {ops : List HostOp} (h : pollGuarded false ops = true) (b : Bool) :
    pollGuarded b ops = true := by
  induction ops generalizing b with
  | nil => rfl
  | cons op ops ih =>
    cases op with
    | poll => exact h
    | writeArg r => exact ih h b
    | readWord k => exact ih h b
    | writeCmd w => simp [pollGuarded] at h
    | writeWord base bytes k => simp [pollGuarded] at h

theorem pollGuarded_append {b : Bool} {us vs : List HostOp} (hu : pollGuarded b us = true)
    (hv : pollGuarded false vs = true) : pollGuarded b (us ++ vs) = true := by
  induction us generalizing b with
  | nil => exact pollGuarded_mono hv b
  | cons op us ih =>
    cases op with
    | poll => exact ih (b := true) hu
    | writeArg r => exact ih (b := b) hu
    | readWord k => exact ih (b := b) hu
    | writeCmd w =>
      simp only [pollGuarded, List.cons_append, Bool.and_eq_true] at hu ⊢
      exact ⟨hu.1, ih hu.2⟩
    | writeWord base bytes k =>
      simp only [pollGuarded, List.cons_append, Bool.and_eq_true] at hu ⊢
      exact ⟨hu.1, ih hu.2⟩

/-- Every program is guarded by its polls. -/
theorem pollGuarded_programOps {ls : List AsmLine} {ops : List HostOp} (h : programOps ls = some ops) :
    pollGuarded false ops = true := by
  have words : ∀ (base : Nat) (bytes : List Nat) (ks : List Nat), pollGuarded true (ks.flatMap fun k =>
      [HostOp.readWord (BitVec.ofNat 6 k), .writeWord base bytes (BitVec.ofNat 6 k)]) = true := by
    intro base bytes ks
    induction ks with
    | nil => rfl
    | cons k ks ih => exact ih
  have line : ∀ {l : AsmLine} {a : List HostOp}, lineOps l = some a → pollGuarded false a = true := by
    intro l a ha
    unfold lineOps at ha
    split at ha
    · simp only [Option.some.injEq] at ha
      subst ha
      cases l with
      | dmem base bytes => exact words base bytes _
      | _ => simp only [bodyOps, argOps, pollGuarded, List.nil_append, List.cons_append]; cases assemble _ <;> rfl
    · cases ha
  induction ls generalizing ops with
  | nil => cases h; rfl
  | cons l ls ih =>
    unfold programOps at h
    split at h
    · rename_i a b ha hb
      cases h
      exact pollGuarded_append (line ha) (ih hb)
    · cases h

end Sys2Proof.Machine
end

