-- ==== Sys2Proof/Laws/PerInstr.lean ====
section
/-! SUPPORT. One statement for every command, as syntax: its word agrees with its own row of the opcode map, and the word's low
four bits are the row's opcode, so that no other row has it (R82, R88). -/

namespace Sys2Proof.Laws.EncodesTableRow

open Sys2Proof

/-- The command's word is in the row of the opcode map that has the command's mnemonic, and its OP field is the command's opcode,
which is that row's own (R82, R88). -/
def Statement (i : Instr) : Prop :=
  ∃ r ∈ opcodeTable, r.mnemonic = mnemonicOf i ∧ r.matches (encode i) = true ∧ fieldOp (encode i) = opcode i ∧
    fieldOp r.value = opcode i

theorem fieldOp_pack (op : BitVec 4) (dir : Dir) (opa len base : Byte) :
    fieldOp (packFields op dir opa len base) = op := by
  apply BitVec.eq_of_getLsbD_eq
  intro i hi
  simp only [fieldOp, packFields, BitVec.getLsbD_extractLsb', BitVec.getLsbD_or, BitVec.getLsbD_shiftLeft,
    BitVec.getLsbD_setWidth]
  interval_cases i <;> simp

/-- A word of a command with a byte operand keeps only the opcode under the row's mask. -/
theorem mask_byte (op : BitVec 4) (b : Byte) :
    packFields op 0 b 0 0 &&& 0xFFFF00FF = op.setWidth 32 := by
  apply BitVec.eq_of_getLsbD_eq
  intro i hi
  simp only [packFields, BitVec.getLsbD_and, BitVec.getLsbD_or, BitVec.getLsbD_shiftLeft, BitVec.getLsbD_setWidth]
  interval_cases i <;> simp

/-- A word of a command with an address and a direction keeps only the opcode under the row's mask. -/
theorem mask_call (op : BitVec 4) (d : Dir) (a : Byte) :
    packFields op d a 0 0 &&& 0xFFFF00EF = op.setWidth 32 := by
  apply BitVec.eq_of_getLsbD_eq
  intro i hi
  simp only [packFields, BitVec.getLsbD_and, BitVec.getLsbD_or, BitVec.getLsbD_shiftLeft, BitVec.getLsbD_setWidth]
  interval_cases i <;> simp

/-- A word of a command with a burst keeps only the opcode under the row's mask. -/
theorem mask_burst (op : BitVec 4) (a len base : Byte) :
    packFields op 0 a len base &&& 0x000000FF = op.setWidth 32 := by
  apply BitVec.eq_of_getLsbD_eq
  intro i hi
  simp only [packFields, BitVec.getLsbD_and, BitVec.getLsbD_or, BitVec.getLsbD_shiftLeft, BitVec.getLsbD_setWidth]
  interval_cases i <;> simp

theorem init : Statement .init :=
  ⟨⟨"INIT", 0x00000001, 0xFFFFFFFF⟩, by decide, rfl, by decide, by decide, by decide⟩

theorem wait : Statement .wait :=
  ⟨⟨"WAIT", 0x00000002, 0xFFFFFFFF⟩, by decide, rfl, by decide, by decide, by decide⟩

theorem start : Statement .start :=
  ⟨⟨"START", 0x00000003, 0xFFFFFFFF⟩, by decide, rfl, by decide, by decide, by decide⟩

theorem restart : Statement .restart :=
  ⟨⟨"RESTART", 0x00000004, 0xFFFFFFFF⟩, by decide, rfl, by decide, by decide, by decide⟩

theorem stop : Statement .stop :=
  ⟨⟨"STOP", 0x00000005, 0xFFFFFFFF⟩, by decide, rfl, by decide, by decide, by decide⟩

theorem sendAck : Statement .sendAck :=
  ⟨⟨"SENDACK", 0x00000006, 0xFFFFFFFF⟩, by decide, rfl, by decide, by decide, by decide⟩

theorem sendNak : Statement .sendNak :=
  ⟨⟨"SENDNAK", 0x00000007, 0xFFFFFFFF⟩, by decide, rfl, by decide, by decide, by decide⟩

theorem write (b : Byte) : Statement (.write b) :=
  ⟨⟨"WRITE", 0x00000008, 0xFFFF00FF⟩, by decide, rfl, beq_iff_eq.mpr ((mask_byte _ _).trans rfl),
    fieldOp_pack _ _ _ _ _, rfl⟩

theorem read (p : Byte) : Statement (.read p) :=
  ⟨⟨"READ", 0x00000009, 0xFFFF00FF⟩, by decide, rfl, beq_iff_eq.mpr ((mask_byte _ _).trans rfl),
    fieldOp_pack _ _ _ _ _, rfl⟩

theorem callSlave (a : Byte) (d : Dir) : Statement (.callSlave a d) :=
  ⟨⟨"CALLSLAVE", 0x0000000A, 0xFFFF00EF⟩, by decide, rfl, beq_iff_eq.mpr ((mask_call _ _ _).trans rfl),
    fieldOp_pack _ _ _ _ _, rfl⟩

theorem callSlavePlus (a : Byte) (d : Dir) : Statement (.callSlavePlus a d) :=
  ⟨⟨"CALLSLAVEPLUS", 0x0000000B, 0xFFFF00EF⟩, by decide, rfl, beq_iff_eq.mpr ((mask_call _ _ _).trans rfl),
    fieldOp_pack _ _ _ _ _, rfl⟩

theorem writePlus (b : Byte) : Statement (.writePlus b) :=
  ⟨⟨"WRITEPLUS", 0x0000000C, 0xFFFF00FF⟩, by decide, rfl, beq_iff_eq.mpr ((mask_byte _ _).trans rfl),
    fieldOp_pack _ _ _ _ _, rfl⟩

theorem writeComplete (a base len : Byte) : Statement (.writeComplete a base len) :=
  ⟨⟨"WRITECOMPLETE", 0x0000000D, 0x000000FF⟩, by decide, rfl, beq_iff_eq.mpr ((mask_burst _ _ _ _).trans rfl),
    fieldOp_pack _ _ _ _ _, rfl⟩

theorem readPlus (p : Byte) : Statement (.readPlus p) :=
  ⟨⟨"READPLUS", 0x0000000E, 0xFFFF00FF⟩, by decide, rfl, beq_iff_eq.mpr ((mask_byte _ _).trans rfl),
    fieldOp_pack _ _ _ _ _, rfl⟩

theorem readComplete (a base len : Byte) : Statement (.readComplete a base len) :=
  ⟨⟨"READCOMPLETE", 0x0000000F, 0x000000FF⟩, by decide, rfl, beq_iff_eq.mpr ((mask_burst _ _ _ _).trans rfl),
    fieldOp_pack _ _ _ _ _, rfl⟩

end Sys2Proof.Laws.EncodesTableRow
end

