-- ==== Sys2Proof/Laws/Run.lean ====
section
/-! SUPPORT. A command's run without the interleaving. `seqRun` performs a µop list in order, taking the bytes the peripheral delivers
and the draws of unwritten DMEM bytes from lists; `finish_eq_seqRun` says that every interleaving of a command's µops with host
accesses and peripheral steps ends as `seqRun` does (R74, R103, R116, R118). Claims about whole commands then are about `seqRun`. -/

namespace Sys2Proof.Machine

open Sys2Proof

/-- The part of a state that a running command reads or writes, its list of µops left out. -/
def runView (s : State) : State :=
  { s with arg := 0, cmdErr := false, errCode := .none, hostData := 0, inbox := [], draws := 0, uops := [] }

/-- A µop's effect with `d` for the value of an unwritten DMEM byte. -/
def seqUop (d : Byte) (u : Uop) (s : State) : State :=
  match u with
  | .loadMem x =>
    { s with
      faults := if decide (s.framing = .busFree) then addFault .misuseNoTransaction (readFaults x s) else readFaults x s,
      shiftBuf := (s.dmem.read x.toNat).getD d, pend := some .xmit,
      trace := s.trace ++ [.load ((s.dmem.read x.toNat).getD d)] }
  | .polMem x => { s with faults := readFaults x s, pol := ackBit ((s.dmem.read x.toNat).getD d) }
  | u => runUop u s

/-- The pending action completed, with the byte `b` for a receive (R116). -/
def settle (b : Byte) (s : State) : State :=
  { s with pend := none, shiftBuf := if s.pend = some .rcv then b else s.shiftBuf }

/-- A µop list performed in order: the state it leaves, and what is left of the delivered bytes `bs` and the draws `ds`. -/
def seqRun : List Uop → List Byte → List Byte → State → State × List Byte × List Byte
  | [], bs, ds, s => (s, bs, ds)
  | .waitIdle :: us, bs, ds, s =>
    if s.pend = some .rcv then seqRun us bs.tail ds (settle (bs.headD 0) s) else seqRun us bs ds (settle 0 s)
  | u :: us, bs, ds, s => seqRun us bs ds.tail (seqUop (ds.headD 0) u s)

theorem seqRun_append (us vs : List Uop) (bs ds : List Byte) (s : State) :
    seqRun (us ++ vs) bs ds s =
      seqRun vs (seqRun us bs ds s).2.1 (seqRun us bs ds s).2.2 (seqRun us bs ds s).1 := by
  induction us generalizing bs ds s with
  | nil => rfl
  | cons u us ih =>
    cases u with
    | waitIdle =>
      simp only [List.cons_append, seqRun]
      split
      · exact ih _ _ _
      · exact ih _ _ _
    | _ => simp only [List.cons_append, seqRun]; exact ih _ _ _

/-! ### What the view keeps -/

theorem runView_of_eq {s t : State} (h : commandView s = commandView t) : runView s = runView t := by
  have : ∀ s, runView s = { commandView s with uops := [] } := fun _ => rfl
  rw [this, this, h]

@[simp] theorem runView_uops (s : State) (us : List Uop) : runView { s with uops := us } = runView s := rfl

@[simp] theorem runView_draws (s : State) (n : Nat) : runView { s with draws := n } = runView s := rfl

/-- States with one view differ only in what the view leaves out. -/
theorem runView_eq_iff {s t : State} :
    runView s = runView t ↔
      s = { t with arg := s.arg, cmdErr := s.cmdErr, errCode := s.errCode, hostData := s.hostData, inbox := s.inbox,
                   draws := s.draws, uops := s.uops } := by
  constructor
  · intro h
    cases s; cases t
    simp_all [runView]
  · intro h
    rw [h]; rfl

theorem seqUop_congr {s t : State} (d : Byte) (u : Uop) (h : runView s = runView t) :
    runView (seqUop d u s) = runView (seqUop d u t) := by
  rw [runView_eq_iff] at h
  rw [h]
  generalize s.arg = a1, s.cmdErr = a2, s.errCode = a3, s.hostData = a4, s.inbox = a5, s.draws = a6, s.uops = a7
  clear h s
  cases u with
  | cond c =>
    cases c <;> simp only [seqUop, runView, runUop_condStart, runUop_condRestart, runUop_condStop]
  | loadMem x => rfl
  | polMem x => rfl
  | _ =>
    simp only [seqUop, runView, runUop_waitIdle, runUop_loadLit, runUop_rcvEn, runUop_capture,
      runUop_ackLit, runUop_ackPol, runUop_storeMem, runUop_configure]

theorem settle_congr {s t : State} (b : Byte) (h : runView s = runView t) :
    runView (settle b s) = runView (settle b t) := by
  rw [runView_eq_iff] at h
  rw [h]; rfl

theorem runView_pend {s t : State} (h : runView s = runView t) : s.pend = t.pend := by
  have := congrArg State.pend h
  simpa [runView] using this

theorem seqRun_congr {s t : State} (us : List Uop) (bs ds : List Byte) (h : runView s = runView t) :
    runView (seqRun us bs ds s).1 = runView (seqRun us bs ds t).1 := by
  induction us generalizing bs ds s t with
  | nil => exact h
  | cons u us ih =>
    cases u with
    | waitIdle =>
      simp only [seqRun, runView_pend h]
      split
      · exact ih _ _ (settle_congr _ h)
      · exact ih _ _ (settle_congr _ h)
    | _ => simp only [seqRun]; exact ih _ _ (seqUop_congr _ _ h)

/-- A µop's effect is `seqUop` with the free value it draws. -/
theorem runUop_eq_seqUop (u : Uop) (s : State) :
    runView (runUop u s) = runView (seqUop (Config.unwrittenByte s.draws) u s) := by
  cases u with
  | loadMem x => simp only [runUop_loadMem, seqUop, runView]
  | polMem x => simp only [runUop_polMem, seqUop, runView]
  | _ => rfl

/-! ### Lists in which a pending action is waited for -/

/-- A WAITIDLE comes before the next issuing µop, and there is one. -/
def hitsWait : List Uop → Bool
  | [] => false
  | u :: us => decide (u = .waitIdle) || (!u.issuing && hitsWait us)

/-- After every issuing µop the list ends or a WAITIDLE comes before the next issuing µop. -/
def waitsAfterIssue : List Uop → Bool
  | [] => true
  | u :: us => (!u.issuing || us.isEmpty || hitsWait us) && waitsAfterIssue us

/-- A pending action is waited for. -/
def pendWaited (s : State) : Prop := s.pend = none ∨ s.uops = [] ∨ hitsWait s.uops = true

/-- What a list and a state need for every interleaving to end alike. -/
structure Tame (s : State) : Prop where
  guard : guarded (decide (s.pend = none)) s.uops = true
  receive : receiveHeld s
  waits : waitsAfterIssue s.uops = true
  pend : pendWaited s

theorem seqUop_pend_none {u : Uop} (d : Byte) (s : State) (hi : u.issuing = false) :
    { seqUop d u s with pend := none } = seqUop d u { s with pend := none } := by
  cases u with
  | polMem x => rfl
  | waitIdle => rfl
  | capture => rfl
  | storeMem x => rfl
  | configure d => simp only [seqUop, runUop_configure]
  | _ => simp [Uop.issuing] at hi

theorem seqUop_pend {u : Uop} (d : Byte) (s : State) (hi : u.issuing = false) : (seqUop d u s).pend = s.pend := by
  cases u with
  | polMem x => rfl
  | waitIdle => rfl
  | capture => rfl
  | storeMem x => rfl
  | configure d => simp only [seqUop, runUop_configure]
  | _ => simp [Uop.issuing] at hi

/-- Where a WAITIDLE comes first, it makes no difference that a pending action other than a receive completes earlier. -/
theorem seqRun_settled {us : List Uop} (bs ds : List Byte) (s : State) (hw : hitsWait us = true)
    (hr : s.pend ≠ some .rcv) : seqRun us bs ds { s with pend := none } = seqRun us bs ds s := by
  induction us generalizing ds s with
  | nil => simp [hitsWait] at hw
  | cons u us ih =>
    by_cases hu : u = .waitIdle
    · subst hu
      simp [seqRun, hr, settle]
    · simp only [hitsWait, hu, decide_false, Bool.false_or, Bool.and_eq_true, Bool.not_eq_true'] at hw
      have hrun : ∀ t, seqRun (u :: us) bs ds t = seqRun us bs ds.tail (seqUop (ds.headD 0) u t) := by
        intro t
        cases u <;> first | rfl | exact absurd rfl hu
      rw [hrun, hrun, ← seqUop_pend_none _ _ hw.1]
      exact ih _ _ hw.2 (by rw [seqUop_pend _ _ hw.1]; exact hr)

/-! ### Events while a command runs -/

/-- A host access while busy leaves the command's view and its list alone (R68, R101, R164). -/
theorem host_busy {e : Event} {s t : State} (hh : isHostAccess e = true) (hb : s.uops ≠ [])
    (h : runEvent e s = .next t) : runView t = runView s ∧ t.uops = s.uops := by
  have hbusy : busy s = true := busy_eq_true.mpr hb
  cases e with
  | hostWrite off w =>
    rcases hostWrite_cases h with rfl | ⟨c, rfl⟩ | ⟨i, -, -, ha, -⟩ | ⟨-, rfl⟩ | ⟨-, -, rfl⟩ | ⟨k, -, hk, -⟩
    · exact ⟨rfl, rfl⟩
    · rcases reject_cases c s with ⟨-, hr⟩ | ⟨-, hr⟩ <;> rw [hr] <;> exact ⟨rfl, rfl⟩
    · simp [acceptable, hbusy] at ha
    · exact ⟨rfl, rfl⟩
    · exact ⟨rfl, rfl⟩
    · rw [hbusy] at hk; cases hk
  | hostRead off =>
    simp only [runEvent, Host.Outcome.next.injEq] at h
    obtain ⟨v, n, hv⟩ := hostRead_frame off s
    rw [← h, hv]
    exact ⟨rfl, rfl⟩
  | _ => simp [isHostAccess] at hh

theorem guarded_mono {b : Bool} {us : List Uop} (h : guarded b us = true) : guarded true us = true := by
  cases us with
  | nil => rfl
  | cons u us => simp only [guarded, Bool.and_eq_true] at h ⊢; exact ⟨by simp, h.2⟩

theorem guarded_of_false {b : Bool} {us : List Uop} (h : guarded false us = true) : guarded b us = true := by
  cases b
  · exact h
  · exact guarded_mono h

/-- Whether a µop leaves an action pending (R104, R105). -/
theorem runUop_pend (u : Uop) (s : State) : (runUop u s).pend = s.pend ∨ u.issuing = true := by
  cases u with
  | polMem x => exact .inl rfl
  | waitIdle => exact .inl rfl
  | capture => exact .inl rfl
  | storeMem x => exact .inl rfl
  | configure d => left; simp only [runUop_configure]
  | _ => exact .inr rfl

/-- A µop leaves a receive pending only if it is RCVEN or the receive was pending before (R105). -/
theorem runUop_rcv {u : Uop} {s : State} (h : (runUop u s).pend = some .rcv) :
    u = .rcvEn ∨ (s.pend = some .rcv ∧ u.issuing = false) := by
  cases u with
  | rcvEn => exact .inl rfl
  | cond c => cases c <;> simp [runUop_condStart, runUop_condRestart, runUop_condStop] at h
  | configure d => exact .inr ⟨by simpa only [runUop_configure] using h, rfl⟩
  | polMem x => exact .inr ⟨by simpa only [runUop_polMem] using h, rfl⟩
  | waitIdle => exact .inr ⟨h, rfl⟩
  | capture => exact .inr ⟨h, rfl⟩
  | storeMem x => exact .inr ⟨h, rfl⟩
  | _ => simp [runUop_loadLit, runUop_loadMem, runUop_ackLit, runUop_ackPol] at h

/-- A tame state stays tame at a sequencer step. -/
theorem Tame.sequencer {s : State} {u : Uop} {rest : List Uop} (h : Tame s) (hu : s.uops = u :: rest)
    (he : u = .waitIdle → s.pend = none) : Tame { runUop u s with uops := rest } := by
  obtain ⟨hg, ⟨hrw, hrh⟩, hw, hp⟩ := h
  rw [hu] at hg hrw hw hrh
  have hp : s.pend = none ∨ u :: rest = [] ∨ hitsWait (u :: rest) = true := by
    rw [← hu]; exact hp
  simp only [guarded, Bool.and_eq_true] at hg
  simp only [waitsAfterIssue, Bool.and_eq_true, Bool.or_eq_true, Bool.not_eq_true'] at hw
  simp only [receiveWaited, Bool.and_eq_true, Bool.or_eq_true, decide_eq_true_eq] at hrw
  have hpend : (runUop u s).pend = none ∨ rest = [] ∨ hitsWait rest = true := by
    by_cases hi : u.issuing = true
    · rcases hw.1 with h1 | h1
      · rcases h1 with h1 | h1
        · rw [hi] at h1; cases h1
        · exact .inr (.inl (by simpa using h1))
      · exact .inr (.inr h1)
    · rcases runUop_pend u s with h1 | h1
      · rcases hp with h2 | h2 | h2
        · exact .inl (h1.trans h2)
        · cases h2
        · simp only [hitsWait, Bool.or_eq_true, decide_eq_true_eq, Bool.and_eq_true] at h2
          rcases h2 with h2 | h2
          · exact .inl (h1.trans (he h2))
          · exact .inr (.inr h2.2)
      · exact absurd h1 hi
  refine ⟨?_, ⟨hrw.2, ?_⟩, hw.2, hpend⟩
  · show guarded (decide ((runUop u s).pend = none)) rest = true
    by_cases hu' : u = .waitIdle
    · subst hu'
      have := he rfl
      simpa [runUop, uopWaitIdle, this] using hg.2
    · simp only [hu', decide_false] at hg
      exact guarded_of_false hg.2
  · intro hrc
    show rest.head? = some .waitIdle
    have hrc : (runUop u s).pend = some .rcv := hrc
    rcases runUop_rcv hrc with h1 | ⟨h1, h2⟩
    · rcases hrw.1 with h3 | h3
      · exact absurd h1 h3
      · exact h3
    · have := hrh h1
      simp only [List.head?_cons, Option.some.injEq] at this
      rw [he this] at h1
      cases h1

/-- A tame state stays tame when the pending action completes. -/
theorem Tame.complete {s : State} (b : Byte) (h : Tame s) :
    Tame { s with pend := none, shiftBuf := b } :=
  ⟨guarded_mono h.guard, ⟨h.receive.1, by simp⟩, h.waits, .inl rfl⟩

/-- A tame state stays tame when nothing of the command changes. -/
theorem Tame.congr {s t : State} (h : Tame s) (hp : t.pend = s.pend) (hu : t.uops = s.uops) : Tame t := by
  obtain ⟨hg, ⟨hrw, hrh⟩, hw, hpw⟩ := h
  exact ⟨by rw [hp, hu]; exact hg, ⟨by rw [hu]; exact hrw, by rw [hp, hu]; exact hrh⟩, by rw [hu]; exact hw,
    by unfold pendWaited; rw [hp, hu]; exact hpw⟩

/-- The two ways to read `finish` on a nonempty run. -/
theorem finish_cons {e : Event} {es : List Event} {s u : State} (h : finish (e :: es) s = some u) :
    s.uops ≠ [] ∧ e ≠ .reset ∧ ∃ t, runEvent e s = .next t ∧ finish es t = some u := by
  unfold finish at h
  split at h
  · cases h
  · rename_i hn
    obtain ⟨t, ht⟩ := runEvent_next e s
    rw [ht] at h
    rw [not_or] at hn
    exact ⟨hn.1, hn.2, t, ht, h⟩

/-- Every interleaving of a tame state's µops ends as the list performed in order, with the bytes delivered in the interleaving and
some draws. -/
theorem finish_eq_seqRun {es : List Event} {s u : State} (hs : Tame s) (h : finish es s = some u) :
    u.uops = [] ∧ ∃ ds, runView u = runView (seqRun s.uops (receivedBytes es s) ds s).1 := by
  induction es generalizing s with
  | nil =>
    unfold finish at h
    split at h
    · rename_i hn
      cases h
      exact ⟨hn, [], by rw [hn]; rfl⟩
    · cases h
  | cons e es ih =>
    obtain ⟨hne, hnr, t, ht, hf⟩ := finish_cons h
    have hrec : receivedBytes (e :: es) s = delivered e s ++ receivedBytes es t := by
      simp only [receivedBytes, ht]
    rw [hrec]
    cases e with
    | reset => exact absurd rfl hnr
    | hostWrite off w =>
      obtain ⟨hv, hu⟩ := host_busy (e := .hostWrite off w) rfl hne ht
      obtain ⟨h1, ds, h2⟩ := ih (hs.congr (runView_pend hv) hu) hf
      refine ⟨h1, ds, ?_⟩
      rw [h2, hu]
      exact seqRun_congr _ _ _ hv
    | hostRead off =>
      obtain ⟨hv, hu⟩ := host_busy (e := .hostRead off) rfl hne ht
      obtain ⟨h1, ds, h2⟩ := ih (hs.congr (runView_pend hv) hu) hf
      refine ⟨h1, ds, ?_⟩
      rw [h2, hu]
      exact seqRun_congr _ _ _ hv
    | sequencer =>
      simp only [runEvent, Host.Outcome.next.injEq] at ht
      rcases sequencerStep_cases s with ⟨-, hq⟩ | ⟨x, rest, hu, he, hq⟩
      · rw [hq] at ht
        subst ht
        exact ih hs hf
      · rw [hq] at ht
        subst ht
        obtain ⟨h1, ds, h2⟩ := ih (hs.sequencer hu he) hf
        rw [hu]
        by_cases hx : x = .waitIdle
        · subst hx
          refine ⟨h1, ds, ?_⟩
          rw [h2]
          have hp := he rfl
          have hset : settle 0 s = s := by cases s; simp_all [settle]
          have hd : delivered .sequencer s = [] := rfl
          simp only [seqRun, hp, reduceCtorEq, if_false, hset, hd, List.nil_append]
          exact seqRun_congr _ _ _ rfl
        · refine ⟨h1, Config.unwrittenByte s.draws :: ds, ?_⟩
          rw [h2]
          have hrun : ∀ bs, seqRun (x :: rest) bs (Config.unwrittenByte s.draws :: ds) s =
              seqRun rest bs ds (seqUop (Config.unwrittenByte s.draws) x s) := by
            intro bs
            cases x <;> first | rfl | exact absurd rfl hx
          have hd : delivered .sequencer s = [] := rfl
          rw [hrun, hd, List.nil_append]
          exact seqRun_congr _ _ _ ((runView_uops _ _).trans (runUop_eq_seqUop x s))
    | peripheral b k =>
      simp only [runEvent, Host.Outcome.next.injEq, periphComplete_eq] at ht
      subst ht
      obtain ⟨h1, ds, h2⟩ := ih (hs.complete _) hf
      refine ⟨h1, ds, ?_⟩
      rw [h2]
      by_cases hr : s.pend = some .rcv
      · obtain ⟨rest, hu⟩ : ∃ rest, s.uops = .waitIdle :: rest := by
          have := hs.receive.2 hr
          rcases hu : s.uops with _ | ⟨x, rest⟩
          · exact absurd hu hne
          · rw [hu] at this
            simp only [List.head?_cons, Option.some.injEq] at this
            exact ⟨rest, by rw [this]⟩
        have hd : delivered (.peripheral b k) s = [b] := by simp [delivered, hr]
        simp [hu, seqRun, hr, settle, hd]
      · have hd : delivered (.peripheral b k) s = [] := by
          unfold delivered
          split
          · rename_i heq; exact absurd heq hr
          · rfl
        simp only [hr, if_false, hd, List.nil_append]
        rcases hs.pend with hp | hp | hp
        · have : { s with pend := none } = s := by cases s; simp_all
          rw [this]
        · exact absurd hp hne
        · rw [seqRun_settled _ _ _ hp hr]

/-! ### The commands are tame -/

theorem guarded_burst {f : Byte → List Uop} {rest : List Uop} (xs : List Byte)
    (hf : ∀ x b more, (∀ b, guarded b more = true) → guarded b (f x ++ more) = true)
    (hr : ∀ b, guarded b rest = true) (b : Bool) : guarded b (xs.flatMap f ++ rest) = true := by
  induction xs generalizing b with
  | nil => exact hr b
  | cons x xs ih =>
    rw [List.flatMap_cons, List.append_assoc]
    exact hf x b _ ih

theorem receiveWaited_burst {f : Byte → List Uop} {rest : List Uop} (xs : List Byte)
    (hf : ∀ x more, receiveWaited more = true → receiveWaited (f x ++ more) = true)
    (hr : receiveWaited rest = true) : receiveWaited (xs.flatMap f ++ rest) = true := by
  induction xs with
  | nil => exact hr
  | cons x xs ih =>
    rw [List.flatMap_cons, List.append_assoc]
    exact hf x _ ih

theorem waits_burst {f : Byte → List Uop} {rest : List Uop} (xs : List Byte)
    (hh : ∀ x more, hitsWait (f x ++ more) = true)
    (hf : ∀ x more, hitsWait more = true → waitsAfterIssue more = true → waitsAfterIssue (f x ++ more) = true)
    (hr : hitsWait rest = true) (hw : waitsAfterIssue rest = true) :
    waitsAfterIssue (xs.flatMap f ++ rest) = true := by
  induction xs with
  | nil => exact hw
  | cons x xs ih =>
    rw [List.flatMap_cons, List.append_assoc]
    refine hf x _ ?_ ih
    cases xs with
    | nil => exact hr
    | cons y ys => rw [List.flatMap_cons, List.append_assoc]; exact hh y _

/-- The addresses of a burst. -/
def burstList (base len : Byte) : List Byte := (List.range len.toNat).map (burstAddr base)

theorem burstP_eq (f : Byte → List Uop) (base len : Byte) : burstP f base len = (burstList base len).flatMap f := by
  simp [burstP, burstList, List.flatMap_map]

/-- Every command's list but INIT's starts with WAITIDLE and is tame. -/
theorem expand_tame {i : Instr} (hi : i ≠ .init) (arg : Word) :
    (∀ b, guarded b (expand i arg) = true) ∧ receiveWaited (expand i arg) = true ∧
      waitsAfterIssue (expand i arg) = true ∧ (expand i arg).head? = some .waitIdle := by
  cases i with
  | init => exact absurd rfl hi
  | writeComplete a base len =>
    simp only [expand, writeCompleteP, startP, callP, writeP, burstP_eq, List.cons_append,
      List.nil_append]
    have hg := guarded_burst (f := payloadP) (rest := stopP) (burstList base len)
      (fun x b more hm => by simp [payloadP, guarded, Uop.issuing, hm]) (fun b => by simp [stopP, guarded, Uop.issuing])
    have hr := receiveWaited_burst (f := payloadP) (rest := stopP) (burstList base len)
      (fun x more hm => by simp [payloadP, receiveWaited, hm]) (by decide)
    have hw := waits_burst (f := payloadP) (rest := stopP) (burstList base len)
      (fun x more => by simp [payloadP, hitsWait])
      (fun x more h1 h2 => by simp [payloadP, waitsAfterIssue, Uop.issuing, h1, h2]) (by decide) (by decide)
    have hh : hitsWait ((burstList base len).flatMap payloadP ++ stopP) = true := by
      cases burstList base len <;> simp [payloadP, hitsWait, stopP]
    exact ⟨fun b => by simp [guarded, Uop.issuing, hg], by simp [receiveWaited, hr],
      by simp [waitsAfterIssue, hitsWait, Uop.issuing, hw, hh], rfl⟩
  | readComplete a base len =>
    simp only [expand, readCompleteP, startP, stopP, callP, writeP, payloadP, burstP_eq,
      List.cons_append, List.nil_append]
    have hg := guarded_burst (f := slotP) (rest := stopP) (burstList base len)
      (fun x b more hm => by simp [slotP, guarded, Uop.issuing, hm]) (fun b => by simp [stopP, guarded, Uop.issuing])
    have hr := receiveWaited_burst (f := slotP) (rest := stopP) (burstList base len)
      (fun x more hm => by simp [slotP, receiveWaited, hm]) (by decide)
    have hw := waits_burst (f := slotP) (rest := stopP) (burstList base len)
      (fun x more => by simp [slotP, hitsWait, Uop.issuing])
      (fun x more h1 h2 => by simp [slotP, waitsAfterIssue, hitsWait, Uop.issuing, h1, h2]) (by decide) (by decide)
    have hh : hitsWait ((burstList base len).flatMap slotP ++ stopP) = true := by
      cases burstList base len <;> simp [slotP, hitsWait, stopP, Uop.issuing]
    rw [stopP] at hg hr hw hh
    exact ⟨fun b => by simp [guarded, Uop.issuing, hg], by simp [receiveWaited, hr],
      by simp [waitsAfterIssue, hitsWait, Uop.issuing, hw, hh], rfl⟩
  | _ =>
    refine ⟨fun b => ?_, ?_, ?_, rfl⟩ <;>
      simp [expand, waitP, startP, restartP, stopP, ackP, writeP, readP, callP, callPlusP, writePlusP, readPlusP,
        guarded, receiveWaited, waitsAfterIssue, hitsWait, Uop.issuing]

/-- A state that has just accepted a command other than INIT is tame. -/
theorem tame_accepted {i : Instr} (hi : i ≠ .init) (s : State) : Tame (accepted i s) := by
  obtain ⟨hg, hr, hw, hh⟩ := expand_tame hi s.arg
  refine ⟨hg _, ⟨hr, fun _ => hh⟩, hw, .inr (.inr ?_)⟩
  show hitsWait (expand i s.arg) = true
  rcases hx : expand i s.arg with _ | ⟨u, us⟩
  · rw [hx] at hh; cases hh
  · rw [hx] at hh
    simp only [List.head?_cons, Option.some.injEq] at hh
    simp [hitsWait, hh]

end Sys2Proof.Machine
end

