-- ==== Sys2Proof/Tests/Slice0.lean ====
section
/-! SUPPORT. The model's own tests. Expected values are from spec/95_test_vectors.md or worked out by hand from the rule a test names.
First the well-formedness smoke tests, then decoding, then single steps; then, for every obligation with hypotheses, a
concrete state and operands that meet them all (`witness_<obligation>`). -/

namespace Sys2Proof.Tests

open Sys2Proof Sys2Proof.Machine

/-! ### Well-formedness: each check refuses an ill-formed term -/

/-- R91: OP = 0 is in no row. -/
theorem test_wf_op_zero : wordWellFormed 0x00000010 = false := by decide

/-- R92: START with DIR = 1; RSVD = 1; OPA = 1; LEN = 1; BASE = 1: each field's check. -/
theorem test_wf_dir : wordWellFormed 0x00000013 = false := by decide
theorem test_wf_rsvd : wordWellFormed 0x00000023 = false := by decide
theorem test_wf_opa : wordWellFormed 0x00000103 = false := by decide
theorem test_wf_len : wordWellFormed 0x00010008 = false := by decide
theorem test_wf_base : wordWellFormed 0x1000000A = false := by decide
theorem test_wf_accepts : wordWellFormed 0xFFFFFF0D = true := by decide

/-- R95: an operand that does not fit its field is refused, line by line. -/
theorem test_asm_init_zero : AsmLine.wf (.init 0) = false := by decide
theorem test_asm_init_large : AsmLine.wf (.init (2 ^ 32)) = false := by decide
theorem test_asm_write : AsmLine.wf (.write 256) = false := by decide
theorem test_asm_read : AsmLine.wf (.read 256) = false := by decide
theorem test_asm_call : AsmLine.wf (.callSlave 256 1) = false := by decide
theorem test_asm_call_plus : AsmLine.wf (.callSlavePlus 256 0) = false := by decide
theorem test_asm_write_plus : AsmLine.wf (.writePlus 300) = false := by decide
theorem test_asm_read_plus : AsmLine.wf (.readPlus 300) = false := by decide
theorem test_asm_write_complete :
    AsmLine.wf (.writeComplete 256 0 0) = false ∧ AsmLine.wf (.writeComplete 0 256 0) = false ∧
      AsmLine.wf (.writeComplete 0 0 256) = false := by decide
theorem test_asm_read_complete :
    AsmLine.wf (.readComplete 256 0 0) = false ∧ AsmLine.wf (.readComplete 0 256 0) = false ∧
      AsmLine.wf (.readComplete 0 0 256) = false := by decide
theorem test_asm_dmem :
    AsmLine.wf (.dmem 256 []) = false ∧ AsmLine.wf (.dmem 0 [256]) = false ∧ AsmLine.wf (.dmem 255 [1, 2]) = false := by
  decide

/-! ### Decoding: a word of every command, from 95_test_vectors.md §2.1 and R97 -/

theorem test_decode_init : decode 0x00000001 = .ok .init := by decide
theorem test_decode_wait : decode 0x00000002 = .ok .wait := by decide
theorem test_decode_start : decode 0x00000003 = .ok .start := by decide
theorem test_decode_restart : decode 0x00000004 = .ok .restart := by decide
theorem test_decode_stop : decode 0x00000005 = .ok .stop := by decide
theorem test_decode_sendAck : decode 0x00000006 = .ok .sendAck := by decide
theorem test_decode_sendNak : decode 0x00000007 = .ok .sendNak := by decide
theorem test_decode_write : decode 0x00000508 = .ok (.write 0x05) := by decide
theorem test_decode_read : decode 0x00008009 = .ok (.read 0x80) := by decide
theorem test_decode_callSlave : decode 0x0000901A = .ok (.callSlave 0x90 1) := by decide
theorem test_decode_callSlavePlus : decode 0x0000501B = .ok (.callSlavePlus 0x50 1) := by decide
theorem test_decode_writePlus : decode 0x0000330C = .ok (.writePlus 0x33) := by decide
theorem test_decode_writeComplete : decode 0xFE03500D = .ok (.writeComplete 0x50 0xFE 3) := by decide
theorem test_decode_readPlus : decode 0x0000010E = .ok (.readPlus 1) := by decide
theorem test_decode_readComplete : decode 0xFF02900F = .ok (.readComplete 0x90 0xFF 2) := by decide
theorem test_decode_op_zero : decode 0x000000F0 = .error .illegalOp := by decide
theorem test_decode_rsvd : decode 0x000000E9 = .error .rsvdField := by decide
theorem test_decode_wait_base : decode 0x01000002 = .error .rsvdField := by decide
theorem test_decode_complete_dir : decode 0x0000001D = .error .rsvdField := by decide

/-! ### Small states -/

/-- After INIT, with no trace kept: the block idle, no transaction open, DMEM[0x10] = 0x07, DMEM[0xFF] = 0x01, DMEM[0x00] = 0x02. -/
def idle : State :=
  { State.reset with initDone := true, arg := 0x000186A0, dmem := [(0x00, 0x02), (0x10, 0x07), (0xFF, 0x01)] }

/-- The same with a transaction open. -/
def inside : State := { idle with framing := .busOpen }

/-- The state a command starts from in these tests: reset with ARG = 100000 for INIT, `inside` for the others. -/
def startOf (i : Instr) : State :=
  if i = .init then { State.reset with arg := 0x000186A0 } else inside

/-- A field of the next state an outcome holds. -/
def field {α : Type} (f : State → α) : Host.Outcome State Fault Refusal → Option α
  | .next t => some (f t)
  | .fault _ => none
  | .refused _ => none

/-- How often `n` rounds are needed, with the peer's byte 0xC3 and acknowledge. -/
def answers (n : Nat) : List (Byte × Bool) := List.replicate n (0xC3, false)

/-! ### Acceptance, one command write each (R101, R102) -/

theorem test_exec_init : field (·.initDone) (exec .init (startOf .init)) = some true := by decide
theorem test_exec_wait : field (·.uops) (exec .wait inside) = some [.waitIdle] := by decide
theorem test_exec_start : field (·.uops) (exec .start inside) = some [.waitIdle, .cond .start] := by decide
theorem test_exec_restart : field (·.uops) (exec .restart inside) = some [.waitIdle, .cond .restart] := by decide
theorem test_exec_stop : field (·.uops) (exec .stop inside) = some [.waitIdle, .cond .stop] := by decide
theorem test_exec_sendAck : field (·.uops) (exec .sendAck inside) = some [.waitIdle, .ackLit false] := by decide
theorem test_exec_sendNak : field (·.uops) (exec .sendNak inside) = some [.waitIdle, .ackLit true] := by decide
theorem test_exec_write : field (·.uops) (exec (.write 0xFF) inside) = some [.waitIdle, .loadLit 0xFF] := by decide
theorem test_exec_read :
    field (·.uops) (exec (.read 0x80) inside) =
      some [.waitIdle, .rcvEn, .waitIdle, .capture, .waitIdle, .ackLit true] := by decide
/-- P3 and §2.5: the address byte wraps, 0xFF + 1 is 0x00. -/
theorem test_exec_callSlave :
    field (·.uops) (exec (.callSlave 0xFF 1) inside) = some [.waitIdle, .loadLit 0x00] := by decide
theorem test_exec_callSlavePlus :
    field (·.uops) (exec (.callSlavePlus 0x50 1) inside) =
      some [.waitIdle, .cond .start, .waitIdle, .loadLit 0x51] := by decide
theorem test_exec_writePlus :
    field (·.uops) (exec (.writePlus 0x33) inside) =
      some [.waitIdle, .loadLit 0x33, .waitIdle, .cond .stop] := by decide
/-- R67: the burst wraps from 0xFF to 0x00. -/
theorem test_exec_writeComplete :
    field (·.uops) (exec (.writeComplete 0x50 0xFF 2) inside) =
      some [.waitIdle, .cond .start, .waitIdle, .loadLit 0x50, .waitIdle, .loadMem 0xFF, .waitIdle, .loadMem 0x00,
        .waitIdle, .cond .stop] := by decide
theorem test_exec_readPlus :
    field (·.uops) (exec (.readPlus 0) inside) =
      some [.waitIdle, .rcvEn, .waitIdle, .capture, .waitIdle, .ackLit false, .waitIdle, .cond .stop] := by decide
theorem test_exec_readComplete :
    field (·.uops) (exec (.readComplete 0x90 0x10 1) inside) =
      some [.waitIdle, .cond .start, .waitIdle, .loadLit 0x90, .waitIdle, .loadMem 0x10, .waitIdle, .cond .stop,
        .waitIdle, .cond .start, .waitIdle, .loadLit 0x91, .polMem 0x10, .waitIdle, .rcvEn, .waitIdle, .capture,
        .waitIdle, .ackPol, .storeMem 0x10, .waitIdle, .cond .stop] := by decide

/-! ### Single µops (R106–R114; vectors of §2.3, §2.4) -/

theorem test_start_nested : (runUop (.cond .start) inside).faults = { nestedStart := true } := by decide
theorem test_start_opens : (runUop (.cond .start) idle).framing = .busOpen := by decide
theorem test_restart_misuse : (runUop (.cond .restart) idle).faults = { noTransaction := true } := by decide
theorem test_restart_opens : (runUop (.cond .restart) idle).framing = .busOpen := by decide
theorem test_stop_misuse : (runUop (.cond .stop) idle).faults = { noTransaction := true } := by decide
theorem test_stop_frees : (runUop (.cond .stop) inside).framing = .busFree := by decide
theorem test_load_shift : (runUop (.loadLit 0xFF) inside).shiftBuf = 0xFF := by decide
theorem test_load_pend : (runUop (.loadLit 0xFF) inside).pend = some .xmit := by decide
/-- §2.4: the peer byte 0x80 is read as 0xFFFFFF80, and 0x7F as 0x0000007F. -/
theorem test_capture_negative : (runUop .capture { inside with shiftBuf := 0x80 }).rdata = 0xFFFFFF80 := by decide
theorem test_capture_positive : (runUop .capture { inside with shiftBuf := 0x7F }).rdata = 0x0000007F := by decide
theorem test_ackLit : (runUop (.ackLit true) inside).ackdt = true := by decide
theorem test_ackPol : (runUop .ackPol { inside with pol := true }).ackdt = true := by decide
theorem test_polMem : (runUop (.polMem 0x10) inside).pol = true := by decide
theorem test_storeMem : (runUop (.storeMem 0x10) { inside with t := 0xC3 }).dmem.read 0x10 = some 0xC3 := by decide
theorem test_loadMem : (runUop (.loadMem 0x10) inside).shiftBuf = 0x07 := by decide
theorem test_loadMem_unwritten : (runUop (.loadMem 0x11) inside).faults = { uninitRead := true } := by decide
theorem test_configure_master : (runUop (.configure (divisor 1)) idle).master = true := by decide
theorem test_configure_ackdt : (runUop (.configure (divisor 1)) { idle with ackdt := true }).ackdt = false := by decide

theorem test_polMem_unwritten : (runUop (.polMem 0x11) idle).faults = { uninitRead := true } := by decide

/-- R106, §1.3 step 6: WAITIDLE holds while a Start is pending. -/
theorem test_waitIdle_holds :
    (sequencerStep { inside with uops := [.waitIdle, .loadLit 0x50], pend := some .start }).uops =
      [.waitIdle, .loadLit 0x50] := by decide
/-- R116: a receive delivers the byte; a transmit keeps the shift buffer. -/
theorem test_periph_receive : (periphComplete 0xC3 true { inside with pend := some .rcv }).shiftBuf = 0xC3 := by decide
theorem test_periph_transmit :
    (periphComplete 0xC3 true { inside with pend := some .xmit, shiftBuf := 0x05 }).shiftBuf = 0x05 := by decide

/-! ### Divisor and STATUS (§2.2) -/

theorem test_div_scenario : divisorOf 8000000 8 100000 = 19 := by decide
theorem test_div_400k : divisorOf 8000000 8 400000 = 4 := by decide
theorem test_div_floor : divisorOf 8000000 8 300000 = 5 := by decide
theorem test_div_zero : divisorOf 8000000 8 2000000 = 0 := by decide
theorem test_div_wrap : divisorOf 8000000 8 3000000 = 255 := by decide
theorem test_div_exact : divisorOf 8000000 8 0xFFFFFFFF = 255 := by decide
theorem test_div_truncated : divisorOf 8000000 8 1000 = 207 := by decide
theorem test_div_one : divisorOf 8000000 8 1 = 127 := by decide
theorem test_div_wide : divisorOf 8000000 16 1000 = 1999 := by decide

theorem test_status_not_init : field statusWord (hostWrite offCmd 0x00000002 State.reset) = some 0x00000044 := by decide
theorem test_status_rate_zero : field statusWord (hostWrite offCmd 0x00000001 State.reset) = some 0x00000064 := by decide
theorem test_status_illegal : field statusWord (hostWrite offCmd 0x00000010 State.reset) = some 0x00000014 := by decide
theorem test_status_rsvd : field statusWord (hostWrite offCmd 0x00000013 State.reset) = some 0x00000024 := by decide
theorem test_status_reinit : field statusWord (hostWrite offCmd 0x00000001 idle) = some 0x00000056 := by decide
theorem test_status_overrun :
    field statusWord (hostWrite offCmd 0x00000005 { inside with uops := [.waitIdle] }) = some 0x00000037 := by decide
theorem test_status_dmem_busy :
    field statusWord (hostWrite 0x100 5 { inside with uops := [.waitIdle] }) = some 0x00000077 := by decide
/-- P4: word 1 written with 0x44332211 puts 0x11 at 0x04 and 0x44 at 0x07. -/
theorem test_dmem_little_endian :
    field (fun t => (t.dmem.read 4, t.dmem.read 7)) (hostWrite 0x104 0x44332211 idle) = some (some 0x11, some 0x44) := by
  decide

/-! ### Witnesses -/

theorem witness_EncodeOfDecode : decode 0xFF02900F = .ok (.readComplete 0x90 0xFF 2) := by decide

theorem witness_DecodeMatchesTable : (⟨"READ", 0x00000009, 0xFFFF00FF⟩ : TableRow) ∈ opcodeTable := by decide

theorem witness_BadWordsRejected :
    busy idle = false ∧ fieldOp 0x00000010 = 0 ∧ fieldOp 0x00000013 ≠ 0 ∧ wordWellFormed 0x00000013 = false := by
  decide

theorem witness_StepRunsDecodedCommand :
    decode 0x00000003 = .ok .start ∧ decodeTableWord 8 0x03 = some .start ∧
      decodeTableWord 32 0xFF02900F = some (.readComplete 0x90 0xFF 2) := by decide

/-- One command of every constructor; the bursts wrap at 0xFF and read written bytes. -/
def samples : List Instr :=
  [.init, .wait, .start, .restart, .stop, .sendAck, .sendNak, .write 0x00, .read 0x80, .callSlave 0xFF 1,
    .callSlavePlus 0x50 0, .writePlus 0x33, .writeComplete 0x50 0xFF 2, .readPlus 0, .readComplete 0x90 0xFF 2,
    .writeComplete 0x50 0x20 0, .readComplete 0x90 0x10 0]

/-- AcceptableCommandAccepted, and every statement about a command's run: acceptable, its operands written, nothing pending. -/
theorem witness_AcceptableCommandAccepted :
    ∀ i ∈ samples, acceptable i (startOf i) = true ∧ operandsWritten i (startOf i) = true ∧ (startOf i).pend = none := by
  decide

theorem witness_OverrunDropsCommandWrite : busy { inside with uops := [.waitIdle] } = true := by decide

theorem witness_NotInitRejection : busy State.reset = false ∧ State.reset.initDone = false := by decide

theorem witness_ReinitAndRateZero :
    busy idle = false ∧ idle.initDone = true ∧ busy State.reset = false ∧ State.reset.initDone = false ∧
      State.reset.arg = 0 := by decide

theorem witness_RejectKeepsFirstError : idle.cmdErr = false ∧ ({ idle with cmdErr := true } : State).cmdErr = true := by
  decide

/-- CommandWriteFrame: a write that is accepted, one while busy, one that is rejected. -/
theorem witness_CommandWriteFrame :
    field (·.uops) (exec .start inside) = some [.waitIdle, .cond .start] ∧
      field (·.uops) (exec .start { inside with uops := [.waitIdle] }) = some [.waitIdle] ∧
      field (·.errCode) (exec .start State.reset) = some .notInit := by decide

theorem witness_RoundsComplete :
    (answers 3).length = ({ inside with uops := [.waitIdle, .rcvEn, .waitIdle] } : State).uops.length := by decide

/-- Every sample command has a run to its completion: CommandPortTrace, CommandFraming, CommandFaults, CommandPend, CommandAckdt,
CommandShiftBuf, CommandRunFrame, FramingCounts, InterleavingsAgree. -/
theorem witness_CommandPortTrace :
    ∀ i ∈ samples, (finish (rounds (answers (uopCount i))) (accepted i (startOf i))).isSome = true := by decide

theorem witness_CommandFraming :
    (finish (rounds (answers 2)) (accepted .stop idle)).isSome = true := by decide

/-- CommandFaults: a nested Start, and a burst that reads an unwritten byte. -/
theorem witness_CommandFaults :
    (finish (rounds (answers 8)) (accepted (.writeComplete 0x50 0x20 1) inside)).isSome = true ∧
      operandsWritten (.writeComplete 0x50 0x20 1) inside = false := by decide

/-- CommandPend: with a receive pending at the start, for a command other than INIT. -/
theorem witness_CommandPend :
    acceptable .wait { inside with pend := some .rcv } = true ∧
      (finish (rounds (answers 1)) (accepted .wait { inside with pend := some .rcv })).isSome = true := by decide

theorem witness_CommandAckdt :
    operandsWritten (.readComplete 0x90 0x10 1) idle = true ∧
      (finish (rounds (answers 22)) (accepted (.readComplete 0x90 0x10 1) idle)).isSome = true := by decide

theorem witness_CommandShiftBuf :
    idle.pend ≠ some .rcv ∧ (finish (rounds (answers 2)) (accepted (.write 5) idle)).isSome = true := by decide

theorem witness_ReadReturnsReceivedByte :
    acceptable (.read 0xFF) inside = true ∧ inside.pend ≠ some .rcv ∧
      (finish (rounds (answers 6)) (accepted (.read 0xFF) inside)).isSome = true ∧
      (finish (rounds (answers 8)) (accepted (.readPlus 0) inside)).isSome = true := by decide

theorem witness_ReadCompleteFillsBuffer :
    acceptable (.readComplete 0x90 0xFF 2) idle = true ∧ idle.pend ≠ some .rcv ∧
      (finish (rounds (answers 30)) (accepted (.readComplete 0x90 0xFF 2) idle)).isSome = true ∧
      (finish (rounds (answers 14)) (accepted (.readComplete 0x90 0xFF 0) idle)).isSome = true := by decide

theorem witness_CommandRunFrame :
    receiveCount .start = 0 ∧ (finish (rounds (answers 2)) (accepted .start idle)).isSome = true := by decide

theorem witness_InitConfigures : acceptable .init (startOf .init) = true := by decide

theorem witness_FramingCounts :
    (finish (rounds (answers 14)) (accepted (.readComplete 0x90 0x10 0) idle)).isSome = true := by decide

/-- InterleavingsAgree: two interleavings of one READ with one delivered byte. -/
theorem witness_InterleavingsAgree :
    let es₁ : List Event := rounds (answers 6)
    let es₂ : List Event :=
      [.sequencer, .hostWrite offArg 7, .sequencer, .sequencer, .peripheral 0xC3 true, .sequencer, .hostRead offStatus,
        .sequencer, .sequencer, .sequencer]
    (finish es₁ (accepted (.read 1) inside)).isSome = true ∧ (finish es₂ (accepted (.read 1) inside)).isSome = true ∧
      receivedBytes es₁ (accepted (.read 1) inside) = receivedBytes es₂ (accepted (.read 1) inside) := by decide

theorem witness_CompositionsRunAsConstituents :
    (finish (rounds (answers 4)) { inside with uops := [.waitIdle, .loadLit 0x33] ++ [.waitIdle, .cond .stop] }).isSome =
      true := by decide

/-- FairRunsComplete: a busy block whose WAITIDLE is taken at the first step, the sequencer picked at every step. -/
def fairEvents : Nat → Event := fun _ => .sequencer

/-- The states of that run. -/
def fairStates : Nat → State
  | 0 => { inside with uops := [.waitIdle] }
  | _ + 1 => inside

theorem witness_FairRunsComplete :
    IsRun fairEvents fairStates ∧ PeriphFair fairEvents fairStates ∧ SequencerFair fairEvents fairStates ∧
      busy (fairStates 0) = true := by
  refine ⟨fun n => ?_, fun n h => ?_, fun n _ => ⟨n, Nat.le_refl n, rfl⟩, rfl⟩
  · cases n <;> rfl
  · exact absurd rfl (h (n + 1) (Nat.le_succ n))

/-- HangHolds: a host's read and its STOP while a Start never completes. -/
theorem witness_HangHolds :
    let s : State := { inside with uops := [.waitIdle], pend := some .start }
    let es : List Event := [.hostRead offStatus, .hostWrite offCmd 0x00000005, .sequencer]
    s.uops = .waitIdle :: [] ∧ s.pend ≠ none ∧ (∀ e ∈ es, isPeripheral e = false ∧ e ≠ .reset) ∧
      (field busy (runEvents es s)).isSome = true := by decide

theorem witness_SilentNak :
    [Event.peripheral 0xC3 true].map eraseAck = [Event.peripheral 0xC3 false].map eraseAck := by decide

theorem witness_HostCannotDisturb :
    isHostAccess (.hostWrite 0x100 5) = true ∧ busy { inside with uops := [.waitIdle] } = true ∧
      (field busy (runEvent (.hostWrite 0x100 5) { inside with uops := [.waitIdle] })).isSome = true := by decide

/-- StepKeepsInvariant: the state after reset with an event lined up meets the invariant and steps. -/
theorem witness_StepKeepsInvariant :
    Inv (pushEvent .sequencer State.reset) ∧ step (pushEvent .sequencer State.reset) = .next State.reset := by
  refine ⟨?_, rfl⟩
  constructor <;>
    simp [State.reset, pushEvent, latchConsistent, guarded, receiveHeld, receiveWaited, quietBeforeInit, configureAlone,
      framingOf, pendIsLast, Memory.wf, Memory.wfFrom]

/-- NoActionIssuedWhilePending: from reset to the moment before a Start is issued. -/
theorem witness_NoActionIssuedWhilePending :
    field (fun t => t.uops)
      (runEvents [.hostWrite offArg 1, .hostWrite offCmd 1, .sequencer, .hostWrite offCmd 3, .sequencer] State.reset) =
      some [.cond .start] ∧ (Uop.cond .start).issuing = true := by decide

theorem witness_InitDoneOnlyByInit :
    field (·.initDone) (runEvent (.hostWrite offCmd 0x00000001) (startOf .init)) = some true ∧
      (startOf .init).initDone = false := by decide

/-- GhostsOnlyGrow: a sequencer step that adds a fault and an action, and one that keeps a fault. -/
theorem witness_GhostsOnlyGrow :
    field (fun t => hasFault t.faults .misuseNestedStart)
      (runEvent .sequencer { inside with uops := [.cond .start] }) = some true ∧
      hasFault inside.faults .misuseNestedStart = false ∧
      hasFault { nestedStart := true } .misuseNestedStart = true := by decide

theorem witness_ConfigurationOnlyByConfigure :
    field (·.master) (runEvent .sequencer { startOf .init with uops := [.configure (divisor 1)] }) = some true ∧
      (startOf .init).master = false := by decide

theorem witness_RdataOnlyByCapture :
    field (·.rdata) (runEvent .sequencer { inside with uops := [.capture], shiftBuf := 0x80 }) = some 0xFFFFFF80 ∧
      inside.rdata = 0 := by decide

/-- DmemWriters: a byte changed by a STOREMEM, and one by a host write of the last word. -/
theorem witness_DmemWriters :
    field (fun t => t.dmem.read 0xFF) (runEvent .sequencer { inside with uops := [.storeMem 0xFF] }) = some (some 0) ∧
      field (fun t => t.dmem.read 0xFF) (runEvent (.hostWrite 0x1FC 0x44332211) inside) = some (some 0x44) ∧
      inside.dmem.read 0xFF = some 1 := by decide

/-- ErrorLatchSticky: a rejection that keeps the code, a STATUS write that clears it, and rejections of CMD and DMEM writes that set it. -/
theorem witness_ErrorLatchSticky :
    let s : State := { idle with cmdErr := true, errCode := .notInit }
    field (fun t => t.errCode) (runEvent (.hostWrite offCmd 0) s) = some .notInit ∧
      field (fun t => t.errCode) (runEvent (.hostWrite 0x00B 4) s) = some .none ∧
      field (fun t => t.errCode) (runEvent (.hostWrite 0x003 0) idle) = some .illegalOp ∧
      field (fun t => t.errCode) (runEvent (.hostWrite 0x1FF 0) { idle with uops := [.waitIdle] }) = some .dmemBusy := by
  decide

/-- HostReadsArePure: ARG changed by a write at the last offset that names it. -/
theorem witness_HostReadsArePure :
    field (·.arg) (runEvent (.hostWrite 0x007 5) { idle with uops := [.waitIdle] }) = some 5 ∧ idle.arg ≠ 5 := by
  decide

theorem witness_StatusWriteClears :
    (4 : Word).getLsbD 2 = true ∧ (0xFFFFFFFB : Word).getLsbD 2 = false := by decide

theorem witness_ReservedOffsets :
    0x010 ≤ (0x010 : Offset).toNat ∧ (0x0FF : Offset).toNat ≤ 0x0FF ∧
      (0x1FC : Offset).extractLsb' 2 7 = (0x1FF : Offset).extractLsb' 2 7 := by decide

/-- DmemWordWrite: the first and the last word; four written bytes read while busy; an unwritten byte beside a written one. -/
theorem witness_DmemWordWrite :
    let full : State := { inside with uops := [.waitIdle], dmem := [(252, 0x11), (253, 0x22), (254, 0x33), (255, 0x44)] }
    busy idle = false ∧ hostReg (offDmem 63) = .dmem 63 ∧ hostReg (offDmem 0) = .dmem 0 ∧ busy full = true ∧
      full.dmem.read 252 = some 0x11 ∧ full.dmem.read 255 = some 0x44 ∧
      (hostRead (offDmem 63) full).hostData = 0x44332211 ∧
      idle.dmem.read 0 = some 0x02 ∧ idle.dmem.read 1 = none ∧ (hostRead (offDmem 0) idle).draws = 3 := by decide

/-- DmemBusyRefused: the first and the last offset; a busy state for the write, and a state that is not for the read. -/
theorem witness_DmemBusyRefused :
    0x100 ≤ (0x100 : Offset).toNat ∧ 0x100 ≤ (0x1FF : Offset).toNat ∧ busy { inside with uops := [.waitIdle] } = true ∧
      busy inside = false := by decide

theorem witness_UnwrittenLoadGoesOn : written State.reset 0xFF = false ∧ written idle 0x11 = false := by decide

theorem witness_DivisorFormula : 1 ≤ 3000000 ∧ 8000000 < 4 * 3000000 := by decide

theorem witness_BootSequence : (100000 : Word) ≠ 0 := by decide

theorem witness_CompleteThenWaitIsFinal :
    acceptable (.readComplete 0x90 0xFF 2) idle = true ∧ operandsWritten (.readComplete 0x90 0xFF 2) idle = true ∧
      idle.framing = .busFree ∧ idle.faults = {} ∧
      (finish (rounds (answers 30)) (accepted (.readComplete 0x90 0xFF 2) idle)).isSome = true ∧
      (finish [.sequencer] (accepted .wait idle)).isSome = true := by decide

/-- A host that writes no more: the sequencer is picked at every step to come. -/
theorem final_idle : FinalBefore (fun _ => .sequencer) idle := ⟨fun _ => rfl, rfl, rfl, rfl, rfl⟩

/-- R201: a write still to come, and a transaction left open, are not final. -/
theorem test_final_needs_quiet_host : ¬ FinalBefore (fun _ => .hostWrite offArg 0) idle := fun h => nomatch h.1 0
theorem test_final_needs_stop : ¬ FinalBefore (fun _ => .sequencer) inside := fun h => nomatch h.2.2.2.1

/-- FinalStates: a final state and the step after it; a step of the machine with an event lined up. -/
theorem witness_FinalStates :
    FinalBefore (fun _ => .sequencer) idle ∧ runEvent .sequencer idle = .next idle ∧
      step (pushEvent .sequencer idle) = .next idle :=
  ⟨final_idle, rfl, rfl⟩

/-- AssemblerChecksOperands: the values where accepted and refused operands meet; a program run beside the sequencer whose second line
finds the block busy; a rejection other than those of a host that does not wait. -/
theorem witness_AssemblerChecksOperands :
    lineOps (.write 255) ≠ none ∧ lineOps (.write 256) = none ∧ lineOps (.init 1) ≠ none ∧
      lineOps (.init (2 ^ 32 - 1)) ≠ none ∧ lineOps (.init (2 ^ 32)) = none ∧
      lineOps (.writeComplete 255 255 255) ≠ none ∧
      programOps [.start, .stop] = some [.poll, .writeCmd 0x00000003, .poll, .writeCmd 0x00000005] ∧
      hostWrite offCmd 0x00000003 idle ≠ .next idle ∧ idle.cmdErr = false ∧
      (runHost [.host, .host] [.poll, .writeCmd 0x00000003] State.reset).2.errCode = .notInit := by
  refine ⟨by decide, by decide, by decide, by decide, by decide, by decide, by decide, ?_, by decide, by decide⟩
  intro h
  have := congrArg (field (·.uops)) h
  revert this
  decide

/-- R96: while BUSY reads 1 the driver stays at the poll and writes nothing; once it reads 0 the next turn writes. -/
theorem test_poll_waits :
    let busyState : State := { idle with uops := [.waitIdle, .cond .stop] }
    (runHost [.host, .host, .host] [.poll, .writeCmd 0x00000003] busyState).1 = [.poll, .writeCmd 0x00000003] ∧
      (runHost [.host, .host, .host] [.poll, .writeCmd 0x00000003] busyState).2.cmdErr = false := by decide
theorem test_poll_then_write :
    (runHost [.host, .agent .sequencer, .host, .agent .sequencer, .host] [.poll, .writeCmd 0x00000003]
      { idle with uops := [.waitIdle] }).2.uops = [.waitIdle, .cond .start] := by decide

/-- DmemDirectiveStores: a directive that ends at 0xFF, one for each refusal, a busy state and one that is not, a written byte outside the
named range, and a run of the directive beside the peripheral. -/
theorem witness_DmemDirectiveStores :
    250 + [1, 2, 3, 4, 5, 255].length ≤ 256 ∧ busy idle = false ∧ busy { idle with uops := [.waitIdle] } = true ∧
      idle.dmem.read 0x10 = some 0x07 ∧
      lineOps (.dmem 250 [1, 2, 3, 4, 5, 255]) =
        some [.poll, .readWord 62, .writeWord 250 [1, 2, 3, 4, 5, 255] 62, .readWord 63,
          .writeWord 250 [1, 2, 3, 4, 5, 255] 63] ∧
      lineOps (.dmem 256 []) = none ∧ lineOps (.dmem 0 [256]) = none ∧ lineOps (.dmem 251 [1, 2, 3, 4, 5, 6]) = none ∧
      let r := runHost [.host, .host, .agent (.peripheral 0 false), .host] [.poll, .readWord 0, .writeWord 1 [5] 0]
        { idle with pend := some .stop, dmem := [(0, 1), (1, 2), (2, 3), (3, 4)] }
      r.1 = [] ∧ r.2.pend = none ∧ r.2.dmem = [(0, 1), (1, 5), (2, 3), (3, 4)] := by decide

end Sys2Proof.Tests
end

section
/-! PROOFS. The command word and its fields: a word that decodes is the word of its command (R81, R89, R97). -/

namespace Sys2Proof

/-- A word whose RSVD field is zero is the word of its five other fields. -/
theorem packFields_of_fields {w : Word} (h : fieldRsvd w = 0) :
    packFields (fieldOp w) (fieldDir w) (fieldOpa w) (fieldLen w) (fieldBase w) = w := by
  have hrsvd : ∀ j, j < 3 → w.getLsbD (5 + j) = false := fun j hj => by
    simpa [fieldRsvd, hj] using congrArg (·.getLsbD j) h
  have h5 : w[5] = false := hrsvd 0 (by omega)
  have h6 : w[6] = false := hrsvd 1 (by omega)
  have h7 : w[7] = false := hrsvd 2 (by omega)
  apply BitVec.eq_of_getLsbD_eq
  intro i hi
  simp only [packFields, fieldOp, fieldDir, fieldOpa, fieldLen, fieldBase, BitVec.getLsbD_or,
    BitVec.getLsbD_shiftLeft, BitVec.getLsbD_setWidth, BitVec.getLsbD_extractLsb']
  interval_cases i <;> simp [h5, h6, h7]

theorem acceptFields_eq_ok {zero : Bool} {i j : Instr} :
    acceptFields zero i = .ok j ↔ zero = true ∧ i = j := by
  cases zero <;> simp [acceptFields]

/-- The fields of a row of R88 that decodes are those of the command's word. -/
theorem packFields_of_decodeRow {op : BitVec 4} {dir : Dir} {opa len base : Byte} {i : Instr}
    (h : decodeRow op dir opa len base = .ok i) : packFields op dir opa len base = encode i := by
  unfold decodeRow at h
  split at h
  case h_16 => cases h
  all_goals
    rename_i hop
    obtain ⟨hz, rfl⟩ := acceptFields_eq_ok.mp h
    simp only [Bool.and_eq_true, beq_iff_eq] at hz
    have hval : op = BitVec.ofNat 4 op.toNat := by simp
    rw [hop] at hval
    simp [encode, opcode, hval, hz]

/-- A word that decodes is the word of the command it decodes to (R88, R97). -/
theorem encode_of_decode {w : Word} {i : Instr} (h : decode w = .ok i) : encode i = w := by
  unfold decode at h
  split at h
  · cases h
  · split at h
    · cases h
    · rename_i hr
      rw [← packFields_of_decodeRow h, packFields_of_fields (not_not.mp hr)]

end Sys2Proof
end

section
/-! PROOFS. One event of the machine: the host registers it reads and writes, and the fields only one µop or one command
writes (R17–R28, R34–R36). -/

namespace Sys2Proof.Machine

open Sys2Proof

/-! ### The step and the acceptance of a command -/

/-- A step takes the event put in front of the interleaving and performs it. -/
theorem step_pushEvent (e : Event) (s : State) : step (pushEvent e s) = runEvent e s := rfl

theorem hostWrite_offCmd (w : Word) (s : State) : hostWrite offCmd w s = hostWriteCmd w s := rfl

theorem hostWriteCmd_of_decode {w : Word} {i : Instr} (s : State) (h : decode w = .ok i) :
    hostWriteCmd w s = exec i s := by
  simp only [hostWriteCmd, h]

theorem decode_of_decodeTableWord {nbits w : Nat} {i : Instr} (h : decodeTableWord nbits w = some i) :
    decode (tableWord nbits w) = .ok i := by
  unfold decodeTableWord at h
  split at h
  · rename_i hd
    rw [hd, Option.some.inj h]
  · cases h

/-- What makes a command acceptable (R101). -/
theorem acceptable_iff {i : Instr} {s : State} :
    acceptable i s = true ↔
      busy s = false ∧ (i = .init → s.initDone = false ∧ s.arg ≠ 0) ∧ (i ≠ .init → s.initDone = true) := by
  by_cases hi : i = .init <;> simp [acceptable, hi]

/-- An acceptable command is accepted (R101, R102). -/
theorem exec_of_acceptable {i : Instr} {s : State} (h : acceptable i s = true) : exec i s = .next (accepted i s) := by
  obtain ⟨hb, hinit, hother⟩ := acceptable_iff.mp h
  rw [exec_eq]
  by_cases hi : i = .init
  · obtain ⟨hd, ha⟩ := hinit hi
    rw [if_pos hi, acceptInit, if_neg (by simp [hb]), if_neg (by simp [hd]), if_neg ha]; rfl
  · have hd := hother hi
    simp [hi, acceptCommand, accepted, hb, hd]

/-! ### STATUS (R20–R24) -/

theorem hostWrite_offStatus (w : Word) (s : State) : hostWrite offStatus w s = .next (hostWriteStatus w s) := rfl

/-- The STATUS word, bit by bit (R20). -/
theorem statusWord_getLsbD (s : State) (j : Nat) :
    (statusWord s).getLsbD j =
      match j with
      | 0 => busy s
      | 1 => s.initDone
      | 2 => s.cmdErr
      | 3 => false
      | j + 4 => (errNumber s.errCode).getLsbD j := by
  simp only [statusWord, BitVec.getLsbD_or, BitVec.getLsbD_shiftLeft, BitVec.getLsbD_setWidth, BitVec.getLsbD_ofBool]
  match j with
  | 0 | 1 | 2 | 3 => simp
  | j + 4 =>
    by_cases hj : j < 4
    · simp [hj, show j < 32 by omega, show j + 4 < 32 by omega]
    · simp [BitVec.getLsbD_of_ge (errNumber s.errCode) j (by omega)]

/-- The bits of STATUS from 8 on are reserved and read 0 (R20, R28). -/
theorem statusWord_getLsbD_high (s : State) {j : Nat} (h : 8 ≤ j) : (statusWord s).getLsbD j = false := by
  obtain ⟨k, rfl⟩ := Nat.exists_eq_add_of_le' (show 4 ≤ j by omega)
  rw [statusWord_getLsbD]
  exact BitVec.getLsbD_of_ge _ _ (by omega)

/-- ERRCODE stands in bits 7:4 of STATUS (R24). -/
theorem statusWord_errNumber (s : State) : (statusWord s).extractLsb' 4 4 = errNumber s.errCode := by
  apply BitVec.eq_of_getLsbD_eq
  intro j hj
  rw [BitVec.getLsbD_extractLsb', Nat.add_comm, statusWord_getLsbD]
  simp [hj]

/-! ### Offsets (R17, R28, R62) -/

theorem hostReg_reserved {off : Offset} (hlo : 0x010 ≤ off.toNat) (hhi : off.toNat ≤ 0x0FF) :
    hostReg off = .reserved := by
  revert off; decide

/-- The two low bits of an offset are ignored (R62). -/
theorem hostReg_congr {off off' : Offset} (h : off.extractLsb' 2 7 = off'.extractLsb' 2 7) :
    hostReg off = hostReg off' := by
  simp only [hostReg, h]

theorem hostWrite_congr {off off' : Offset} (w : Word) (s : State) (h : hostReg off = hostReg off') :
    hostWrite off w s = hostWrite off' w s := by
  simp only [hostWrite, h]

theorem hostRead_congr {off off' : Offset} (s : State) (h : hostReg off = hostReg off') :
    hostRead off s = hostRead off' s := by
  simp only [hostRead, readReg, h]

theorem hostWrite_reserved {off : Offset} (w : Word) (s : State) (h : hostReg off = .reserved) :
    hostWrite off w s = .next s := by
  simp only [hostWrite, h]

theorem hostRead_reserved {off : Offset} (s : State) (h : hostReg off = .reserved) :
    hostRead off s = { s with hostData := 0 } := by
  simp only [hostRead, readReg, h]

/-! ### What an event leaves alone -/

/-- The peripheral's configuration and RDATA: the registers only the sequencer writes (R27, R34–R36). -/
def sequencerRegs (s : State) : BitVec Config.divW × Bool × LineDir × LineDir × Word :=
  (s.div, s.master, s.dirScl, s.dirSda, s.rdata)

theorem sequencerRegs_hostWrite {off : Offset} {w : Word} {s t : State} (h : hostWrite off w s = .next t) :
    sequencerRegs t = sequencerRegs s := by
  rcases hostWrite_cases h with
    rfl | ⟨c, rfl⟩ | ⟨i, -, -, -, rfl⟩ | ⟨-, rfl⟩ | ⟨-, -, rfl⟩ | ⟨k, -, -, rfl⟩
  case inr.inl => simp [sequencerRegs]
  all_goals rfl

/-- No event but a sequencer step or a reset writes the sequencer's registers. -/
theorem sequencerRegs_of_ne_sequencer {e : Event} {s t : State} (h : runEvent e s = .next t) (hr : e ≠ .reset)
    (hs : e ≠ .sequencer) : sequencerRegs t = sequencerRegs s := by
  cases e with
  | hostWrite off w => exact sequencerRegs_hostWrite h
  | hostRead off =>
    obtain ⟨v, n, hv⟩ := hostRead_frame off s
    cases h
    rw [hv]; rfl
  | sequencer => exact absurd rfl hs
  | peripheral b k =>
    cases h
    rw [periphComplete_eq]; rfl
  | reset => exact absurd rfl hr

/-- A µop that writes one of the sequencer's registers is CONFIGURE or CAPTURE (R110, R114). -/
theorem sequencerRegs_runUop {u : Uop} (s : State) (hconf : ∀ d, u ≠ .configure d) (hcap : u ≠ .capture) :
    sequencerRegs (runUop u s) = sequencerRegs s := by
  cases u with
  | cond c => cases c <;> simp only [sequencerRegs, runUop_condStart, runUop_condRestart, runUop_condStop]
  | capture => exact absurd rfl hcap
  | configure d => exact absurd rfl (hconf d)
  | _ =>
    simp only [sequencerRegs, runUop_waitIdle, runUop_loadLit, runUop_loadMem, runUop_rcvEn, runUop_ackLit,
      runUop_ackPol, runUop_polMem, runUop_storeMem]

/-- Where one of the sequencer's registers changes, the event is a sequencer step with CONFIGURE or CAPTURE at the head. -/
theorem sequencerRegs_changed {e : Event} {s t : State} (h : runEvent e s = .next t) (hr : e ≠ .reset)
    (hne : sequencerRegs t ≠ sequencerRegs s) :
    e = .sequencer ∧ ∃ u rest, s.uops = u :: rest ∧ t = { runUop u s with uops := rest } ∧
      ((∃ d, u = .configure d) ∨ u = .capture) := by
  have hs : e = .sequencer := by
    by_contra hs
    exact hne (sequencerRegs_of_ne_sequencer h hr hs)
  subst hs
  simp only [runEvent, Host.Outcome.next.injEq] at h
  rcases sequencerStep_cases s with ⟨-, hq⟩ | ⟨u, rest, hu, -, hq⟩
  · exact absurd (by rw [← h, hq]) hne
  · refine ⟨rfl, u, rest, hu, h.symm.trans hq, ?_⟩
    by_contra hcon
    simp only [not_or, not_exists] at hcon
    have hkeep : sequencerRegs (sequencerStep s) = sequencerRegs s := by
      rw [hq]; exact sequencerRegs_runUop s hcon.1 hcon.2
    exact hne (by rw [← h, hkeep])

/-- Only a host write can change INIT_DONE, a reset aside. -/
theorem initDone_of_not_hostWrite {e : Event} {s t : State} (h : runEvent e s = .next t) (hr : e ≠ .reset)
    (hw : isHostWrite e = false) : t.initDone = s.initDone := by
  cases e with
  | hostWrite off w => cases hw
  | hostRead off =>
    obtain ⟨v, n, hv⟩ := hostRead_frame off s
    cases h
    rw [hv]
  | sequencer =>
    cases h
    rcases sequencerStep_cases s with ⟨-, hq⟩ | ⟨u, rest, -, -, hq⟩
    · rw [hq]
    · obtain ⟨-, -, hd, -⟩ := runUop_frame u s
      rw [hq]; exact hd
  | peripheral b k =>
    cases h
    rw [periphComplete_eq]
  | reset => exact absurd rfl hr

/-- A host write that changes INIT_DONE is the acceptance of INIT (R22, R101). -/
theorem hostWrite_initDone_changed {off : Offset} {w : Word} {s t : State} (h : hostWrite off w s = .next t)
    (hne : t.initDone ≠ s.initDone) :
    hostReg off = .cmd ∧ decode w = .ok .init ∧ acceptable .init s = true ∧ t = accepted .init s := by
  rcases hostWrite_cases h with
    rfl | ⟨c, rfl⟩ | ⟨i, hoff, hd, ha, rfl⟩ | ⟨-, rfl⟩ | ⟨-, -, rfl⟩ | ⟨k, -, -, rfl⟩
  case inr.inl => exact absurd (reject_initDone s c) hne
  case inr.inr.inl =>
    have hi : i = .init := by
      by_contra hi
      obtain ⟨-, -, hother⟩ := acceptable_iff.mp ha
      exact hne (hother hi).symm
    subst hi
    exact ⟨hoff, hd, ha, rfl⟩
  all_goals exact absurd rfl hne

/-! ### The obligations about one event -/

/-- Settles O7: the event taken from the interleaving is the one put in front of it. -/
theorem stepRunsDecodedCommand : Obligations.StepRunsDecodedCommand := by
  have written : ∀ (s : State) (w : Word) (i : Instr), decode w = .ok i →
      step (pushEvent (.hostWrite offCmd w) s) = exec i s := fun s w i h => by
    rw [step_pushEvent, runEvent, hostWrite_offCmd, hostWriteCmd_of_decode s h]
  exact ⟨written, fun s nbits w i h => written s _ i (decode_of_decodeTableWord h)⟩

/-- Settles O46, by the two values of bit 2. -/
theorem statusWriteClears : Obligations.StatusWriteClears := by
  intro w s
  rw [hostWrite_offStatus]
  constructor
  · intro h
    rw [hostWriteStatus, if_pos h]; rfl
  · intro h
    rw [hostWriteStatus, if_neg (Bool.eq_false_iff.mp h)]

/-- Settles O37: nothing is listed, pending, issued or rejected at reset. -/
theorem resetMeetsInvariant : Obligations.ResetMeetsInvariant where
  dmemWf := reset_dmem_wf
  latch := by simp [latchConsistent, State.reset]
  issueGuarded := rfl
  receive := ⟨rfl, nofun⟩
  quiet := fun _ => ⟨rfl, rfl, rfl, rfl, rfl⟩
  alone := fun _ hd => nomatch hd
  framed := rfl
  pendLast := .inl rfl

/-- Settles O47, from the STATUS word's bits. -/
theorem statusFields : Obligations.StatusFields := by
  intro s
  simp only [hostRead_offStatus]
  refine ⟨?_, statusWord_getLsbD s 1, statusWord_getLsbD s 2, statusWord_getLsbD s 3,
    fun j hj => statusWord_getLsbD_high s hj, fun p hp hcode => ?_⟩
  · rw [statusWord_bit0, Bool.eq_iff_iff, busy_eq_true, decide_eq_true_eq]
  · have number : ∀ p ∈ [(ErrCode.none, 0), (.illegalOp, 1), (.rsvdField, 2), (.overrun, 3), (.notInit, 4),
        (.reinit, 5), (.rateZero, 6), (.dmemBusy, (7 : BitVec 4))], errNumber p.1 = p.2 := by decide
    rw [statusWord_errNumber, hcode, number p hp]

/-- Settles O48: what an offset names depends on its bits 8:2 alone, and the reserved ones name nothing. -/
theorem reservedOffsets : Obligations.ReservedOffsets := by
  refine ⟨fun off w s hlo hhi => ?_, fun s j hj => ?_, fun off off' w s h => ?_⟩
  · have hres := hostReg_reserved hlo hhi
    exact ⟨hostWrite_reserved w s hres, hostRead_reserved s hres⟩
  · rw [hostRead_offStatus]
    rcases hj with rfl | hj
    · exact statusWord_getLsbD s 3
    · exact statusWord_getLsbD_high s hj
  · exact ⟨hostWrite_congr w s (hostReg_congr h), hostRead_congr s (hostReg_congr h)⟩

/-- Settles O39: only a host write changes INIT_DONE, only by the acceptance of INIT, and INIT has one word. -/
theorem initDoneOnlyByInit : Obligations.InitDoneOnlyByInit := by
  intro e s t h hr hne
  cases e with
  | hostWrite off w =>
    obtain ⟨hoff, hd, ha, rfl⟩ := hostWrite_initDone_changed h hne
    obtain ⟨hb, hinit, -⟩ := acceptable_iff.mp ha
    obtain ⟨hdone, harg⟩ := hinit rfl
    have hw : w = 0x00000001 := (encode_of_decode hd).symm
    exact ⟨hdone, rfl, hb, harg, off, hoff, by rw [hw]⟩
  | _ => exact absurd (initDone_of_not_hostWrite h hr rfl) hne

/-- Settles O42: of the two µops that write a register of the sequencer, CAPTURE leaves the configuration alone. -/
theorem configurationOnlyByConfigure : Obligations.ConfigurationOnlyByConfigure := by
  intro e s t h hr hne
  have hregs : sequencerRegs t ≠ sequencerRegs s := by
    intro heq
    simp only [sequencerRegs, Prod.mk.injEq] at heq
    obtain ⟨hdiv, hmaster, hscl, hsda, -⟩ := heq
    rcases hne with hne | hne | hne | hne
    · exact hne hdiv
    · exact hne hmaster
    · exact hne hscl
    · exact hne hsda
  obtain ⟨rfl, u, rest, hu, ht, ⟨d, rfl⟩ | rfl⟩ := sequencerRegs_changed h hr hregs
  · exact ⟨rfl, d, rest, hu⟩
  · subst ht
    simp [runUop_capture] at hne

/-- Settles O43: of the two µops that write a register of the sequencer, CONFIGURE leaves RDATA alone. -/
theorem rdataOnlyByCapture : Obligations.RdataOnlyByCapture := by
  intro e s t h hr hne
  have hregs : sequencerRegs t ≠ sequencerRegs s := by
    intro heq
    simp only [sequencerRegs, Prod.mk.injEq] at heq
    obtain ⟨-, -, -, -, hrdata⟩ := heq
    exact hne hrdata
  obtain ⟨rfl, u, rest, hu, rfl, ⟨d, rfl⟩ | rfl⟩ := sequencerRegs_changed h hr hregs
  · simp [runUop_configure] at hne
  · exact ⟨rfl, ⟨rest, hu⟩, by simp [runUop_capture, signedByte]⟩

end Sys2Proof.Machine
end

section
/-! PROOFS. What a run of a command keeps. `RunKeeps` says of a predicate what the three kinds of event in a run do to it;
`finish_keeps` is the one induction over a run's events (R74, R103, R115, R116). -/

namespace Sys2Proof.Machine

open Sys2Proof

/-- A predicate of the bytes received so far and the state that every event of a running command keeps: host accesses, µops,
receives and the peripheral's other completions. -/
structure RunKeeps (P : List Byte → State → Prop) : Prop where
  host : ∀ {bs s t}, runView t = runView s → t.uops = s.uops → P bs s → P bs t
  uop : ∀ {bs s u rest}, s.uops = u :: rest → P bs s → P bs { runUop u s with uops := rest }
  receive : ∀ {bs s} (b : Byte), s.pend = some .rcv → P bs s → P (bs ++ [b]) { s with pend := none, shiftBuf := b }
  complete : ∀ {bs s}, s.pend ≠ some .rcv → P bs s → P bs { s with pend := none }

/-- An event of a running command delivers what it delivers and keeps the predicate. -/
theorem RunKeeps.event {P : List Byte → State → Prop} (hP : RunKeeps P) {bs : List Byte} {e : Event} {s t : State}
    (hb : s.uops ≠ []) (hr : e ≠ .reset) (h : runEvent e s = .next t) (hs : P bs s) : P (bs ++ delivered e s) t := by
  cases e with
  | hostWrite off w =>
    obtain ⟨hv, hu⟩ := host_busy (e := .hostWrite off w) rfl hb h
    simpa [delivered] using hP.host hv hu hs
  | hostRead off =>
    obtain ⟨hv, hu⟩ := host_busy (e := .hostRead off) rfl hb h
    simpa [delivered] using hP.host hv hu hs
  | sequencer =>
    cases h
    rcases sequencerStep_cases s with ⟨-, hq⟩ | ⟨u, rest, hu, -, hq⟩
    · simpa [delivered, hq] using hs
    · simpa [delivered, hq] using hP.uop hu hs
  | peripheral b k =>
    cases h
    rw [periphComplete_eq]
    by_cases hrcv : s.pend = some .rcv
    · simpa [delivered, hrcv] using hP.receive b hrcv hs
    · simpa [delivered, hrcv] using hP.complete hrcv hs
  | reset => exact absurd rfl hr

/-- A run of a command to its completion keeps the predicate, and leaves no µop. -/
theorem finish_keeps {P : List Byte → State → Prop} (hP : RunKeeps P) {es : List Event} {bs : List Byte} {s u : State}
    (h : finish es s = some u) (hs : P bs s) : u.uops = [] ∧ P (bs ++ receivedBytes es s) u := by
  induction es generalizing bs s with
  | nil =>
    unfold finish at h
    split at h
    · rename_i hn
      cases h
      exact ⟨hn, by simpa [receivedBytes] using hs⟩
    · cases h
  | cons e es ih =>
    obtain ⟨hb, hr, t, ht, hf⟩ := finish_cons h
    have := ih hf (hP.event hb hr ht hs)
    simpa only [receivedBytes, ht, List.append_assoc] using this

/-! ### FRAMING (R42, R107) -/

/-- The framing after a µop. -/
def framingUop (f : Framing) : Uop → Framing
  | .cond .start | .cond .restart => .busOpen
  | .cond .stop => .busFree
  | .waitIdle | .loadLit _ | .loadMem _ | .rcvEn | .capture | .ackLit _ | .ackPol | .polMem _ | .storeMem _
  | .configure _ => f

theorem runUop_framing (u : Uop) (s : State) : (runUop u s).framing = framingUop s.framing u := by
  cases u with
  | cond c => cases c <;> simp only [runUop_condStart, runUop_condRestart, runUop_condStop, framingUop]
  | _ =>
    simp only [runUop_waitIdle, runUop_loadLit, runUop_loadMem, runUop_rcvEn, runUop_capture, runUop_ackLit,
      runUop_ackPol, runUop_polMem, runUop_storeMem, runUop_configure, framingUop]

/-- The framing the µops left will leave does not change in a run. -/
theorem runKeeps_framing (f : Framing) : RunKeeps fun _ s => s.uops.foldl framingUop s.framing = f where
  host hv hu hs := by
    have hf := congrArg State.framing hv
    simp only [runView] at hf
    rw [hu, hf]; exact hs
  uop {_ s u rest} hu hs := by
    rw [hu] at hs
    simpa only [runUop_framing, List.foldl_cons] using hs
  receive _ _ hs := hs
  complete _ hs := hs

theorem finish_framing {es : List Event} {s u : State} (h : finish es s = some u) :
    u.framing = s.uops.foldl framingUop s.framing := by
  obtain ⟨hu, hf⟩ := finish_keeps (runKeeps_framing _) (bs := []) h rfl
  simpa only [hu, List.foldl_nil] using hf

/-! ### The DMEM bytes a list reads (R108, R112, R113) -/

/-- The DMEM address a µop reads, if it reads one. -/
def Uop.readAddr : Uop → Option Byte
  | .loadMem x | .polMem x => some x
  | .waitIdle | .cond _ | .loadLit _ | .rcvEn | .capture | .ackLit _ | .ackPol | .storeMem _ | .configure _ => none

/-- No µop of the list reads a byte that a µop before it in the list stores. -/
def readsUnstored : List Uop → Prop
  | [] => True
  | u :: us => (∀ x, u = .storeMem x → ∀ v ∈ us, v.readAddr ≠ some x) ∧ readsUnstored us

/-- Whatever byte the µops left read, they read it as `m` has it. -/
structure ReadsAs (m : Byte → Byte) (s : State) : Prop where
  unstored : readsUnstored s.uops
  known : ∀ v ∈ s.uops, ∀ x, v.readAddr = some x → s.dmem.read x.toNat = some (m x)

theorem ReadsAs.congr {m : Byte → Byte} {s t : State} (h : ReadsAs m s) (hu : t.uops = s.uops)
    (hd : t.dmem = s.dmem) : ReadsAs m t :=
  ⟨by rw [hu]; exact h.unstored, by rw [hu, hd]; exact h.known⟩

theorem ReadsAs.of_runView {m : Byte → Byte} {s t : State} (h : ReadsAs m s) (hv : runView t = runView s)
    (hu : t.uops = s.uops) : ReadsAs m t := by
  have hd := congrArg State.dmem hv
  exact h.congr hu hd

/-- A µop that is no STOREMEM leaves DMEM alone (R113). -/
theorem runUop_dmem {u : Uop} (s : State) (h : ∀ x, u ≠ .storeMem x) : (runUop u s).dmem = s.dmem := by
  cases u with
  | cond c => cases c <;> simp only [runUop_condStart, runUop_condRestart, runUop_condStop]
  | storeMem x => exact absurd rfl (h x)
  | _ =>
    simp only [runUop_waitIdle, runUop_loadLit, runUop_loadMem, runUop_rcvEn, runUop_capture, runUop_ackLit,
      runUop_ackPol, runUop_polMem, runUop_configure]

theorem ReadsAs.uop {m : Byte → Byte} {s : State} {u : Uop} {rest : List Uop} (h : ReadsAs m s)
    (hu : s.uops = u :: rest) : ReadsAs m { runUop u s with uops := rest } := by
  obtain ⟨huns, hknown⟩ := h
  rw [hu] at huns hknown
  obtain ⟨hstored, hrest⟩ := huns
  refine ⟨hrest, fun v hv x hx => ?_⟩
  have hold := hknown v (List.mem_cons_of_mem _ hv) x hx
  by_cases hst : ∃ y, u = .storeMem y
  · obtain ⟨y, rfl⟩ := hst
    have hne : x ≠ y := fun hxy => hstored y rfl v hv (hxy ▸ hx)
    rw [runUop_storeMem]
    exact (Memory.read_write_other _ _ (fun heq => hne (BitVec.eq_of_toNat_eq heq))).trans hold
  · show (runUop u s).dmem.read x.toNat = some (m x)
    rw [runUop_dmem s (not_exists.mp hst)]; exact hold

/-! ### ACKDT and POL (R37, R111, R112, R114) -/

/-- ACKDT and POL after a µop, where DMEM reads as `m`. -/
def ackUop (m : Byte → Byte) (a : Bool × Bool) : Uop → Bool × Bool
  | .ackLit k => (k, a.2)
  | .ackPol => (a.2, a.2)
  | .polMem x => (a.1, ackBit (m x))
  | .configure _ => (false, a.2)
  | .waitIdle | .cond _ | .loadLit _ | .loadMem _ | .rcvEn | .capture | .storeMem _ => a

theorem runUop_ack {m : Byte → Byte} {u : Uop} {s : State}
    (h : ∀ x, u.readAddr = some x → s.dmem.read x.toNat = some (m x)) :
    ((runUop u s).ackdt, (runUop u s).pol) = ackUop m (s.ackdt, s.pol) u := by
  cases u with
  | cond c => cases c <;> simp only [runUop_condStart, runUop_condRestart, runUop_condStop, ackUop]
  | polMem x => simp only [runUop_polMem, ackUop, h x rfl, Option.getD_some]
  | _ =>
    simp only [runUop_waitIdle, runUop_loadLit, runUop_loadMem, runUop_rcvEn, runUop_capture, runUop_ackLit,
      runUop_ackPol, runUop_storeMem, runUop_configure, ackUop]

/-- ACKDT and POL as the µops left will leave them do not change in a run. -/
theorem runKeeps_ack (m : Byte → Byte) (a : Bool × Bool) :
    RunKeeps fun _ s => ReadsAs m s ∧ s.uops.foldl (ackUop m) (s.ackdt, s.pol) = a where
  host hv hu hs := by
    have hk := congrArg State.ackdt hv
    have hp := congrArg State.pol hv
    simp only [runView] at hk hp
    exact ⟨hs.1.of_runView hv hu, by rw [hu, hk, hp]; exact hs.2⟩
  uop {_ s u rest} hu hs := by
    obtain ⟨hm, ha⟩ := hs
    refine ⟨hm.uop hu, ?_⟩
    have hread := hm.known u (by simp [hu])
    rw [hu, List.foldl_cons, ← runUop_ack hread] at ha
    exact ha
  receive _ _ hs := ⟨hs.1.congr rfl rfl, hs.2⟩
  complete _ hs := ⟨hs.1.congr rfl rfl, hs.2⟩

theorem finish_ack {m : Byte → Byte} {es : List Event} {s u : State} (hm : ReadsAs m s) (h : finish es s = some u) :
    (u.ackdt, u.pol) = s.uops.foldl (ackUop m) (s.ackdt, s.pol) := by
  obtain ⟨hu, -, ha⟩ := finish_keeps (runKeeps_ack m _) (bs := []) h ⟨hm, rfl⟩
  simpa only [hu, List.foldl_nil] using ha

/-! ### SHIFTBUF (R38, R108, R116) -/

/-- The µop loads the shift buffer (R108). -/
def Uop.loads : Uop → Bool
  | .loadLit _ | .loadMem _ => true
  | .waitIdle | .cond _ | .rcvEn | .capture | .ackLit _ | .ackPol | .polMem _ | .storeMem _ | .configure _ => false

/-- The shift buffer after a µop, where DMEM reads as `m`. -/
def loadUop (m : Byte → Byte) (b : Byte) : Uop → Byte
  | .loadLit c => c
  | .loadMem x => m x
  | .waitIdle | .cond _ | .rcvEn | .capture | .ackLit _ | .ackPol | .polMem _ | .storeMem _ | .configure _ => b

/-- No µop of the list loads the shift buffer. -/
def noLoads (us : List Uop) : Bool := us.all fun u => !u.loads

/-- Every load of the list comes before every receive of it. -/
def loadsFirst : List Uop → Bool
  | [] => true
  | u :: us => (decide (u ≠ .rcvEn) || noLoads us) && loadsFirst us

theorem foldl_loadUop_of_noLoads {us : List Uop} (m : Byte → Byte) (b : Byte) (h : noLoads us = true) :
    us.foldl (loadUop m) b = b := by
  induction us with
  | nil => rfl
  | cons u us ih =>
    simp only [noLoads, List.all_cons, Bool.and_eq_true, Bool.not_eq_true'] at h
    have hu : loadUop m b u = b := by
      cases u with
      | loadLit c => exact absurd h.1 (by simp [Uop.loads])
      | loadMem x => exact absurd h.1 (by simp [Uop.loads])
      | _ => rfl
    rw [List.foldl_cons, hu]
    exact ih h.2

theorem runUop_shiftBuf {m : Byte → Byte} {u : Uop} {s : State}
    (h : ∀ x, u.readAddr = some x → s.dmem.read x.toNat = some (m x)) :
    (runUop u s).shiftBuf = loadUop m s.shiftBuf u := by
  cases u with
  | cond c => cases c <;> simp only [runUop_condStart, runUop_condRestart, runUop_condStop, loadUop]
  | loadMem x => simp only [runUop_loadMem, loadUop, h x rfl, Option.getD_some]
  | _ =>
    simp only [runUop_waitIdle, runUop_loadLit, runUop_rcvEn, runUop_capture, runUop_ackLit, runUop_ackPol,
      runUop_polMem, runUop_storeMem, runUop_configure, loadUop]

/-- While a command whose loads come before its receives runs, no load is left once a receive is enabled, and the µops left will leave
the last byte received, or `b` before the first. -/
structure ShiftBufAs (m : Byte → Byte) (b : Byte) (bs : List Byte) (s : State) : Prop where
  reads : ReadsAs m s
  ordered : loadsFirst s.uops = true
  receiving : s.pend = some .rcv → noLoads s.uops = true
  value : s.uops.foldl (loadUop m) s.shiftBuf = bs.getLast?.getD b

theorem runKeeps_shiftBuf (m : Byte → Byte) (b : Byte) : RunKeeps (ShiftBufAs m b) where
  host hv hu hs := by
    have hsh := congrArg State.shiftBuf hv
    simp only [runView] at hsh
    exact ⟨hs.reads.of_runView hv hu, by rw [hu]; exact hs.ordered, by rw [hu, runView_pend hv]; exact hs.receiving,
      by rw [hu, hsh]; exact hs.value⟩
  uop {bs s u rest} hu hs := by
    obtain ⟨hm, hfirst, hrcv, hval⟩ := hs
    have hread := hm.known u (by simp [hu])
    rw [hu] at hfirst hrcv hval
    simp only [loadsFirst, Bool.and_eq_true, Bool.or_eq_true, decide_eq_true_eq] at hfirst
    refine ⟨hm.uop hu, hfirst.2, fun hp => ?_, ?_⟩
    · rcases runUop_rcv hp with rfl | ⟨hp, -⟩
      · exact hfirst.1.resolve_left (not_not.mpr rfl)
      · have hno := hrcv hp
        simp only [noLoads, List.all_cons, Bool.and_eq_true] at hno
        exact hno.2
    · rw [List.foldl_cons, ← runUop_shiftBuf hread] at hval
      exact hval
  receive {bs s} b' hp hs := by
    refine ⟨hs.reads.congr rfl rfl, hs.ordered, nofun, ?_⟩
    rw [List.getLast?_concat]
    exact foldl_loadUop_of_noLoads m b' (hs.receiving hp)
  complete _ hs := ⟨hs.reads.congr rfl rfl, hs.ordered, nofun, hs.value⟩

theorem finish_shiftBuf {m : Byte → Byte} {es : List Event} {s u : State} (hm : ReadsAs m s)
    (hfirst : loadsFirst s.uops = true) (hp : s.pend ≠ some .rcv) (h : finish es s = some u) :
    u.shiftBuf = (receivedBytes es s).getLast?.getD (s.uops.foldl (loadUop m) s.shiftBuf) := by
  obtain ⟨hu, hs⟩ := finish_keeps (runKeeps_shiftBuf m _) (bs := []) h ⟨hm, hfirst, fun hr => absurd hr hp, rfl⟩
  simpa only [hu, List.foldl_nil, List.nil_append] using hs.value

end Sys2Proof.Machine
end

section
/-! PROOFS. What the µop lists of R102 leave of FRAMING, ACKDT and SHIFTBUF, the bursts by induction on their addresses; and the
obligations about them (R37, R38, R42). -/

namespace Sys2Proof.Machine

open Sys2Proof

/-! ### Operands -/

theorem ackBit_eq (p : Byte) : ackBit p = decide (p ≠ 0) := by
  rw [Bool.eq_iff_iff]; simp [ackBit]

/-- The address byte as R144 writes it. -/
theorem addressByte_eq (a : Byte) (d : Dir) : addressByte a d = BitVec.ofNat 8 (a.toNat + d.toNat) := by
  apply BitVec.eq_of_toNat_eq
  have hd : d.toNat < 2 := d.isLt
  simp only [addressByte, BitVec.toNat_add, BitVec.toNat_setWidth, BitVec.toNat_ofNat]
  omega

theorem addressByte_dirWrite (a : Byte) : addressByte a dirWrite = a := by
  simp [addressByte, dirWrite]

theorem addressByte_dirRead (a : Byte) : addressByte a dirRead = BitVec.ofNat 8 (a.toNat + 1) :=
  addressByte_eq a dirRead

theorem read_of_written {s : State} {x : Byte} (h : written s x = true) :
    s.dmem.read x.toNat = some (byteAt s x) := by
  obtain ⟨v, hv⟩ := Option.isSome_iff_exists.mp h
  simp [byteAt, hv]

/-- The addresses of a burst are distinct: it has at most 255 of them (R67). -/
theorem burstList_nodup (base len : Byte) : (burstList base len).Nodup := by
  refine List.Nodup.map_on (fun i hi j hj hij => ?_) List.nodup_range
  have hlen := len.isLt
  rw [List.mem_range] at hi hj
  have := congrArg BitVec.toNat (add_left_cancel hij)
  simp only [BitVec.toNat_ofNat] at this
  omega

/-- The last address of a burst is `base + (len - 1)`. -/
theorem burstList_getLast? (base len : Byte) :
    (burstList base len).getLast? = if len = 0 then none else some (base + (len - 1)) := by
  by_cases h : len = 0
  · simp [h, burstList]
  · have hpos : len.toNat ≠ 0 := fun h0 => h (BitVec.eq_of_toNat_eq h0)
    obtain ⟨n, hn⟩ := Nat.exists_eq_succ_of_ne_zero hpos
    have hlast : BitVec.ofNat 8 n = len - 1 := by
      have hlen := len.isLt
      apply BitVec.eq_of_toNat_eq
      rw [BitVec.toNat_sub, BitVec.toNat_ofNat, show (1 : Byte).toNat = 1 from rfl]
      omega
    rw [if_neg h, burstList, hn, List.range_succ, List.map_append, List.map_singleton, List.getLast?_concat, burstAddr,
      hlast]

/-! ### Bursts -/

/-- A burst whose every part leaves a value as it is leaves it as it is. -/
theorem foldl_burst_id {α : Type} {g : α → Uop → α} {f : Byte → List Uop} (hf : ∀ x a, (f x).foldl g a = a)
    (xs : List Byte) (a : α) : (xs.flatMap f).foldl g a = a := by
  induction xs with
  | nil => rfl
  | cons x xs ih => rw [List.flatMap_cons, List.foldl_append, hf, ih]

/-- The payload of WRITECOMPLETE loads its last byte last (R147). -/
theorem foldl_loadUop_payload (m : Byte → Byte) (xs : List Byte) (b : Byte) :
    (xs.flatMap payloadP).foldl (loadUop m) b = (xs.getLast?.map m).getD b := by
  induction xs generalizing b with
  | nil => rfl
  | cons x xs ih =>
    rw [List.flatMap_cons, List.foldl_append, ih, List.getLast?_cons]
    cases xs.getLast? <;> rfl

/-- The slots of READCOMPLETE leave the policy of the last one in ACKDT and POL (R150, R152). -/
theorem foldl_ackUop_slots (m : Byte → Byte) (xs : List Byte) (a : Bool × Bool) :
    (xs.flatMap slotP).foldl (ackUop m) a = (xs.getLast?.map fun x => (ackBit (m x), ackBit (m x))).getD a := by
  induction xs generalizing a with
  | nil => rfl
  | cons x xs ih =>
    rw [List.flatMap_cons, List.foldl_append, ih, List.getLast?_cons]
    cases xs.getLast? <;> rfl

theorem noLoads_slots (xs : List Byte) (rest : List Uop) (h : noLoads rest = true) :
    noLoads (xs.flatMap slotP ++ rest) = true := by
  induction xs with
  | nil => exact h
  | cons x xs ih => simpa [noLoads, slotP, Uop.loads] using ih

theorem loadsFirst_of_noLoads {us : List Uop} (h : noLoads us = true) : loadsFirst us = true := by
  induction us with
  | nil => rfl
  | cons u us ih =>
    simp only [noLoads, List.all_cons, Bool.and_eq_true] at h
    simp [loadsFirst, noLoads, h.2, ih h.2]

theorem loadsFirst_payload (xs : List Byte) (rest : List Uop) (h : loadsFirst rest = true) :
    loadsFirst (xs.flatMap payloadP ++ rest) = true := by
  induction xs with
  | nil => exact h
  | cons x xs ih => simpa [loadsFirst, payloadP] using ih

/-- The slots of READCOMPLETE read their own bytes, in order (R152). -/
theorem readAddrs_slots (xs : List Byte) : (xs.flatMap slotP).filterMap Uop.readAddr = xs := by
  induction xs with
  | nil => rfl
  | cons x xs ih => rw [List.flatMap_cons, List.filterMap_append, ih]; rfl

/-- The payload of WRITECOMPLETE reads its bytes, in order (R147). -/
theorem readAddrs_payload (xs : List Byte) : (xs.flatMap payloadP).filterMap Uop.readAddr = xs := by
  induction xs with
  | nil => rfl
  | cons x xs ih => rw [List.flatMap_cons, List.filterMap_append, ih]; rfl

/-- A slot stores the byte it has read; the slots after it read others (R151). -/
theorem readsUnstored_slots {xs : List Byte} (h : xs.Nodup) : readsUnstored (xs.flatMap slotP ++ stopP) := by
  induction xs with
  | nil => simp [readsUnstored, stopP]
  | cons x xs ih =>
    obtain ⟨hx, hxs⟩ := List.nodup_cons.mp h
    have hlater : ∀ v ∈ xs.flatMap slotP ++ stopP, v.readAddr ≠ some x := by
      intro v hv hr
      have hmem := List.mem_filterMap.mpr ⟨v, hv, hr⟩
      rw [List.filterMap_append, readAddrs_slots] at hmem
      exact hx (by simpa [stopP, Uop.readAddr] using hmem)
    rw [List.flatMap_cons, List.append_assoc]
    refine ⟨nofun, nofun, nofun, nofun, nofun, nofun, nofun, ?_, ih hxs⟩
    rintro y ⟨⟩
    exact hlater

theorem readsUnstored_of_no_store {us : List Uop} (h : ∀ x, Uop.storeMem x ∉ us) : readsUnstored us := by
  induction us with
  | nil => trivial
  | cons u us ih =>
    refine ⟨?_, ih fun x hx => h x (List.mem_cons_of_mem _ hx)⟩
    rintro x rfl
    exact absurd List.mem_cons_self (h x)

/-! ### The commands -/

/-- FRAMING after a command's list (R126–R128, R145–R150). -/
theorem expand_framing (i : Instr) (arg : Word) (f : Framing) :
    (expand i arg).foldl framingUop f = framingAfter i f := by
  cases i with
  | writeComplete a base len =>
    simp only [expand, writeCompleteP, burstP_eq, List.foldl_append,
      foldl_burst_id (f := payloadP) (g := framingUop) fun _ _ => rfl]
    rfl
  | readComplete a base len =>
    simp only [expand, readCompleteP, burstP_eq, List.foldl_append,
      foldl_burst_id (f := slotP) (g := framingUop) fun _ _ => rfl]
    rfl
  | _ => rfl

/-- ACKDT after a command's list (R120, R129, R130, R137, R149, R150). -/
theorem expand_ack (i : Instr) (s : State) :
    ((expand i s.arg).foldl (ackUop (byteAt s)) (s.ackdt, s.pol)).1 = ackdtAfter i s := by
  cases i with
  | writeComplete a base len =>
    simp only [expand, writeCompleteP, burstP_eq, List.foldl_append,
      foldl_burst_id (f := payloadP) (g := ackUop (byteAt s)) fun _ _ => rfl]
    rfl
  | readComplete a base len =>
    simp only [expand, readCompleteP, burstP_eq, List.foldl_append, foldl_ackUop_slots, burstList_getLast?, ackdtAfter]
    by_cases h : len = 0
    · rw [if_pos h, if_pos h]; rfl
    · rw [if_neg h, if_neg h, ← ackBit_eq]; rfl
  | read p => exact ackBit_eq p
  | readPlus p => exact ackBit_eq p
  | _ => rfl

/-- SHIFTBUF after the loads of a command's list (R135, R144–R150). -/
theorem expand_loads (i : Instr) (s : State) :
    (expand i s.arg).foldl (loadUop (byteAt s)) s.shiftBuf = (lastLoaded i s).getD s.shiftBuf := by
  cases i with
  | writeComplete a base len =>
    simp only [expand, writeCompleteP, callP, burstP_eq, List.foldl_append, foldl_loadUop_payload, burstList_getLast?,
      addressByte_dirWrite, lastLoaded]
    by_cases h : len = 0
    · rw [if_pos h, if_pos h]; rfl
    · rw [if_neg h, if_neg h]; rfl
  | readComplete a base len =>
    simp only [expand, readCompleteP, callP, burstP_eq, List.foldl_append,
      foldl_burst_id (f := slotP) (g := loadUop (byteAt s)) fun _ _ => rfl, addressByte_dirRead]
    rfl
  | callSlave a d => exact addressByte_eq a d
  | callSlavePlus a d => exact addressByte_eq a d
  | _ => rfl

/-- Every command loads before it receives. -/
theorem expand_loadsFirst (i : Instr) (arg : Word) : loadsFirst (expand i arg) = true := by
  cases i with
  | writeComplete a base len =>
    have hburst := loadsFirst_payload (burstList base len) stopP rfl
    simpa [expand, writeCompleteP, burstP_eq, startP, callP, writeP, loadsFirst] using hburst
  | readComplete a base len =>
    have hburst := loadsFirst_of_noLoads (noLoads_slots (burstList base len) stopP rfl)
    simpa [expand, readCompleteP, burstP_eq, startP, stopP, callP, writeP, payloadP, loadsFirst] using hburst
  | _ => rfl

/-- A command's list reads what `readAddrs` names, in order (R147, R150). -/
theorem expand_readAddrs (i : Instr) (arg : Word) : (expand i arg).filterMap Uop.readAddr = readAddrs i := by
  cases i with
  | writeComplete a base len =>
    simp only [expand, writeCompleteP, burstP_eq, List.filterMap_append, readAddrs_payload]
    exact List.append_nil (burstList base len)
  | readComplete a base len =>
    simp only [expand, readCompleteP, burstP_eq, List.filterMap_append, readAddrs_slots]
    exact List.append_nil (base :: burstList base len)
  | _ => rfl

/-- No command reads a byte it has stored (R151). -/
theorem expand_readsUnstored (i : Instr) (arg : Word) : readsUnstored (expand i arg) := by
  cases i with
  | readComplete a base len =>
    have hburst := readsUnstored_slots (burstList_nodup base len)
    simpa [expand, readCompleteP, burstP_eq, startP, stopP, callP, writeP, payloadP, readsUnstored] using hburst
  | _ =>
    refine readsUnstored_of_no_store fun x => ?_
    simp [expand, initP, waitP, startP, restartP, stopP, ackP, writeP, readP, callP, callPlusP, writePlusP, readPlusP,
      writeCompleteP, burstP, payloadP]

/-- A command whose operands are written reads them as they stand at its acceptance. -/
theorem readsAs_accepted {i : Instr} {s : State} (h : operandsWritten i s = true) :
    ReadsAs (byteAt s) (accepted i s) where
  unstored := expand_readsUnstored i s.arg
  known v hv x hx := by
    have hmem : x ∈ (expand i s.arg).filterMap Uop.readAddr := List.mem_filterMap.mpr ⟨v, hv, hx⟩
    rw [expand_readAddrs] at hmem
    exact read_of_written (List.all_eq_true.mp h x hmem)

/-! ### The obligations about a command's run -/

/-- Settles O20: a run folds the framing over the command's list. -/
theorem commandFraming : Obligations.CommandFraming := by
  intro i s ha
  refine ⟨exec_of_acceptable ha, fun es u h => ?_⟩
  rw [finish_framing h]
  exact expand_framing i s.arg s.framing

/-- Settles O23: a run folds ACKDT and POL over the command's list, its policy bytes as they stand at acceptance. -/
theorem commandAckdt : Obligations.CommandAckdt := by
  intro i s ha hw
  refine ⟨exec_of_acceptable ha, fun es u h => ?_⟩
  calc u.ackdt
      = ((expand i s.arg).foldl (ackUop (byteAt s)) (s.ackdt, s.pol)).1 :=
        congrArg Prod.fst (finish_ack (readsAs_accepted hw) h)
    _ = ackdtAfter i s := expand_ack i s

/-- Settles O24: every load of a command comes before its receives, and a receive overwrites what was loaded. -/
theorem commandShiftBuf : Obligations.CommandShiftBuf := by
  intro i s ha hw hp
  refine ⟨exec_of_acceptable ha, fun es u h => ?_⟩
  rw [finish_shiftBuf (readsAs_accepted hw) (expand_loadsFirst i s.arg) hp h, ← expand_loads i s]
  rfl

end Sys2Proof.Machine
end

section
/-! PROOFS. DMEM and the host port: who writes a DMEM byte, the bytes of a host word, what a µop reads where nothing was written,
and that host accesses leave a running command alone (R18, R19, R63–R69, R74–R76). -/

namespace Sys2Proof.Machine

open Sys2Proof

/-! ### The inbox (log entry 4) -/

/-- A step takes the first event lined up and performs it on the state with the rest. -/
theorem step_withInbox_cons (e : Event) (q : List Event) (s : State) :
    step { s with inbox := e :: q } = runEvent e { s with inbox := q } := rfl

/-- One more step of the core, over a line-up whose first event leads to `t`, is a run of the core from `t` over the rest. -/
theorem core_run_succ {e : Event} {s t : State} (n : Nat) (q : List Event) (h : runEvent e s = .next t) :
    core.run (n + 1) { s with inbox := e :: q } = core.run n { t with inbox := q } := by
  have hstep : core.step { s with inbox := e :: q } = .next { t with inbox := q } :=
    (step_withInbox_cons e q s).trans (runEvent_withInbox e s t q h)
  simp only [Host.Core.run, hstep]

/-! ### The command's view -/

/-- The command's view is the view of its run and its list. -/
theorem commandView_congr {s t : State} (hv : runView s = runView t) (hu : s.uops = t.uops) :
    commandView s = commandView t := by
  have split : ∀ s : State, commandView s = { runView s with uops := s.uops } := fun _ => rfl
  rw [split, split, hv, hu]

/-! ### The writers of DMEM (R68, R76) -/

/-- A host write leaves DMEM alone, or writes a word of it while the block is not busy (R68). -/
theorem hostWrite_dmem {off : Offset} {w : Word} {s t : State} (h : hostWrite off w s = .next t) :
    t.dmem = s.dmem ∨ ∃ k, hostReg off = .dmem k ∧ busy s = false ∧ t = writeDmemWord k w s := by
  rcases hostWrite_cases h with rfl | ⟨c, rfl⟩ | ⟨i, -, -, -, rfl⟩ | ⟨-, rfl⟩ | ⟨-, -, rfl⟩ | hk
  case inr.inl => exact .inl (reject_dmem s c)
  case inr.inr.inr.inr.inr => exact .inr hk
  all_goals exact .inl rfl

/-- A sequencer step leaves DMEM alone, or is a STOREMEM (R76, R113). -/
theorem sequencerStep_dmem (s : State) :
    (sequencerStep s).dmem = s.dmem ∨
      ∃ x rest, s.uops = .storeMem x :: rest ∧ (sequencerStep s).dmem = s.dmem.write x.toNat s.t := by
  rcases sequencerStep_cases s with ⟨-, hq⟩ | ⟨u, rest, hu, -, hq⟩
  · exact .inl (by rw [hq])
  · by_cases hst : ∃ x, u = .storeMem x
    · obtain ⟨x, rfl⟩ := hst
      exact .inr ⟨x, rest, hu, by rw [hq, runUop_storeMem]⟩
    · exact .inl (by rw [hq]; exact runUop_dmem s (not_exists.mp hst))

/-! ### The bytes of a DMEM word (R65) -/

/-- A DMEM byte outside the word written is as before. -/
theorem read_writeDmemWord_outside {k : BitVec 6} {a : Nat} (w : Word) (s : State)
    (h : a < 4 * k.toNat ∨ 4 * k.toNat + 4 ≤ a) : (writeDmemWord k w s).dmem.read a = s.dmem.read a := by
  have hne : ∀ j : BitVec 2, a ≠ (dmemAddr k j).toNat := fun j => by
    have := j.isLt
    rw [dmemAddr_toNat]
    omega
  simp only [writeDmemWord, memWrite_dmem, Memory.read_write_other _ _ (hne _)]

/-- Byte `j` of the word written stands at `4k + j`. -/
theorem read_writeDmemWord_inside (k : BitVec 6) (w : Word) (s : State) {j : Nat} (h : j < 4) :
    (writeDmemWord k w s).dmem.read (4 * k.toNat + j) = some (wordByte w j) := by
  simp only [writeDmemWord, memWrite_dmem, Memory.read_write, dmemAddr_toNat]
  interval_cases j <;> simp

/-- Byte `j` of the word of four bytes. -/
theorem wordByte_wordOfBytes (f : Nat → Byte) {j : Nat} (h : j < 4) :
    wordByte (wordOfBytes (f 0) (f 1) (f 2) (f 3)) j = f j := by
  rw [wordOfBytes_eq_append]
  interval_cases j
  · exact append_byte0 ..
  · exact append_byte1 ..
  · exact append_byte2 ..
  · exact append_byte3 ..

/-- A host word is the word of its four bytes. -/
theorem wordOfBytes_wordByte (w : Word) :
    wordOfBytes (wordByte w 0) (wordByte w 1) (wordByte w 2) (wordByte w 3) = w := by
  apply BitVec.eq_of_getLsbD_eq
  intro i hi
  simp only [wordOfBytes_eq_append, BitVec.getLsbD_append, wordByte, BitVec.getLsbD_extractLsb']
  interval_cases i <;> rfl

/-- A host read of DMEM word `k` gives its four bytes as they stand, each unwritten one the free value of its own draw. -/
theorem hostRead_offDmem (k : BitVec 6) (s : State) :
    hostRead (offDmem k) s =
      { s with hostData := (readDmemWord k s).1, draws := s.draws + unwrittenBelow k s 4 } := by
  have hframe := congrArg Prod.snd (readDmemWord_eq k s)
  simp only [hostRead, readReg, hostReg_offDmem, hframe]

/-- Where the four bytes of a word are written, a host read returns them and draws nothing. -/
theorem hostRead_offDmem_written {k : BitVec 6} {s : State} {f : Nat → Byte}
    (h : ∀ j < 4, s.dmem.read (4 * k.toNat + j) = some (f j)) :
    hostRead (offDmem k) s = { s with hostData := wordOfBytes (f 0) (f 1) (f 2) (f 3) } := by
  have hnone : unwrittenBelow k s 4 = 0 := List.countP_eq_zero.mpr fun i hi => by
    simp [h i (List.mem_range.mp hi)]
  have h0 : s.dmem.read (4 * k.toNat) = some (f 0) := h 0 (by omega)
  rw [hostRead_offDmem, hnone, readDmemWord_eq]
  simp [h0, h 1, h 2, h 3]

/-- Byte `j` of the word a host read returns. -/
theorem readDmemWord_byte (k : BitVec 6) (s : State) {j : Nat} (h : j < 4) :
    wordByte (readDmemWord k s).1 j =
      (s.dmem.read (4 * k.toNat + j)).getD (Config.unwrittenByte (s.draws + unwrittenBelow k s j)) := by
  rw [readDmemWord_eq]
  exact wordByte_wordOfBytes
    (fun j => (s.dmem.read (4 * k.toNat + j)).getD (Config.unwrittenByte (s.draws + unwrittenBelow k s j))) h

/-- A host write of a DMEM word while not busy. -/
theorem hostWrite_offDmem {s : State} (k : BitVec 6) (w : Word) (hb : busy s = false) :
    hostWrite (offDmem k) w s = .next (writeDmemWord k w s) := by
  simp [hostWrite, hostReg_offDmem, hostWriteDmem, hb]

/-! ### ARG and the error latch (R19, R23, R24) -/

/-- A host write leaves ARG alone, or is a write of ARG, which changes nothing else. -/
theorem hostWrite_arg {off : Offset} {w : Word} {s t : State} (h : hostWrite off w s = .next t) :
    t.arg = s.arg ∨ (hostReg off = .arg ∧ t = { s with arg := w }) := by
  rcases hostWrite_cases h with rfl | ⟨c, rfl⟩ | ⟨i, -, -, -, rfl⟩ | harg | ⟨-, -, rfl⟩ | ⟨k, -, -, rfl⟩
  case inr.inl => exact .inl (reject_arg s c)
  case inr.inr.inr.inl => exact .inr harg
  all_goals exact .inl rfl

/-- Only a host write can change ARG or the error latch, a reset aside (R19, R23, R24). -/
theorem argAndLatch_of_not_hostWrite {e : Event} {s t : State} (h : runEvent e s = .next t) (hr : e ≠ .reset)
    (hw : isHostWrite e = false) : t.arg = s.arg ∧ t.cmdErr = s.cmdErr ∧ t.errCode = s.errCode := by
  cases e with
  | hostWrite off w => cases hw
  | hostRead off =>
    obtain ⟨v, n, hv⟩ := hostRead_frame off s
    cases h
    rw [hv]
    exact ⟨rfl, rfl, rfl⟩
  | sequencer =>
    cases h
    rcases sequencerStep_cases s with ⟨-, hq⟩ | ⟨u, rest, -, -, hq⟩
    · rw [hq]
      exact ⟨rfl, rfl, rfl⟩
    · obtain ⟨-, harg, -, herr, hcode, -⟩ := runUop_frame u s
      rw [hq]
      exact ⟨harg, herr, hcode⟩
  | peripheral b k =>
    cases h
    rw [periphComplete_eq]
    exact ⟨rfl, rfl, rfl⟩
  | reset => exact absurd rfl hr

/-! ### Reads of bytes never written (R75) -/

theorem read_of_not_written {s : State} {x : Byte} (h : written s x = false) : s.dmem.read x.toNat = none := by
  simpa [written] using h

theorem readFaults_of_not_written {s : State} {x : Byte} (h : written s x = false) :
    readFaults x s = { s.faults with uninitRead := true } := by
  simp [readFaults, h, addFault]

/-- The framing check of a µop records MisuseNoTransaction beside what is recorded (R170, R171). -/
theorem addFault_noTransaction_if (b : Bool) (f : FaultSet) :
    (if b then addFault .misuseNoTransaction f else f) = { f with noTransaction := f.noTransaction || b } := by
  cases b <;> simp [addFault]

/-! ### The obligations about memory and the host port -/

/-- Settles O8, by induction on the events lined up. -/
theorem coreRunsTheEvents : Obligations.CoreRunsTheEvents := by
  intro es q s
  induction es generalizing s with
  | nil => rfl
  | cons e es ih =>
    obtain ⟨t, ht⟩ := runEvent_next e s
    have hevents : runEvents (e :: es) { s with inbox := q } = runEvents es { t with inbox := q } := by
      simp only [runEvents, runEvent_withInbox e s t q ht]
    rw [hevents]
    exact (core_run_succ es.length (es ++ q) ht).trans (ih t)

/-- Settles O35: a host access while busy leaves the view of the run and the list of µops alone. -/
theorem hostCannotDisturb : Obligations.HostCannotDisturb := by
  intro e s t hh hb h
  obtain ⟨hv, hu⟩ := host_busy hh (busy_eq_true.mp hb) h
  exact commandView_congr hv hu

/-- Settles O44: STOREMEM and the host's write of a DMEM word are the only writers, and each writes its own addresses only. -/
theorem dmemWriters : Obligations.DmemWriters := by
  intro e s t a h hr hne
  cases e with
  | hostWrite off w =>
    rcases hostWrite_dmem h with hd | ⟨k, hoff, hb, rfl⟩
    · exact absurd (by rw [hd]) hne
    · refine .inr ⟨hb, off, w, k, rfl, hoff, ?_⟩
      by_contra hout
      exact hne (read_writeDmemWord_outside w s (by omega))
  | hostRead off =>
    obtain ⟨v, n, hv⟩ := hostRead_frame off s
    cases h
    exact absurd (by rw [hv]) hne
  | sequencer =>
    cases h
    rcases sequencerStep_dmem s with hd | ⟨x, rest, hu, hd⟩
    · exact absurd (by rw [hd]) hne
    · have ha : a = x.toNat := by
        by_contra hax
        exact hne (by rw [hd, Memory.read_write_other _ _ hax])
      exact .inl ⟨rfl, x, rest, hu, ha, by rw [hd, ha, Memory.read_write_same]⟩
  | peripheral b k =>
    cases h
    exact absurd (by rw [periphComplete_eq]) hne
  | reset => exact absurd rfl hr

/-- Settles O49: of the host registers a read changes none, and of the writers only a host write of ARG writes ARG. -/
theorem hostReadsArePure : Obligations.HostReadsArePure := by
  refine ⟨hostRead_frame, fun w s => ⟨rfl, rfl⟩, fun s => ⟨rfl, rfl, rfl⟩, ?_⟩
  intro e s t h hr hne
  cases e with
  | hostWrite off w =>
    rcases hostWrite_arg h with harg | ⟨hoff, ht⟩
    · exact absurd harg hne
    · obtain ⟨hlo, hhi⟩ := hostReg_arg hoff
      exact ⟨off, w, rfl, hlo, hhi, ht⟩
  | _ => exact absurd (argAndLatch_of_not_hostWrite h hr rfl).1 hne

/-- Settles O50, byte by byte: a host word is its four bytes, and byte `j` of word `k` stands at `4k + j`. -/
theorem dmemWordWrite : Obligations.DmemWordWrite := by
  refine ⟨fun k w s hb => ?_, fun k s b0 b1 b2 b3 h0 h1 h2 h3 => ?_, fun k s => ?_⟩
  · have hin := fun j => read_writeDmemWord_inside k w s (j := j)
    refine ⟨writeDmemWord k w s, hostWrite_offDmem k w hb, rfl, hin 0 (by omega), hin 1 (by omega),
      hin 2 (by omega), hin 3 (by omega), fun a ha => read_writeDmemWord_outside w s ha, ?_⟩
    rw [hostRead_offDmem_written hin, wordOfBytes_wordByte]
  · have hbytes : ∀ j < 4, s.dmem.read (4 * k.toNat + j) = some ([b0, b1, b2, b3].getD j 0) := by
      intro j hj
      interval_cases j
      · exact h0
      · exact h1
      · exact h2
      · exact h3
    rw [hostRead_offDmem_written hbytes, wordOfBytes_eq_append]; rfl
  · rw [hostRead_offDmem]
    exact ⟨rfl, fun j hj => readDmemWord_byte k s hj⟩

/-- Settles O52: the µops' own updates, where nothing is listed at the address. -/
theorem unwrittenLoadGoesOn : Obligations.UnwrittenLoadGoesOn := by
  intro x s h
  have hread := read_of_not_written h
  have hfaults := readFaults_of_not_written h
  constructor
  · rw [runUop_loadMem, addFault_noTransaction_if, hfaults, hread, h]; rfl
  · rw [runUop_polMem, ackBit_eq, hfaults, hread, h]; rfl

end Sys2Proof.Machine
end

section
/-! PROOFS. The encoder as arithmetic and the decoder against the opcode map: the fields of a packed word, decoding as the inverse of
encoding, and the words of each row (R81, R88, R89, R97). -/

namespace Sys2Proof

/-! ### The fields of a packed word (R81, R97) -/

/-- A concatenation, as a number: the high part stands above the `n` bits of the low part. -/
theorem toNat_append_eq_add {m n : Nat} (x : BitVec m) (y : BitVec n) :
    (x ++ y).toNat = x.toNat * 2 ^ n + y.toNat := by
  rw [BitVec.toNat_append, ← Nat.shiftLeft_add_eq_or_of_lt y.isLt, Nat.shiftLeft_eq]

/-- The word of `packFields` is its fields side by side, with RSVD zero. -/
theorem packFields_eq_append (op : BitVec 4) (dir : Dir) (opa len base : Byte) :
    packFields op dir opa len base = base ++ len ++ opa ++ 0#3 ++ dir ++ op := by
  apply BitVec.eq_of_getLsbD_eq
  intro i hi
  simp only [packFields, BitVec.getLsbD_or, BitVec.getLsbD_shiftLeft, BitVec.getLsbD_setWidth, BitVec.getLsbD_append]
  interval_cases i <;> simp

/-- No two fields overlap, so their OR is their sum (R97). -/
theorem packFields_toNat (op : BitVec 4) (dir : Dir) (opa len base : Byte) :
    (packFields op dir opa len base).toNat =
      base.toNat * 2 ^ 24 + len.toNat * 2 ^ 16 + opa.toNat * 2 ^ 8 + dir.toNat * 2 ^ 4 + op.toNat := by
  simp only [packFields_eq_append, toNat_append_eq_add, BitVec.toNat_zero]
  omega

section
variable (op : BitVec 4) (dir : Dir) (opa len base : Byte)

/-- A field read back from a packed word is the quotient and remainder that its place names. -/
theorem extractLsb'_packFields_toNat (start width : Nat) :
    ((packFields op dir opa len base).extractLsb' start width).toNat =
      (base.toNat * 2 ^ 24 + len.toNat * 2 ^ 16 + opa.toNat * 2 ^ 8 + dir.toNat * 2 ^ 4 + op.toNat) / 2 ^ start %
        2 ^ width := by
  rw [BitVec.extractLsb'_toNat, packFields_toNat, Nat.shiftRight_eq_div_pow]

theorem fieldDir_packFields : fieldDir (packFields op dir opa len base) = dir := by
  apply BitVec.eq_of_toNat_eq
  rw [fieldDir, extractLsb'_packFields_toNat]
  omega

theorem fieldRsvd_packFields : fieldRsvd (packFields op dir opa len base) = 0 := by
  apply BitVec.eq_of_toNat_eq
  rw [fieldRsvd, extractLsb'_packFields_toNat]
  have := dir.isLt
  have := op.isLt
  simp only [BitVec.ofNat_eq_ofNat, BitVec.toNat_zero]
  omega

theorem fieldOpa_packFields : fieldOpa (packFields op dir opa len base) = opa := by
  apply BitVec.eq_of_toNat_eq
  rw [fieldOpa, extractLsb'_packFields_toNat]
  omega

theorem fieldLen_packFields : fieldLen (packFields op dir opa len base) = len := by
  apply BitVec.eq_of_toNat_eq
  rw [fieldLen, extractLsb'_packFields_toNat]
  omega

theorem fieldBase_packFields : fieldBase (packFields op dir opa len base) = base := by
  apply BitVec.eq_of_toNat_eq
  rw [fieldBase, extractLsb'_packFields_toNat]
  omega

/-- A packed word with an assigned opcode decodes by the row of its opcode, on the fields it was packed from (R89). -/
theorem decode_packFields (hop : op ≠ 0) :
    decode (packFields op dir opa len base) = decodeRow op dir opa len base := by
  rw [decode, Laws.EncodesTableRow.fieldOp_pack, fieldRsvd_packFields, fieldDir_packFields, fieldOpa_packFields,
    fieldLen_packFields, fieldBase_packFields, if_neg hop, if_neg (not_not.mpr rfl)]

end

/-- Decoding the word of a command gives the command back: the fields its row wants zero are packed as zero (R89, R97). -/
theorem decode_encode (i : Instr) : decode (encode i) = .ok i := by
  have hop : opcode i ≠ 0 := by cases i <;> simp [opcode]
  cases i <;> exact decode_packFields _ _ _ _ _ hop

/-! ### Words and rows (R88) -/

theorem encode_matchesRow (i : Instr) : Laws.EncodesTableRow.Statement i := by
  cases i with
  | init => exact Laws.EncodesTableRow.init
  | wait => exact Laws.EncodesTableRow.wait
  | start => exact Laws.EncodesTableRow.start
  | restart => exact Laws.EncodesTableRow.restart
  | stop => exact Laws.EncodesTableRow.stop
  | sendAck => exact Laws.EncodesTableRow.sendAck
  | sendNak => exact Laws.EncodesTableRow.sendNak
  | write b => exact Laws.EncodesTableRow.write b
  | read p => exact Laws.EncodesTableRow.read p
  | callSlave a d => exact Laws.EncodesTableRow.callSlave a d
  | callSlavePlus a d => exact Laws.EncodesTableRow.callSlavePlus a d
  | writePlus b => exact Laws.EncodesTableRow.writePlus b
  | writeComplete a base len => exact Laws.EncodesTableRow.writeComplete a base len
  | readPlus p => exact Laws.EncodesTableRow.readPlus p
  | readComplete a base len => exact Laws.EncodesTableRow.readComplete a base len

/-- The rows of the opcode map have different mnemonics. -/
theorem row_eq_of_mnemonic {r r' : TableRow} (hr : r ∈ opcodeTable) (hr' : r' ∈ opcodeTable)
    (h : r.mnemonic = r'.mnemonic) : r = r' := by
  have distinct : ∀ r ∈ opcodeTable, ∀ r' ∈ opcodeTable, r.mnemonic = r'.mnemonic → r = r' := by decide
  exact distinct r hr r' hr' h

/-- A field that a mask keeps whole is read alike from a word and from the masked word. -/
theorem extractLsb'_of_mask {start width : Nat} {w m v : Word} (h : w &&& m = v)
    (hm : m.extractLsb' start width = BitVec.allOnes width) :
    w.extractLsb' start width = v.extractLsb' start width := by
  rw [← h, BitVec.extractLsb'_and, hm, BitVec.and_allOnes]

section
variable {w m : Word} {op : BitVec 4}

/-- A word that agrees with an opcode under a mask that keeps OP and RSVD is packed from that opcode and its own other fields. -/
theorem packFields_of_mask (h : w &&& m = packFields op 0 0 0 0) (hop : fieldOp m = BitVec.allOnes 4)
    (hrsvd : fieldRsvd m = BitVec.allOnes 3) :
    packFields op (fieldDir w) (fieldOpa w) (fieldLen w) (fieldBase w) = w := by
  have hw : fieldOp w = op := (extractLsb'_of_mask h hop).trans (Laws.EncodesTableRow.fieldOp_pack ..)
  rw [← hw]
  exact packFields_of_fields ((extractLsb'_of_mask h hrsvd).trans (fieldRsvd_packFields ..))

/-- The rows with an address, a base and a length. -/
theorem packFields_of_mask_burst (h : w &&& 0x000000FF = packFields op 0 0 0 0) :
    packFields op 0 (fieldOpa w) (fieldLen w) (fieldBase w) = w := by
  have hdir : fieldDir w = 0 := (extractLsb'_of_mask h rfl).trans (fieldDir_packFields ..)
  simpa only [hdir] using packFields_of_mask h rfl rfl

/-- The rows with an address and a direction. -/
theorem packFields_of_mask_call (h : w &&& 0xFFFF00EF = packFields op 0 0 0 0) :
    packFields op (fieldDir w) (fieldOpa w) 0 0 = w := by
  have hlen : fieldLen w = 0 := (extractLsb'_of_mask h rfl).trans (fieldLen_packFields ..)
  have hbase : fieldBase w = 0 := (extractLsb'_of_mask h rfl).trans (fieldBase_packFields ..)
  simpa only [hlen, hbase] using packFields_of_mask h rfl rfl

/-- The rows with one byte. -/
theorem packFields_of_mask_byte (h : w &&& 0xFFFF00FF = packFields op 0 0 0 0) :
    packFields op 0 (fieldOpa w) 0 0 = w := by
  have hdir : fieldDir w = 0 := (extractLsb'_of_mask h rfl).trans (fieldDir_packFields ..)
  have hlen : fieldLen w = 0 := (extractLsb'_of_mask h rfl).trans (fieldLen_packFields ..)
  have hbase : fieldBase w = 0 := (extractLsb'_of_mask h rfl).trans (fieldBase_packFields ..)
  simpa only [hdir, hlen, hbase] using packFields_of_mask h rfl rfl

/-- The rows without an operand. -/
theorem packFields_of_mask_full (h : w &&& 0xFFFFFFFF = packFields op 0 0 0 0) : packFields op 0 0 0 0 = w := by
  rw [← h]; exact BitVec.and_allOnes

end

/-- A word that agrees with a row's match under its mask is the word of a command with the row's mnemonic. -/
theorem exists_encode_of_mask {w : Word} {r : TableRow} (hr : r ∈ opcodeTable) (h : w &&& r.mask = r.value) :
    ∃ i, encode i = w ∧ mnemonicOf i = r.mnemonic := by
  simp only [opcodeTable, List.mem_cons, List.not_mem_nil, or_false] at hr
  rcases hr with rfl | rfl | rfl | rfl | rfl | rfl | rfl | rfl | rfl | rfl | rfl | rfl | rfl | rfl | rfl
  · exact ⟨.init, packFields_of_mask_full h, rfl⟩
  · exact ⟨.wait, packFields_of_mask_full h, rfl⟩
  · exact ⟨.start, packFields_of_mask_full h, rfl⟩
  · exact ⟨.restart, packFields_of_mask_full h, rfl⟩
  · exact ⟨.stop, packFields_of_mask_full h, rfl⟩
  · exact ⟨.sendAck, packFields_of_mask_full h, rfl⟩
  · exact ⟨.sendNak, packFields_of_mask_full h, rfl⟩
  · exact ⟨.write _, packFields_of_mask_byte (op := 0x8) h, rfl⟩
  · exact ⟨.read _, packFields_of_mask_byte (op := 0x9) h, rfl⟩
  · exact ⟨.callSlave _ _, packFields_of_mask_call (op := 0xA) h, rfl⟩
  · exact ⟨.callSlavePlus _ _, packFields_of_mask_call (op := 0xB) h, rfl⟩
  · exact ⟨.writePlus _, packFields_of_mask_byte (op := 0xC) h, rfl⟩
  · exact ⟨.writeComplete _ _ _, packFields_of_mask_burst (op := 0xD) h, rfl⟩
  · exact ⟨.readPlus _, packFields_of_mask_byte (op := 0xE) h, rfl⟩
  · exact ⟨.readComplete _ _ _, packFields_of_mask_burst (op := 0xF) h, rfl⟩

/-! ### The obligations about encoding -/

/-- Settles O1: the fields of a packed word are those it was packed from, and they meet the command's own row. -/
theorem decodeOfEncode : Obligations.DecodeOfEncode := decode_encode

/-- Settles O2: a word that decodes has RSVD zero, so it is packed from its fields, which are those of the command. -/
theorem encodeOfDecode : Obligations.EncodeOfDecode := fun _ _ => encode_of_decode

/-- Settles O3: the fields do not overlap. -/
theorem encodeIsFieldSum : Obligations.EncodeIsFieldSum :=
  ⟨packFields_toNat, rfl, rfl, rfl, rfl, rfl⟩

/-- Settles O4: a word in a row is the word of a command of that row, and a word that decodes is in the row of its command, the only
one with its mnemonic. -/
theorem decodeMatchesTable : Obligations.DecodeMatchesTable := by
  intro w r hr
  constructor
  · intro h
    obtain ⟨i, rfl, hi⟩ := exists_encode_of_mask hr h
    exact ⟨i, decode_encode i, hi⟩
  · rintro ⟨i, hd, hi⟩
    obtain ⟨r', hr', hm, hmatch, -, -⟩ := encode_matchesRow i
    rw [encode_of_decode hd, row_eq_of_mnemonic hr' hr (hm.trans hi)] at hmatch
    exact beq_iff_eq.mp hmatch

/-- Settles O6: six of the words are words of commands; START with DIR set and a word with OP zero are refused. -/
theorem sampleWordsDecode : Obligations.SampleWordsDecode :=
  ⟨decode_encode .init, decode_encode .stop, decode_encode (.read 1), decode_encode (.callSlavePlus 0x50 1),
    decode_encode (.writeComplete 0x50 0xFE 3), decode_encode (.readComplete 0x90 0x10 2), rfl, rfl⟩

end Sys2Proof
end

section
/-! PROOFS. The host driver: the sequence of each line, one rule per operation for the host's turn, and that a program that polls is
never rejected for a busy block (R95–R97, R164, R167). -/

namespace Sys2Proof.Machine

open Sys2Proof

/-! ### The sequence of a line (R95, R96) -/

/-- The assembler refuses a line whose operands do not fit. -/
theorem lineOps_of_not_wf {l : AsmLine} (h : l.wf = false) : lineOps l = none := by
  simp [lineOps, h]

theorem lineOps_of_wf {l : AsmLine} (h : l.wf = true) : lineOps l = some (.poll :: bodyOps l) := by
  simp [lineOps, h]

/-- A command line becomes the poll, the write of ARG where it has one, and the write of its command's word. -/
theorem lineOps_of_assemble {l : AsmLine} {i : Instr} (h : assemble l = some i) :
    lineOps l = some (.poll :: (argOps l ++ [.writeCmd (encode i)])) := by
  have hwf : l.wf = true := by
    by_contra hwf
    simp [assemble, hwf] at h
  rw [lineOps_of_wf hwf]
  cases l with
  | dmem base bytes => simp [assemble] at h
  | _ => simp [bodyOps, h]

/-- A command line without a write of ARG, its command's word given. -/
theorem lineOps_of_word {l : AsmLine} {i : Instr} {w : Word} (h : assemble l = some i) (harg : argOps l = [])
    (hw : encode i = w) : lineOps l = some [.poll, .writeCmd w] := by
  rw [lineOps_of_assemble h, harg, hw, List.nil_append]

@[simp] theorem fitsByte_iff {n : Nat} : fitsByte n = true ↔ n < 256 := decide_eq_true_iff

theorem fitsByte_of_ge {n : Nat} (h : 256 ≤ n) : fitsByte n = false := decide_eq_false (Nat.not_lt.mpr h)

/-- The word packed from numbers that fit their fields (R97). -/
theorem packFields_byteOf (op : BitVec 4) (d : Dir) {a len : Nat} (ha : a < 256) (hlen : len < 256) (base : Nat) :
    packFields op d (byteOf a) (byteOf len) (byteOf base) =
      BitVec.ofNat 32 (base * 2 ^ 24 + len * 2 ^ 16 + a * 2 ^ 8 + d.toNat * 2 ^ 4 + op.toNat) := by
  have hd := d.isLt
  have hop := op.isLt
  apply BitVec.eq_of_toNat_eq
  simp only [packFields_toNat, byteOf, BitVec.toNat_ofNat]
  omega

/-- The word packed from one operand and a direction. -/
theorem packFields_byteOf_dir (op : BitVec 4) (d : Dir) {a : Nat} (ha : a < 256) :
    packFields op d (byteOf a) 0 0 = BitVec.ofNat 32 (a * 2 ^ 8 + d.toNat * 2 ^ 4 + op.toNat) := by
  have h := packFields_byteOf op d ha (len := 0) (by omega) 0
  simp only [Nat.zero_mul, Nat.zero_add] at h
  exact h

/-- The word packed from one operand. -/
theorem packFields_byteOf_only (op : BitVec 4) {a : Nat} (ha : a < 256) :
    packFields op 0 (byteOf a) 0 0 = BitVec.ofNat 32 (a * 2 ^ 8 + op.toNat) := by
  rw [packFields_byteOf_dir op 0 ha, BitVec.ofNat_eq_ofNat, BitVec.toNat_zero, Nat.zero_mul, Nat.add_zero]

/-- The word packed from three operands. -/
theorem packFields_byteOf_burst (op : BitVec 4) {a len : Nat} (ha : a < 256) (hlen : len < 256) (base : Nat) :
    packFields op 0 (byteOf a) (byteOf len) (byteOf base) =
      BitVec.ofNat 32 (base * 2 ^ 24 + len * 2 ^ 16 + a * 2 ^ 8 + op.toNat) := by
  rw [packFields_byteOf op 0 ha hlen, BitVec.ofNat_eq_ofNat, BitVec.toNat_zero, Nat.zero_mul, Nat.add_zero]

/-! ### The host's turn at each operation (R96) -/

theorem hostTurn_poll (ops : List HostOp) (s : State) :
    hostTurn (.poll :: ops) s = (if busy s then .poll :: ops else ops, { s with hostData := statusWord s }) := by
  rw [hostTurn_cons (t := { s with hostData := statusWord s }) ops rfl]
  simp only [hostOpAgain, statusWord_bit0]

theorem hostTurn_writeArg (rate : Word) (ops : List HostOp) (s : State) :
    hostTurn (.writeArg rate :: ops) s = (ops, { s with arg := rate }) := rfl

theorem hostTurn_writeCmd {w : Word} {s t : State} (ops : List HostOp) (h : hostWrite offCmd w s = .next t) :
    hostTurn (.writeCmd w :: ops) s = (ops, t) :=
  hostTurn_cons ops h

theorem hostTurn_readWord (k : BitVec 6) (ops : List HostOp) (s : State) :
    hostTurn (.readWord k :: ops) s = (ops, hostRead (offDmem k) s) := rfl

theorem hostTurn_writeWord {s : State} (base : Nat) (bytes : List Nat) (k : BitVec 6) (ops : List HostOp)
    (hb : busy s = false) :
    hostTurn (.writeWord base bytes k :: ops) s =
      (ops, writeDmemWord k (mergeWord base bytes k.toNat s.hostData) s) :=
  hostTurn_cons ops (hostWrite_offDmem k _ hb)

/-- What every turn of the host and every event of the other agents keeps, a run keeps. -/
theorem runHost_keeps {P : List HostOp → State → Prop} {A : Event → Prop}
    (host : ∀ {ops s}, P ops s → P (hostTurn ops s).1 (hostTurn ops s).2)
    (agent : ∀ {e ops s t}, A e → runEvent e s = .next t → P ops s → P ops t)
    {turns : List Turn} {ops : List HostOp} {s : State} (hA : ∀ e, Turn.agent e ∈ turns → A e) (h : P ops s) :
    P (runHost turns ops s).1 (runHost turns ops s).2 := by
  induction turns generalizing ops s with
  | nil => exact h
  | cons u us ih =>
    have hus : ∀ e, Turn.agent e ∈ us → A e := fun e he => hA e (List.mem_cons_of_mem _ he)
    cases u with
    | host => exact ih hus (host h)
    | agent e =>
      obtain ⟨t, ht⟩ := runEvent_next e s
      rw [runHost_agent us ops ht]
      exact ih hus (agent (hA e List.mem_cons_self) ht h)

/-! ### A program that polls (R96, R164, R167) -/

/-- The error latch does not hold one of the codes that only a busy block gives (R161). -/
def noBusyError (s : State) : Prop := s.cmdErr = true → s.errCode ≠ .overrun ∧ s.errCode ≠ .dmemBusy

theorem noBusyError_reject {c : ErrCode} {s : State} (ho : c ≠ .overrun) (hd : c ≠ .dmemBusy) (h : noBusyError s) :
    noBusyError (reject c s) := by
  rcases reject_cases c s with ⟨-, hq⟩ | ⟨-, hq⟩
  · rw [hq]; exact h
  · rw [hq]; exact fun _ => ⟨ho, hd⟩

/-- A command written while the block is not busy is rejected with neither code (R123, R124, R162, R163). -/
theorem noBusyError_hostWriteCmd {w : Word} {s t : State} (hb : busy s = false) (h : noBusyError s)
    (ht : hostWrite offCmd w s = .next t) : noBusyError t := by
  rw [hostWrite_offCmd, hostWriteCmd] at ht
  split at ht
  · rw [exec_eq] at ht
    cases ht
    split
    · simp only [acceptInit, hb, Bool.false_eq_true, if_false]
      split
      · exact noBusyError_reject nofun nofun h
      · split
        · exact noBusyError_reject nofun nofun h
        · exact h
    · simp only [acceptCommand, hb, Bool.false_eq_true, if_false]
      split
      · exact noBusyError_reject nofun nofun h
      · exact h
  · rename_i c _
    cases ht
    simp only [acceptNone, hb, Bool.false_eq_true, if_false]
    cases c
    · exact noBusyError_reject nofun nofun h
    · exact noBusyError_reject nofun nofun h

/-- The operations left wait for a block that is busy, and the latch holds no busy code. -/
structure Polite (ops : List HostOp) (s : State) : Prop where
  guarded : pollGuarded (!busy s) ops = true
  latch : noBusyError s

theorem Polite.host {ops : List HostOp} {s : State} (h : Polite ops s) :
    Polite (hostTurn ops s).1 (hostTurn ops s).2 := by
  obtain ⟨hg, hl⟩ := h
  rcases ops with _ | ⟨op, ops⟩
  · exact ⟨rfl, hl⟩
  cases op with
  | poll =>
    rw [hostTurn_poll]
    refine ⟨?_, hl⟩
    show pollGuarded (!busy s) (if busy s = true then .poll :: ops else ops) = true
    cases hb : busy s
    · exact hg
    · exact hg
  | writeArg rate => exact ⟨hg, hl⟩
  | writeCmd w =>
    obtain ⟨t, ht⟩ := runEvent_next (.hostWrite offCmd w) s
    simp only [pollGuarded, Bool.and_eq_true, Bool.not_eq_true'] at hg
    rw [hostTurn_writeCmd ops ht]
    exact ⟨pollGuarded_mono hg.2 _, noBusyError_hostWriteCmd hg.1 hl ht⟩
  | readWord k =>
    rw [hostTurn_readWord, hostRead_offDmem]
    exact ⟨hg, hl⟩
  | writeWord base bytes k =>
    simp only [pollGuarded, Bool.and_eq_true, Bool.not_eq_true'] at hg
    rw [hostTurn_writeWord base bytes k ops hg.1]
    exact ⟨hg.2, hl⟩

theorem Polite.agent {e : Event} {ops : List HostOp} {s t : State} (he : isHostAccess e = false)
    (ht : runEvent e s = .next t) (h : Polite ops s) : Polite ops t := by
  obtain ⟨hg, hl⟩ := h
  constructor
  · cases hb : busy s
    · rw [agent_not_busy he hb ht, ← hb]; exact hg
    · rw [hb] at hg
      exact pollGuarded_mono hg _
  · by_cases hr : e = .reset
    · subst hr
      cases ht
      exact nofun
    · have hw : isHostWrite e = false := by
        cases e with
        | hostWrite off w => cases he
        | _ => rfl
      obtain ⟨-, herr, hcode⟩ := argAndLatch_of_not_hostWrite ht hr hw
      rw [noBusyError, herr, hcode]; exact hl

/-- A run of a program beside the other agents never latches OVERRUN or DMEM_BUSY. -/
theorem noBusyError_runHost {ls : List AsmLine} {ops : List HostOp} {turns : List Turn} {s : State}
    (hp : programOps ls = some ops) (hA : ∀ e, Turn.agent e ∈ turns → isHostAccess e = false) (h : noBusyError s) :
    noBusyError (runHost turns ops s).2 := by
  have start : Polite ops s := ⟨pollGuarded_mono (pollGuarded_programOps hp) _, h⟩
  exact (runHost_keeps (P := Polite) Polite.host Polite.agent hA start).latch

/-! ### The obligation about the assembler -/

/-- Settles O59: the command of each line gives its sequence, its fields give the word, and a program that polls is polite. -/
theorem assemblerChecksOperands : Obligations.AssemblerChecksOperands := by
  refine ⟨fun rate h => lineOps_of_not_wf ?_, fun n m k d h => ?_, fun rate h1 h2 => ?_, rfl, rfl, rfl, rfl, rfl, rfl,
    fun n d h => ?_, fun a base len ha hbase hlen => ?_, hostTurn_poll, fun rate w ops s =>
    ⟨hostTurn_writeArg rate ops s, fun t ht => hostTurn_writeCmd ops ht⟩, ?_⟩
  · rcases h with rfl | h
    · rfl
    · exact Bool.and_eq_false_imp.mpr fun _ => decide_eq_false (Nat.not_lt.mpr h)
  · have hn := fitsByte_of_ge h
    refine ⟨?_, ?_, ?_, ?_, ?_, ?_, ?_, ?_, ?_, ?_, ?_, ?_⟩ <;>
      exact lineOps_of_not_wf (by simp [AsmLine.wf, hn])
  · have hwf : (AsmLine.init rate).wf = true := by
      simp only [AsmLine.wf, h1, h2, decide_true, Bool.and_true]
    exact lineOps_of_assemble (i := .init) (if_pos hwf)
  · have fits := fitsByte_iff.mpr h
    have byte := fun op => packFields_byteOf_only op h
    have call := fun op => packFields_byteOf_dir op d h
    exact ⟨lineOps_of_word (i := .write (byteOf n)) (if_pos fits) rfl (byte 0x8),
      lineOps_of_word (i := .read (byteOf n)) (if_pos fits) rfl (byte 0x9),
      lineOps_of_word (i := .callSlave (byteOf n) d) (if_pos fits) rfl (call 0xA),
      lineOps_of_word (i := .callSlavePlus (byteOf n) d) (if_pos fits) rfl (call 0xB),
      lineOps_of_word (i := .writePlus (byteOf n)) (if_pos fits) rfl (byte 0xC),
      lineOps_of_word (i := .readPlus (byteOf n)) (if_pos fits) rfl (byte 0xE)⟩
  · have fits : (fitsByte a && fitsByte base && fitsByte len) = true := by simp [ha, hbase, hlen]
    have burst := fun op => packFields_byteOf_burst op ha hlen base
    exact ⟨lineOps_of_word (i := .writeComplete (byteOf a) (byteOf base) (byteOf len)) (if_pos fits) rfl (burst 0xD),
      lineOps_of_word (i := .readComplete (byteOf a) (byteOf base) (byteOf len)) (if_pos fits) rfl (burst 0xF)⟩
  · intro ls ops left turns s t hp hA hrun hs ht
    have h := noBusyError_runHost hp hA (s := s) (by simp [noBusyError, hs])
    rw [hrun] at h
    exact h ht

end Sys2Proof.Machine
end

section
/-! PROOFS. The DMEM directive: each read-modify-write stores the named bytes of one word and keeps the written ones; a run of the
directive is at its poll, between two words, or between the read and the write of one (R62, R65, R95, R96). -/

namespace Sys2Proof.Machine

open Sys2Proof

/-! ### The bytes a directive names (R95) -/

section
variable {base : Nat} {bytes : List Nat}

theorem namedByte_eq_none {a : Nat} (h : a < base ∨ base + bytes.length ≤ a) : namedByte base bytes a = none := by
  unfold namedByte
  split
  · rw [List.getElem?_eq_none (by omega)]; rfl
  · rfl

theorem namedByte_add {j : Nat} (h : j < bytes.length) : namedByte base bytes (base + j) = some (byteOf bytes[j]) := by
  rw [namedByte, if_pos (Nat.le_add_right base j), Nat.add_sub_cancel_left, List.getElem?_eq_getElem h]; rfl

/-- The word of a named byte is covered (R96). -/
theorem wordCovered_of_named {a : Nat} {v : Byte} (h : namedByte base bytes a = some v) :
    wordCovered base bytes (a / 4) = true := by
  refine List.any_eq_true.mpr ⟨a % 4, List.mem_range.mpr (Nat.mod_lt a (by omega)), ?_⟩
  rw [Nat.div_add_mod, h]; rfl

/-! ### One read-modify-write (R62, R96) -/

theorem wordIndex_toNat {k : Nat} (hk : k < 64) : (BitVec.ofNat 6 k).toNat = k :=
  (BitVec.toNat_ofNat k 6).trans (Nat.mod_eq_of_lt hk)

/-- DMEM after the merged word is written: the word's named bytes stored, its other bytes as they were read, the other words as before. -/
theorem read_writeDmemWord_merged {k : Nat} (hk : k < 64) (w : Word) (s : State) (a : Nat) :
    (writeDmemWord (BitVec.ofNat 6 k) (mergeWord base bytes k w) s).dmem.read a =
      if a / 4 = k then some ((namedByte base bytes a).getD (wordByte w (a % 4))) else s.dmem.read a := by
  have hkn := wordIndex_toNat hk
  split
  · rename_i ha
    subst ha
    have hj : a % 4 < 4 := Nat.mod_lt a (by omega)
    have hin := read_writeDmemWord_inside (BitVec.ofNat 6 (a / 4)) (mergeWord base bytes (a / 4) w) s hj
    rw [hkn, Nat.div_add_mod] at hin
    rw [hin, mergeWord,
      wordByte_wordOfBytes (fun j => (namedByte base bytes (4 * (a / 4) + j)).getD (wordByte w j)) hj, Nat.div_add_mod]
  · exact read_writeDmemWord_outside _ s (by omega)

/-- What DMEM holds while the words `ks` of the directive are still to be written, `m` being DMEM before it: every named byte of
the other words, and every written byte that is not named. -/
structure Stored (base : Nat) (bytes : List Nat) (m : Memory) (ks : List Nat) (n : Memory) : Prop where
  inRange : ∀ k ∈ ks, k < 64
  named : ∀ a v, namedByte base bytes a = some v → a / 4 ∉ ks → n.read a = some v
  kept : ∀ a v, namedByte base bytes a = none → m.read a = some v → n.read a = some v

/-- A word read from DMEM has every written byte of it. -/
def ReadFrom (n : Memory) (k : Nat) (w : Word) : Prop := ∀ a v, a / 4 = k → n.read a = some v → wordByte w (a % 4) = v

theorem readFrom_readDmemWord {k : Nat} (hk : k < 64) (s : State) :
    ReadFrom s.dmem k (readDmemWord (BitVec.ofNat 6 k) s).1 := by
  rintro a v rfl h
  rw [readDmemWord_byte _ _ (Nat.mod_lt a (by omega)), wordIndex_toNat hk, Nat.div_add_mod, h, Option.getD_some]

/-- The write of a merged word stores the next word of the directive. -/
theorem Stored.write {m : Memory} {k : Nat} {ks : List Nat} {s : State} {w : Word}
    (h : Stored base bytes m (k :: ks) s.dmem) (hw : ReadFrom s.dmem k w) :
    Stored base bytes m ks (writeDmemWord (BitVec.ofNat 6 k) (mergeWord base bytes k w) s).dmem where
  inRange i hi := h.inRange i (List.mem_cons_of_mem k hi)
  named a v hv ha := by
    rw [read_writeDmemWord_merged (h.inRange k List.mem_cons_self)]
    split
    · rw [hv, Option.getD_some]
    · rename_i hk
      exact h.named a v hv (List.not_mem_cons_of_ne_of_not_mem hk ha)
  kept a v hv ha := by
    have hold := h.kept a v hv ha
    rw [read_writeDmemWord_merged (h.inRange k List.mem_cons_self)]
    split
    · rename_i hk
      rw [hv, Option.getD_none, hw a v hk hold]
    · exact hold

/-- Before the directive every covered word is still to be written. -/
theorem Stored.before (m : Memory) (hlen : base + bytes.length ≤ 256) :
    Stored base bytes m ((List.range 64).filter (wordCovered base bytes)) m where
  inRange k hk := List.mem_range.mp (List.mem_of_mem_filter hk)
  named a v hv ha := by
    have hlt : a < 256 := by
      by_contra hge
      rw [namedByte_eq_none (by omega)] at hv
      cases hv
    exact absurd (List.mem_filter.mpr ⟨List.mem_range.mpr (by omega), wordCovered_of_named hv⟩) ha
  kept _ _ _ h := h

end

/-! ### The run of a directive (R96) -/

/-- The operations of the read-modify-writes of the words `ks`. -/
def wordOps (base : Nat) (bytes : List Nat) (ks : List Nat) : List HostOp :=
  ks.flatMap fun k => [.readWord (BitVec.ofNat 6 k), .writeWord base bytes (BitVec.ofNat 6 k)]

theorem wordOps_cons (base : Nat) (bytes : List Nat) (k : Nat) (ks : List Nat) :
    wordOps base bytes (k :: ks) =
      .readWord (BitVec.ofNat 6 k) :: .writeWord base bytes (BitVec.ofNat 6 k) :: wordOps base bytes ks := rfl

theorem poll_not_mem_wordOps (base : Nat) (bytes : List Nat) (ks : List Nat) : HostOp.poll ∉ wordOps base bytes ks := by
  simp [wordOps]

/-- A turn of the host at an operation other than the poll finishes it. -/
theorem hostTurn_fst_of_ne_poll {op : HostOp} (h : op ≠ .poll) (ops : List HostOp) (s : State) :
    (hostTurn (op :: ops) s).1 = ops := by
  obtain ⟨t, ht⟩ := runEvent_next (hostOpEvent op s) s
  rw [hostTurn_cons ops ht]
  cases op with
  | poll => exact absurd rfl h
  | _ => rfl

/-- Operations without a poll end in as many turns of the host as there are. -/
theorem runHost_replicate_host {ops : List HostOp} (h : HostOp.poll ∉ ops) (s : State) :
    (runHost (List.replicate ops.length .host) ops s).1 = [] := by
  induction ops generalizing s with
  | nil => rfl
  | cons op ops ih =>
    obtain ⟨hop, hops⟩ := List.ne_and_not_mem_of_not_mem_cons h
    rw [List.length_cons, List.replicate_succ, runHost_host, hostTurn_fst_of_ne_poll (Ne.symm hop)]
    exact ih hops _

/-- The state without what a directive and the peripheral beside it may change: DMEM, the host's word, the draw counter, PEND and
SHIFTBUF. -/
def quietView (s : State) : State := { s with dmem := [], hostData := 0, draws := 0, pend := none, shiftBuf := 0 }

theorem eq_of_quietView {s t : State} (h : quietView t = quietView s) :
    t = { s with dmem := t.dmem, hostData := t.hostData, draws := t.draws, pend := t.pend, shiftBuf := t.shiftBuf } :=
  calc t = { quietView t with
          dmem := t.dmem, hostData := t.hostData, draws := t.draws, pend := t.pend, shiftBuf := t.shiftBuf } := rfl
    _ = _ := by rw [h]; rfl

theorem busy_of_quietView {s t : State} (h : quietView t = quietView s) : busy t = busy s := by
  show busy (quietView t) = busy (quietView s)
  rw [h]

/-- Where a run of a directive stands: at its poll, before a word, or between the read and the write of one. -/
inductive DirectiveAt (base : Nat) (bytes : List Nat) (m : Memory) (ops : List HostOp) (t : State) : Prop
  | poll (ks : List Nat) (hops : ops = .poll :: wordOps base bytes ks) (hs : Stored base bytes m ks t.dmem)
  | word (ks : List Nat) (hops : ops = wordOps base bytes ks) (hs : Stored base bytes m ks t.dmem)
  | write (k : Nat) (ks : List Nat) (hops : ops = .writeWord base bytes (BitVec.ofNat 6 k) :: wordOps base bytes ks)
      (hs : Stored base bytes m (k :: ks) t.dmem) (hw : ReadFrom t.dmem k t.hostData)

section
variable {base : Nat} {bytes : List Nat} {m : Memory} {ops : List HostOp} {t : State}

/-- A turn of the host while the block is not busy takes the directive on, and changes DMEM, the host's word and the draw counter at
most. -/
theorem DirectiveAt.host (hb : busy t = false) (h : DirectiveAt base bytes m ops t) :
    DirectiveAt base bytes m (hostTurn ops t).1 (hostTurn ops t).2 ∧ quietView (hostTurn ops t).2 = quietView t ∧
      (hostTurn ops t).2.pend = t.pend ∧ (hostTurn ops t).2.shiftBuf = t.shiftBuf := by
  cases h with
  | poll ks hops hs =>
    rw [hops, hostTurn_poll, hb]
    exact ⟨.word ks rfl hs, rfl, rfl, rfl⟩
  | word ks hops hs =>
    cases ks with
    | nil => rw [hops]; exact ⟨.word [] rfl hs, rfl, rfl, rfl⟩
    | cons k ks =>
      have hread := readFrom_readDmemWord (hs.inRange k List.mem_cons_self) t
      rw [hops, wordOps_cons, hostTurn_readWord, hostRead_offDmem]
      exact ⟨.write k ks rfl hs hread, rfl, rfl, rfl⟩
  | write k ks hops hs hw =>
    rw [hops, hostTurn_writeWord base bytes _ _ hb, wordIndex_toNat (hs.inRange k List.mem_cons_self)]
    exact ⟨.word ks rfl (hs.write hw), rfl, rfl, rfl⟩

/-- The other agents leave DMEM and the host's word alone. -/
theorem DirectiveAt.congr {u : State} (hd : u.dmem = t.dmem) (hh : u.hostData = t.hostData)
    (h : DirectiveAt base bytes m ops t) : DirectiveAt base bytes m ops u := by
  cases h with
  | poll ks hops hs => exact .poll ks hops (hd ▸ hs)
  | word ks hops hs => exact .word ks hops (hd ▸ hs)
  | write k ks hops hs hw => exact .write k ks hops (hd ▸ hs) (by rw [hd, hh]; exact hw)

/-- A directive with no operation left has stored every word. -/
theorem DirectiveAt.stored (h : DirectiveAt base bytes m [] t) : Stored base bytes m [] t.dmem := by
  cases h with
  | poll ks hops hs => cases hops
  | word ks hops hs =>
    cases ks with
    | nil => exact hs
    | cons k ks => cases hops
  | write k ks hops hs hw => cases hops

end

/-- A run of a directive from `s` beside the other agents, whose turns are among `turns`: where it stands, and what it has left alone. -/
structure DirectiveRun (base : Nat) (bytes : List Nat) (turns : List Turn) (s : State) (ops : List HostOp) (t : State) :
    Prop where
  place : DirectiveAt base bytes s.dmem ops t
  quiet : quietView t = quietView s
  periph : t.pend = s.pend ∧ t.shiftBuf = s.shiftBuf ∨ ∃ e, Turn.agent e ∈ turns ∧ isPeripheral e = true

section
variable {base : Nat} {bytes : List Nat} {turns : List Turn} {ops : List HostOp} {s t : State}

theorem DirectiveRun.host (hb : busy s = false) (h : DirectiveRun base bytes turns s ops t) :
    DirectiveRun base bytes turns s (hostTurn ops t).1 (hostTurn ops t).2 := by
  obtain ⟨hplace, hquiet, hperiph⟩ := h
  obtain ⟨hplace', hquiet', hpend, hshift⟩ := hplace.host ((busy_of_quietView hquiet).trans hb)
  exact ⟨hplace', hquiet'.trans hquiet, by rw [hpend, hshift]; exact hperiph⟩

theorem DirectiveRun.agent {e : Event} {u : State} (hb : busy s = false)
    (he : Turn.agent e ∈ turns ∧ (e = .sequencer ∨ isPeripheral e = true)) (ht : runEvent e t = .next u)
    (h : DirectiveRun base bytes turns s ops t) : DirectiveRun base bytes turns s ops u := by
  obtain ⟨hmem, he⟩ := he
  obtain ⟨hplace, hquiet, hperiph⟩ := h
  cases e with
  | sequencer =>
    cases ht
    have hidle := busy_eq_false.mp ((busy_of_quietView hquiet).trans hb)
    rw [sequencerStep_nil hidle]
    exact ⟨hplace, hquiet, hperiph⟩
  | peripheral b k =>
    cases ht
    rw [periphComplete_eq]
    exact ⟨DirectiveAt.congr (t := t) rfl rfl hplace, hquiet, .inr ⟨_, hmem, rfl⟩⟩
  | _ => simp [isPeripheral] at he

end

/-! ### The obligation about the directive -/

/-- Settles O60: the run keeps where the directive stands, and at its end every covered word is stored. -/
theorem dmemDirectiveStores : Obligations.DmemDirectiveStores := by
  refine ⟨fun base bytes h => lineOps_of_not_wf ?_, fun base bytes hbase hbytes hlen => ?_⟩
  · rcases h with h | ⟨b, hb, h⟩ | h
    · simp [AsmLine.wf, fitsByte_of_ge h]
    · have hall : bytes.all fitsByte = false := List.all_eq_false.mpr ⟨b, hb, by simp [fitsByte_of_ge h]⟩
      simp [AsmLine.wf, hall]
    · simp [AsmLine.wf, Nat.not_le.mpr h]
  have hwf : (AsmLine.dmem base bytes).wf = true := by
    simp only [AsmLine.wf, fitsByte_iff.mpr hbase, hlen, decide_true, Bool.and_true, Bool.true_and]
    exact List.all_eq_true.mpr fun b hb => fitsByte_iff.mpr (hbytes b hb)
  refine ⟨directiveOps base bytes, lineOps_of_wf hwf, fun s hb => ?_, fun s hb => ?_, fun turns s t hb hA hrun => ?_⟩
  · rw [hostTurn_poll, if_pos hb]
  · rw [List.replicate_succ, runHost_host, hostTurn_poll, hb]
    exact runHost_replicate_host (poll_not_mem_wordOps base bytes _) _
  · have start : DirectiveRun base bytes turns s (.poll :: directiveOps base bytes) s :=
      ⟨.poll _ rfl (.before s.dmem hlen), rfl, .inl ⟨rfl, rfl⟩⟩
    have ends := runHost_keeps (P := DirectiveRun base bytes turns s) (.host hb) (.agent hb)
      (fun e he => ⟨he, hA e he⟩) start
    rw [hrun] at ends
    obtain ⟨hplace, hquiet, hperiph⟩ := ends
    have hs := hplace.stored
    exact ⟨eq_of_quietView hquiet, hperiph, fun j hj => hs.named _ _ (namedByte_add hj) List.not_mem_nil,
      fun a v ha hv => hs.kept a v (namedByte_eq_none ha) hv⟩

end Sys2Proof.Machine
end

section
/-! PROOFS. The invariant: the error latch under a host write, what a µop does to TRACE, PEND and FRAMING, the list a command expands
into; then that every event, and so every step and every run, keeps `Inv` (R64, R110, R118, R123, R124, R166). -/

namespace Sys2Proof.Machine

open Sys2Proof

/-! ### The error latch (R23, R161, R166) -/

/-- A rejection with a code that is not NONE keeps the latch consistent. -/
theorem latchConsistent_reject {c : ErrCode} {s : State} (hc : c ≠ .none) (h : latchConsistent s) :
    latchConsistent (reject c s) := by
  rcases reject_cases c s with ⟨-, hq⟩ | ⟨-, hq⟩
  · rw [hq]; exact h
  · rw [hq]; simp [latchConsistent, hc]

theorem latchConsistent_acceptCommand (us : List Uop) {s : State} (h : latchConsistent s) :
    latchConsistent (acceptCommand us s) := by
  unfold acceptCommand
  split
  · exact latchConsistent_reject nofun h
  · split
    · exact latchConsistent_reject nofun h
    · exact h

theorem latchConsistent_acceptInit (us : List Uop) {s : State} (h : latchConsistent s) :
    latchConsistent (acceptInit us s) := by
  unfold acceptInit
  split
  · exact latchConsistent_reject nofun h
  · split
    · exact latchConsistent_reject nofun h
    · split
      · exact latchConsistent_reject nofun h
      · exact h

theorem latchConsistent_acceptNone (c : DecodeError) {s : State} (h : latchConsistent s) :
    latchConsistent (acceptNone (decodeErrCode c) s) := by
  unfold acceptNone
  split
  · exact latchConsistent_reject nofun h
  · cases c with
    | illegalOp => exact latchConsistent_reject nofun h
    | rsvdField => exact latchConsistent_reject nofun h

theorem latchConsistent_hostWriteCmd {w : Word} {s t : State} (ht : hostWriteCmd w s = .next t)
    (h : latchConsistent s) : latchConsistent t := by
  unfold hostWriteCmd at ht
  split at ht
  · rw [exec_eq] at ht
    cases ht
    split
    · exact latchConsistent_acceptInit _ h
    · exact latchConsistent_acceptCommand _ h
  · cases ht
    exact latchConsistent_acceptNone _ h

/-- A host write keeps the latch consistent: no rejection has the code NONE. -/
theorem latchConsistent_hostWrite {off : Offset} {w : Word} {s t : State} (ht : hostWrite off w s = .next t)
    (h : latchConsistent s) : latchConsistent t := by
  unfold hostWrite at ht
  split at ht
  case h_1 => exact latchConsistent_hostWriteCmd ht h
  case h_2 | h_4 | h_5 =>
    cases ht
    exact h
  case h_3 =>
    cases ht
    unfold hostWriteStatus
    split
    · simp [latchConsistent]
    · exact h
  case h_6 =>
    cases ht
    unfold hostWriteDmem
    split
    · exact latchConsistent_reject nofun h
    · exact h

/-! ### What a µop does to TRACE, PEND and FRAMING (R42, R105) -/

/-- A µop issues one action, or leaves the three alone, or is CONFIGURE. -/
theorem runUop_port (u : Uop) (s : State) :
    (∃ e, (runUop u s).trace = s.trace ++ [e] ∧ (runUop u s).pend = pendingOf e ∧
      (runUop u s).framing = framingStep s.framing e) ∨
    ((runUop u s).trace = s.trace ∧ (runUop u s).pend = s.pend ∧ (runUop u s).framing = s.framing) ∨
    ∃ d, u = .configure d := by
  cases u with
  | cond c =>
    cases c with
    | start => exact .inl ⟨.start, by simp only [runUop_condStart, pendingOf, framingStep, and_self]⟩
    | restart => exact .inl ⟨.restart, by simp only [runUop_condRestart, pendingOf, framingStep, and_self]⟩
    | stop => exact .inl ⟨.stop, by simp only [runUop_condStop, pendingOf, framingStep, and_self]⟩
  | loadLit b => exact .inl ⟨.load b, by simp only [runUop_loadLit, pendingOf, framingStep, and_self]⟩
  | loadMem x => 
    refine .inl ⟨.load ((s.dmem.read x.toNat).getD (Config.unwrittenByte s.draws)), ?_⟩
    simp only [runUop_loadMem, pendingOf, framingStep, and_self]
  | rcvEn => exact .inl ⟨.rcvEnable, by simp only [runUop_rcvEn, pendingOf, framingStep, and_self]⟩
  | ackLit k => exact .inl ⟨.ack k, by simp only [runUop_ackLit, pendingOf, framingStep, and_self]⟩
  | ackPol => exact .inl ⟨.ack s.pol, by simp only [runUop_ackPol, pendingOf, framingStep, and_self]⟩
  | waitIdle => exact .inr (.inl ⟨rfl, rfl, rfl⟩)
  | capture => exact .inr (.inl ⟨rfl, rfl, rfl⟩)
  | storeMem x => exact .inr (.inl ⟨rfl, rfl, rfl⟩)
  | polMem x => exact .inr (.inl ⟨rfl, rfl, rfl⟩)
  | configure d => exact .inr (.inr ⟨d, rfl⟩)

theorem framingOf_append (tr l : List PortAction) : framingOf (tr ++ l) = l.foldl framingStep (framingOf tr) :=
  List.foldl_append

/-- A µop keeps FRAMING the function of TRACE (R42, R107). -/
theorem runUop_framed (u : Uop) {s : State} (h : s.framing = framingOf s.trace) :
    (runUop u s).framing = framingOf (runUop u s).trace := by
  rcases runUop_port u s with ⟨e, ht, -, hf⟩ | ⟨ht, -, hf⟩ | ⟨d, rfl⟩
  · rw [ht, hf, framingOf_append, h]; rfl
  · rw [ht, hf, h]
  · simp only [runUop_configure, framingOf_append, h]; rfl

/-- A µop leaves PEND none or what the last action issued left; CONFIGURE issues none that sets it (R105, R114). -/
theorem runUop_pendIsLast {u : Uop} {s : State} (h : pendIsLast s) (hconf : ∀ d, u = .configure d → s.pend = none) :
    pendIsLast (runUop u s) := by
  rcases runUop_port u s with ⟨e, ht, hp, -⟩ | ⟨ht, hp, -⟩ | ⟨d, rfl⟩
  · exact .inr ⟨e, by rw [ht, List.getLast?_concat], hp⟩
  · unfold pendIsLast
    rw [ht, hp]; exact h
  · exact .inl (by rw [runUop_configure]; exact hconf d rfl)

theorem runUop_dmem_wf (u : Uop) {s : State} (h : s.dmem.wf = true) : (runUop u s).dmem.wf = true := by
  by_cases hst : ∃ x, u = .storeMem x
  · obtain ⟨x, rfl⟩ := hst
    exact memWrite_wf x s.t h
  · rw [runUop_dmem s (not_exists.mp hst)]; exact h

/-! ### The list left after a µop (R110, R118) -/

section
variable {s : State} {u : Uop} {rest : List Uop} (hu : s.uops = u :: rest) (he : u = .waitIdle → s.pend = none)
include hu he

/-- Past a WAITIDLE the peripheral is idle; past any other µop the list guards itself. -/
theorem guarded_sequencer (h : guarded (decide (s.pend = none)) s.uops = true) :
    guarded (decide ((runUop u s).pend = none)) rest = true := by
  rw [hu, guarded, Bool.and_eq_true] at h
  obtain ⟨-, hrest⟩ := h
  by_cases hw : u = .waitIdle
  · subst hw
    simpa [runUop_waitIdle, he rfl] using hrest
  · exact guarded_of_false (by simpa [hw] using hrest)

/-- A receive is pending after a µop only if the µop is RCVEN, and then WAITIDLE is next. -/
theorem receiveHeld_sequencer (h : receiveHeld s) : receiveHeld { runUop u s with uops := rest } := by
  obtain ⟨hwaited, hheld⟩ := h
  rw [hu] at hwaited hheld
  rw [receiveWaited, Bool.and_eq_true, Bool.or_eq_true, decide_eq_true_eq, decide_eq_true_eq] at hwaited
  obtain ⟨hnext, hrest⟩ := hwaited
  refine ⟨hrest, fun hp => ?_⟩
  rcases runUop_rcv hp with rfl | ⟨hp, -⟩
  · exact hnext.resolve_left (not_not.mpr rfl)
  · have hw : u = .waitIdle := Option.some.inj (hheld hp)
    rw [he hw] at hp
    cases hp

end

/-! ### The list a command expands into (R102) -/

/-- Only INIT's list has a CONFIGURE (R120). -/
theorem configure_not_mem_expand {i : Instr} (hi : i ≠ .init) (arg : Word) (d : BitVec Config.divW) :
    Uop.configure d ∉ expand i arg := by
  cases i with
  | init => exact absurd rfl hi
  | _ =>
    simp [expand, waitP, startP, restartP, stopP, ackP, writeP, readP, callP, callPlusP, writePlusP, readPlusP,
      writeCompleteP, readCompleteP, burstP, payloadP, slotP]

/-- Every command's list is guarded, whatever is pending (R118). -/
theorem guarded_expand (i : Instr) (arg : Word) (b : Bool) : guarded b (expand i arg) = true := by
  by_cases hi : i = .init
  · subst hi; rfl
  · obtain ⟨hg, -⟩ := expand_tame hi arg
    exact hg b

/-- A command just accepted waits for every receive; INIT is accepted with nothing pending (R110, R124). -/
theorem receiveHeld_accepted {i : Instr} {s : State} (h : i = .init → s.pend = none) : receiveHeld (accepted i s) := by
  by_cases hi : i = .init
  · subst hi
    refine ⟨rfl, fun hp => ?_⟩
    rw [show (accepted .init s).pend = s.pend from rfl, h rfl] at hp
    cases hp
  · exact (tame_accepted hi s).receive

/-! ### The invariant, event by event -/

section
variable {s t : State}

/-- The invariant is about the command's view and the error latch. -/
theorem Inv.of_commandView (h : Inv s) (hv : commandView t = commandView s) (hl : latchConsistent t) : Inv t := by
  have ht : t = { s with
      arg := t.arg, cmdErr := t.cmdErr, errCode := t.errCode, hostData := t.hostData, inbox := t.inbox,
      draws := t.draws } := by
    cases s; cases t
    simp_all [commandView]
  obtain ⟨hdmem, -, hguard, hreceive, hquiet, halone, hframed, hlast⟩ := h
  rw [ht] at hl ⊢
  exact ⟨hdmem, hl, hguard, hreceive, hquiet, halone, hframed, hlast⟩

theorem Inv.after_reject (h : Inv s) (c : ErrCode) (hl : latchConsistent (reject c s)) : Inv (reject c s) := by
  refine h.of_commandView ?_ hl
  rcases reject_cases c s with ⟨-, hq⟩ | ⟨-, hq⟩
  · rw [hq]
  · rw [hq]; rfl

/-- Before INIT nothing is pending and nothing was issued; after it a command's list is guarded and waits for its receives. -/
theorem Inv.after_accept {i : Instr} (h : Inv s) (ha : acceptable i s = true) : Inv (accepted i s) := by
  have hinit : i = .init → s.pend = none ∧ s.trace = [] := fun hi => by
    obtain ⟨-, hfirst, -⟩ := acceptable_iff.mp ha
    obtain ⟨hdone, -⟩ := hfirst hi
    obtain ⟨-, hp, ht, -, -⟩ := h.quiet hdone
    exact ⟨hp, ht⟩
  refine ⟨h.dmemWf, h.latch, guarded_expand i s.arg _, receiveHeld_accepted fun hi => (hinit hi).1, nofun,
    fun d hd => ?_, h.framed, h.pendLast⟩
  by_cases hi : i = .init
  · subst hi
    have hd : d = divisor s.arg := by simpa [accepted, expand, initP] using hd
    exact ⟨by rw [hd]; rfl, hinit rfl⟩
  · exact absurd hd (configure_not_mem_expand hi s.arg d)

theorem Inv.after_hostWrite {off : Offset} {w : Word} (h : Inv s) (ht : hostWrite off w s = .next t) : Inv t := by
  have hl : latchConsistent t := latchConsistent_hostWrite ht h.latch
  rcases hostWrite_cases ht with
    rfl | ⟨c, rfl⟩ | ⟨i, -, -, ha, rfl⟩ | ⟨-, rfl⟩ | ⟨-, -, rfl⟩ | ⟨k, -, -, rfl⟩
  · exact h
  · exact h.after_reject c hl
  · exact h.after_accept ha
  · exact h.of_commandView rfl hl
  · exact h.of_commandView rfl hl
  · obtain ⟨hdmem, -, hguard, hreceive, hquiet, halone, hframed, hlast⟩ := h
    exact ⟨writeDmemWord_wf k w hdmem, hl, hguard, hreceive, hquiet, halone, hframed, hlast⟩

theorem Inv.after_hostRead (h : Inv s) (off : Offset) : Inv (hostRead off s) := by
  obtain ⟨v, n, hv⟩ := hostRead_frame off s
  rw [hv]
  exact h.of_commandView rfl h.latch

/-- A µop keeps the invariant: a busy block has seen INIT, and a CONFIGURE is alone. -/
theorem Inv.after_sequencer (h : Inv s) : Inv (sequencerStep s) := by
  rcases sequencerStep_cases s with ⟨-, hq⟩ | ⟨u, rest, hu, he, hq⟩
  · rw [hq]; exact h
  · obtain ⟨hdmem, hlatch, hguard, hreceive, hquiet, halone, hframed, hlast⟩ := h
    obtain ⟨-, -, hdone, herr, hcode, -, -⟩ := runUop_frame u s
    rw [hq]
    refine ⟨runUop_dmem_wf u hdmem, ?_, guarded_sequencer hu he hguard, receiveHeld_sequencer hu he hreceive,
      fun hd => ?_, fun d hd => ?_, runUop_framed u hframed, runUop_pendIsLast hlast ?_⟩
    · show (runUop u s).cmdErr = false ↔ (runUop u s).errCode = .none
      rw [herr, hcode]; exact hlatch
    · obtain ⟨hidle, -⟩ := hquiet (hdone.symm.trans hd)
      rw [hu] at hidle
      cases hidle
    · obtain ⟨honly, -, -⟩ := halone d (by rw [hu]; exact List.mem_cons_of_mem _ hd)
      rw [hu] at honly
      cases honly
      cases hd
    · rintro d rfl
      obtain ⟨-, hp, -⟩ := halone d (by rw [hu]; exact List.mem_cons_self)
      exact hp

/-- A completion only makes the peripheral idle. -/
theorem Inv.after_peripheral (h : Inv s) (b : Byte) (k : Bool) : Inv (periphComplete b k s) := by
  obtain ⟨hdmem, hlatch, hguard, hreceive, hquiet, halone, hframed, hlast⟩ := h
  obtain ⟨hwaited, -⟩ := hreceive
  rw [periphComplete_eq]
  refine ⟨hdmem, hlatch, guarded_mono hguard, ⟨hwaited, nofun⟩, fun hd => ?_, fun d hd => ?_, hframed, .inl rfl⟩
  · obtain ⟨hidle, -, hrest⟩ := hquiet hd
    exact ⟨hidle, rfl, hrest⟩
  · obtain ⟨honly, -, ht⟩ := halone d hd
    exact ⟨honly, rfl, ht⟩

theorem inv_resetBlock (s : State) : Inv (resetBlock s) :=
  resetMeetsInvariant.of_commandView rfl resetMeetsInvariant.latch

/-- Every event keeps the invariant. -/
theorem Inv.after_event {e : Event} (h : Inv s) (ht : runEvent e s = .next t) : Inv t := by
  cases e with
  | hostWrite off w => exact h.after_hostWrite ht
  | hostRead off => cases ht; exact h.after_hostRead off
  | sequencer => cases ht; exact h.after_sequencer
  | peripheral b k => cases ht; exact h.after_peripheral b k
  | reset => cases ht; exact inv_resetBlock s

/-- Every run of events keeps the invariant. -/
theorem Inv.after_run {es : List Event} (h : Inv s) (ht : runEvents es s = .next t) : Inv t := by
  induction es generalizing s with
  | nil => cases ht; exact h
  | cons e es ih =>
    obtain ⟨u, hu⟩ := runEvent_next e s
    simp only [runEvents, hu] at ht
    exact ih (h.after_event hu) ht

/-- Taking the next event from the interleaving changes nothing but the inbox and the draw counter (log entry 4). -/
theorem nextEvent_frame (s : State) :
    (nextEvent s).2 = { s with inbox := (nextEvent s).2.inbox, draws := (nextEvent s).2.draws } := by
  unfold nextEvent
  split <;> rfl

theorem Inv.after_nextEvent (h : Inv s) : Inv (nextEvent s).2 := by
  rw [nextEvent_frame]
  exact h.of_commandView rfl h.latch

end

/-! ### The obligations about the invariant -/

/-- Settles O36: a step takes the next event from the interleaving, and every event keeps the invariant. -/
theorem stepKeepsInvariant : Obligations.StepKeepsInvariant := fun _ _ h ht => h.after_nextEvent.after_event ht

/-- Settles O38: the invariant holds along the run, and an issuing head µop is guarded only by an idle peripheral. -/
theorem noActionIssuedWhilePending : Obligations.NoActionIssuedWhilePending := by
  intro es s t hs ht u rest hu hi
  have hinv : Inv s := hs.elim (fun hreset => hreset ▸ resetMeetsInvariant) id
  have hguard := (hinv.after_run ht).issueGuarded
  rw [hu, guarded, hi, Bool.and_eq_true] at hguard
  obtain ⟨hidle, -⟩ := hguard
  simpa using hidle

end Sys2Proof.Machine
end

section
/-! PROOFS. Runs of a command: what is pending at its end, that its end does not depend on the interleaving, that it has a run to its
end, and that it hangs while an action stays pending (R103, R106, R115, R116, R119, R173). -/

namespace Sys2Proof.Machine

open Sys2Proof

/-- A state that has just accepted a command, INIT with nothing pending, is tame. -/
theorem tame_accepted_of_init {i : Instr} {s : State} (h : i = .init → s.pend = none) : Tame (accepted i s) := by
  by_cases hi : i = .init
  · subst hi
    exact ⟨rfl, receiveHeld_accepted h, rfl, .inl (h rfl)⟩
  · exact tame_accepted hi s

/-! ### PEND (R105, R106, R115) -/

/-- PEND after a µop that is performed in order. -/
def pendUop (p : Option Pending) : Uop → Option Pending
  | .waitIdle => none
  | .cond .start => some .start
  | .cond .restart => some .restart
  | .cond .stop => some .stop
  | .loadLit _ | .loadMem _ => some .xmit
  | .rcvEn => some .rcv
  | .ackLit _ | .ackPol => some .ack
  | .capture | .polMem _ | .storeMem _ | .configure _ => p

/-- A WAITIDLE waits for the pending action, every other µop sets PEND or leaves it alone. -/
theorem seqUop_pend_eq {u : Uop} (d : Byte) (s : State) (hw : u ≠ .waitIdle) :
    (seqUop d u s).pend = pendUop s.pend u := by
  cases u with
  | waitIdle => exact absurd rfl hw
  | cond c => cases c <;> simp only [seqUop, runUop_condStart, runUop_condRestart, runUop_condStop, pendUop]
  | _ =>
    simp only [seqUop, runUop_loadLit, runUop_rcvEn, runUop_capture, runUop_ackLit, runUop_ackPol, runUop_storeMem,
      runUop_configure, pendUop]

/-- A µop other than WAITIDLE takes one draw off the list and delivers nothing. -/
theorem seqRun_cons {u : Uop} (us : List Uop) (bs ds : List Byte) (s : State) (hw : u ≠ .waitIdle) :
    seqRun (u :: us) bs ds s = seqRun us bs ds.tail (seqUop (ds.headD 0) u s) := by
  cases u with
  | waitIdle => exact absurd rfl hw
  | _ => rfl

/-- A WAITIDLE completes the pending action, a receive with the next byte delivered. -/
theorem seqRun_waitIdle (us : List Uop) (bs : List Byte) (s : State) :
    ∃ bs' b, ∀ ds, seqRun (.waitIdle :: us) bs ds s = seqRun us bs' ds (settle b s) := by
  by_cases hr : s.pend = some .rcv
  · exact ⟨bs.tail, bs.headD 0, fun ds => by rw [seqRun, if_pos hr]⟩
  · exact ⟨bs, 0, fun ds => by rw [seqRun, if_neg hr]⟩

/-- A list performed in order folds PEND over its µops. -/
theorem seqRun_pend (us : List Uop) (bs ds : List Byte) (s : State) :
    (seqRun us bs ds s).1.pend = us.foldl pendUop s.pend := by
  induction us generalizing bs ds s with
  | nil => rfl
  | cons u us ih =>
    rw [List.foldl_cons]
    by_cases hw : u = .waitIdle
    · subst hw
      obtain ⟨bs', b, hrun⟩ := seqRun_waitIdle us bs s
      rw [hrun, ih]; rfl
    · rw [seqRun_cons _ _ _ _ hw, ih, seqUop_pend_eq _ _ hw]

/-- PEND after a command's list (R125–R131). -/
theorem expand_pend (i : Instr) (arg : Word) (p : Option Pending) :
    (expand i arg).foldl pendUop p = pendAfter i p := by
  cases i with
  | writeComplete a base len => simp only [expand, writeCompleteP, List.foldl_append]; rfl
  | readComplete a base len => simp only [expand, readCompleteP, List.foldl_append]; rfl
  | _ => rfl

/-! ### Draws (R75, R198) -/

/-- A µop whose byte is written does not depend on the value of an unwritten byte. -/
theorem seqUop_of_written {u : Uop} {s : State} (d d' : Byte)
    (h : ∀ x, u.readAddr = some x → ∃ v, s.dmem.read x.toNat = some v) : seqUop d u s = seqUop d' u s := by
  cases u with
  | loadMem x =>
    obtain ⟨v, hv⟩ := h x rfl
    simp only [seqUop, hv, Option.getD_some]
  | polMem x =>
    obtain ⟨v, hv⟩ := h x rfl
    simp only [seqUop, hv, Option.getD_some]
  | _ => rfl

/-- A list whose bytes are written runs alike with any draws. -/
theorem seqRun_of_readsAs {m : Byte → Byte} {us : List Uop} {s : State} (hm : ReadsAs m { s with uops := us })
    (bs ds ds' : List Byte) : (seqRun us bs ds s).1 = (seqRun us bs ds' s).1 := by
  induction us generalizing bs ds ds' s with
  | nil => rfl
  | cons u us ih =>
    have hrest : ReadsAs m { runUop u { s with uops := u :: us } with uops := us } := hm.uop rfl
    by_cases hw : u = .waitIdle
    · subst hw
      obtain ⟨bs', b, hrun⟩ := seqRun_waitIdle us bs s
      rw [hrun, hrun]
      have hnext : ReadsAs m { settle b s with uops := us } := hrest.congr rfl rfl
      exact ih hnext bs' ds ds'
    · have hread : ∀ x, u.readAddr = some x → ∃ v, s.dmem.read x.toNat = some v := fun x hx =>
        ⟨m x, hm.known u List.mem_cons_self x hx⟩
      rw [seqRun_cons _ _ _ _ hw, seqRun_cons _ _ _ _ hw, seqUop_of_written (ds.headD 0) (ds'.headD 0) hread]
      have hview : runView (seqUop (ds'.headD 0) u s) = runView (runUop u { s with uops := u :: us }) :=
        calc runView (seqUop (ds'.headD 0) u s)
            = runView (seqUop (Config.unwrittenByte s.draws) u s) := by rw [seqUop_of_written _ _ hread]
          _ = runView (seqUop (Config.unwrittenByte s.draws) u { s with uops := u :: us }) := seqUop_congr _ u rfl
          _ = runView (runUop u { s with uops := u :: us }) := (runUop_eq_seqUop u { s with uops := u :: us }).symm
      have hnext : ReadsAs m { seqUop (ds'.headD 0) u s with uops := us } := hrest.of_runView hview rfl
      exact ih hnext bs _ _

/-! ### Rounds (R103, R106, R116) -/

theorem finish_cons_next {e : Event} {s t : State} (es : List Event) (h : runEvent e s = .next t) (hb : s.uops ≠ [])
    (hr : e ≠ .reset) : finish (e :: es) s = finish es t := by
  rw [finish, if_neg (not_or.mpr ⟨hb, hr⟩), h]

theorem runEvents_cons_next {e : Event} {s t : State} (es : List Event) (h : runEvent e s = .next t) :
    runEvents (e :: es) s = runEvents es t := by
  rw [runEvents, h]

/-- With nothing pending the sequencer performs its head µop. -/
theorem sequencerStep_of_idle {s : State} {u : Uop} {rest : List Uop} (hu : s.uops = u :: rest) (hp : s.pend = none) :
    sequencerStep s = { runUop u s with uops := rest } := by
  have he : uopEnabled u s = true := by
    cases u with
    | waitIdle => simp [uopEnabled, hp]
    | _ => rfl
  rw [sequencerStep_cons hu, if_pos he]

/-- A round completes what is pending and removes one µop, for every answer of the peer. -/
theorem round_removes {s : State} {u : Uop} {rest : List Uop} (hu : s.uops = u :: rest) (a : Byte × Bool) :
    ∃ t, t.uops = rest ∧ ∀ es,
      finish ([.peripheral a.1 a.2, .sequencer] ++ es) s = finish es t ∧
      runEvents ([.peripheral a.1 a.2, .sequencer] ++ es) s = runEvents es t := by
  have hs : s.uops ≠ [] := by rw [hu]; exact List.cons_ne_nil u rest
  have hidle : (periphComplete a.1 a.2 s).pend = none := by rw [periphComplete_eq]
  have hup : (periphComplete a.1 a.2 s).uops = u :: rest := by rw [periphComplete_eq]; exact hu
  have hp : (periphComplete a.1 a.2 s).uops ≠ [] := by rw [hup]; exact List.cons_ne_nil u rest
  have hperiph : runEvent (.peripheral a.1 a.2) s = .next (periphComplete a.1 a.2 s) := rfl
  have hseq : runEvent .sequencer (periphComplete a.1 a.2 s) =
      .next { runUop u (periphComplete a.1 a.2 s) with uops := rest } :=
    congrArg Host.Outcome.next (sequencerStep_of_idle hup hidle)
  refine ⟨{ runUop u (periphComplete a.1 a.2 s) with uops := rest }, rfl, fun es => ⟨?_, ?_⟩⟩
  · exact (finish_cons_next _ hperiph hs nofun).trans (finish_cons_next es hseq hp nofun)
  · exact (runEvents_cons_next _ hperiph).trans (runEvents_cons_next es hseq)

/-! ### The hang (R106, R173) -/

/-- While an action is pending and WAITIDLE is next, nothing but a completion or a reset moves the command. -/
theorem hang_event {e : Event} {s t : State} {rest : List Uop} (hu : s.uops = .waitIdle :: rest) (hp : s.pend ≠ none)
    (he : isPeripheral e = false) (hr : e ≠ .reset) (h : runEvent e s = .next t) :
    runView t = runView s ∧ t.uops = s.uops := by
  have hb : s.uops ≠ [] := by rw [hu]; exact List.cons_ne_nil _ rest
  cases e with
  | hostWrite off w => exact host_busy (e := .hostWrite off w) rfl hb h
  | hostRead off => exact host_busy (e := .hostRead off) rfl hb h
  | sequencer =>
    cases h
    rcases sequencerStep_cases s with ⟨-, hq⟩ | ⟨u, rest', hu', hidle, -⟩
    · rw [hq]; exact ⟨rfl, rfl⟩
    · rw [hu] at hu'
      cases hu'
      exact absurd (hidle rfl) hp
  | peripheral b k => cases he
  | reset => exact absurd rfl hr

/-! ### The obligations about a command's run -/

/-- Settles O22: a run ends as the command's list performed in order, which folds PEND over it. -/
theorem commandPend : Obligations.CommandPend := by
  intro i s ha hinit
  refine ⟨exec_of_acceptable ha, fun es u h => ?_⟩
  obtain ⟨-, ds, hv⟩ := finish_eq_seqRun (tame_accepted_of_init hinit) h
  calc u.pend
      = (seqRun (expand i s.arg) (receivedBytes es (accepted i s)) ds (accepted i s)).1.pend := runView_pend hv
    _ = (expand i s.arg).foldl pendUop s.pend := seqRun_pend _ _ _ _
    _ = pendAfter i s.pend := expand_pend i s.arg s.pend

/-- Settles O30: both runs end as the command's list performed in order with the bytes delivered, and no draw matters where every
operand is written. -/
theorem interleavingsAgree : Obligations.InterleavingsAgree := by
  intro i s _ hw hinit es₁ es₂ u₁ u₂ h₁ h₂ hbytes
  obtain ⟨hu₁, ds₁, hv₁⟩ := finish_eq_seqRun (tame_accepted_of_init hinit) h₁
  obtain ⟨hu₂, ds₂, hv₂⟩ := finish_eq_seqRun (tame_accepted_of_init hinit) h₂
  refine commandView_congr ?_ (hu₁.trans hu₂.symm)
  rw [hv₁, hv₂, hbytes, seqRun_of_readsAs (readsAs_accepted hw) _ ds₁ ds₂]

/-- Settles O18, by induction on the answers: each round removes one µop. -/
theorem roundsComplete : Obligations.RoundsComplete := by
  intro s answers hlen
  induction answers generalizing s with
  | nil =>
    have hu : s.uops = [] := List.length_eq_zero_iff.mp hlen.symm
    exact ⟨s, if_pos hu, rfl⟩
  | cons a answers ih =>
    obtain ⟨u, rest, hu⟩ := List.exists_cons_of_length_eq_add_one hlen.symm
    obtain ⟨t, ht, hround⟩ := round_removes hu a
    obtain ⟨hfinish, hevents⟩ := hround (rounds answers)
    obtain ⟨v, hfin, hrun⟩ := ih t (by simpa [hu, ht] using hlen)
    exact ⟨v, hfinish.trans hfin, hevents.trans hrun⟩

/-- Settles O33, by induction on the events: each leaves the command's view and list alone. -/
theorem hangHolds : Obligations.HangHolds := by
  intro es s t rest hu hp hes h
  induction es generalizing s with
  | nil =>
    cases h
    exact ⟨rfl, busy_eq_true.mpr (by rw [hu]; exact List.cons_ne_nil _ rest)⟩
  | cons e es ih =>
    obtain ⟨m, hm⟩ := runEvent_next e s
    obtain ⟨he, hr⟩ := hes e List.mem_cons_self
    obtain ⟨hv, hu'⟩ := hang_event hu hp he hr hm
    rw [runEvents_cons_next es hm] at h
    obtain ⟨hview, hbusy⟩ := ih m (hu'.trans hu) (by rw [runView_pend hv]; exact hp)
      (fun e he => hes e (List.mem_cons_of_mem _ he)) h
    exact ⟨hview.trans (commandView_congr hv hu'), hbusy⟩

end Sys2Proof.Machine
end

section
/-! PROOFS. Single steps of the sequencer's family: the acceptance of a command and its frame, the µop list of each command, and a
peripheral step (R101, R102, R116, R117, R166). -/

namespace Sys2Proof.Machine

open Sys2Proof

/-- A burst's address as R102 writes it. -/
theorem burstAddr_eq (base : Byte) (j : Nat) : burstAddr base j = BitVec.ofNat 8 (base.toNat + j) := by
  apply BitVec.eq_of_toNat_eq
  simp only [burstAddr, BitVec.toNat_add, BitVec.toNat_ofNat]
  omega

/-- Settles O10, by the lemma about acceptable commands. -/
theorem acceptableCommandAccepted : Obligations.AcceptableCommandAccepted := fun _ _ => exec_of_acceptable

/-- Settles O17: a command write is a rejection, which touches the latch alone, or an acceptance, which leaves it. -/
theorem commandWriteFrame : Obligations.CommandWriteFrame := by
  intro i s t h
  rcases exec_cases h with ⟨c, rfl⟩ | ⟨ha, rfl⟩
  · refine ⟨?_, fun _ => reject_uops s c, fun _ => reject_initDone s c,
      fun hne => absurd (reject_uops s c) hne, fun a => by rw [reject_dmem]⟩
    rcases reject_cases c s with ⟨-, hq⟩ | ⟨-, hq⟩
    · rw [hq]
    · rw [hq]
  · obtain ⟨hb, -, hdone⟩ := acceptable_iff.mp ha
    refine ⟨rfl, fun hbusy => ?_, fun hi => (hdone hi).symm, fun _ => ⟨rfl, rfl⟩, fun _ => rfl⟩
    rw [hb] at hbusy
    cases hbusy

/-- Settles O11: the lists are the model's, their operands as R102 writes them. -/
theorem expandLists : Obligations.ExpandLists := by
  refine ⟨fun _ => rfl, fun rate => ⟨rfl, rfl, rfl, rfl, rfl, rfl, fun _ => rfl, fun p => ?_, fun a d => ?_,
    fun a d => ?_, fun _ => rfl, fun a base len => ?_, fun p => ?_, fun a base len => ?_⟩⟩
  · rw [← ackBit_eq]; rfl
  · rw [← addressByte_eq]; rfl
  · rw [← addressByte_eq]; rfl
  · simp only [← burstAddr_eq, expand, writeCompleteP, callP, addressByte_dirWrite]; rfl
  · rw [← ackBit_eq]; rfl
  · simp only [← burstAddr_eq, ← addressByte_dirRead, expand, readCompleteP, callP, addressByte_dirWrite]; rfl

/-- Settles O53: the event is `periphComplete`, whose one equation says both cases. -/
theorem peripheralCompletes : Obligations.PeripheralCompletes := fun b k s =>
  congrArg Host.Outcome.next (periphComplete_eq b k s)

end Sys2Proof.Machine
end

section
/-! PROOFS. The family of initialization: the port actions a command issues, in order; the registers and the DMEM a run leaves
alone; INIT's rejections, its one step and its divisor (R102, R114, R120–R124, R125–R130, R135–R138, R144–R152). -/

namespace Sys2Proof.Machine

open Sys2Proof

/-! ### The actions of a list (R105, R107–R114) -/

/-- POL after a µop, where DMEM reads as `m`. -/
def polUop (m : Byte → Byte) (p : Bool) : Uop → Bool
  | .polMem x => ackBit (m x)
  | .waitIdle | .cond _ | .loadLit _ | .loadMem _ | .rcvEn | .capture | .ackLit _ | .ackPol | .storeMem _
  | .configure _ => p

/-- The actions a µop issues, where DMEM reads as `m` and POL is `p`. -/
def uopActions (m : Byte → Byte) (p : Bool) : Uop → List PortAction
  | .cond .start => [.start]
  | .cond .restart => [.restart]
  | .cond .stop => [.stop]
  | .loadLit b => [.load b]
  | .loadMem x => [.load (m x)]
  | .rcvEn => [.rcvEnable]
  | .ackLit k => [.ack k]
  | .ackPol => [.ack p]
  | .configure d => [.setModeMaster, .setDiv d, .setDir .scl .input, .setDir .sda .input, .auxReset]
  | .waitIdle | .capture | .polMem _ | .storeMem _ => []

/-- The actions the µops of a list issue, one after the other. -/
def listActions (m : Byte → Byte) : Bool → List Uop → List PortAction
  | _, [] => []
  | p, u :: us => uopActions m p u ++ listActions m (polUop m p u) us

theorem runUop_pol {m : Byte → Byte} {u : Uop} {s : State}
    (h : ∀ x, u.readAddr = some x → s.dmem.read x.toNat = some (m x)) : (runUop u s).pol = polUop m s.pol u := by
  have hack : (ackUop m (s.ackdt, s.pol) u).2 = polUop m s.pol u := by cases u <;> rfl
  exact (congrArg Prod.snd (runUop_ack h)).trans hack

theorem runUop_trace {m : Byte → Byte} {u : Uop} {s : State}
    (h : ∀ x, u.readAddr = some x → s.dmem.read x.toNat = some (m x)) :
    (runUop u s).trace = s.trace ++ uopActions m s.pol u := by
  cases u with
  | cond c => cases c <;> simp only [runUop_condStart, runUop_condRestart, runUop_condStop, uopActions]
  | loadMem x => simp only [runUop_loadMem, uopActions, h x rfl, Option.getD_some]
  | _ =>
    simp only [runUop_waitIdle, runUop_loadLit, runUop_rcvEn, runUop_capture, runUop_ackLit, runUop_ackPol,
      runUop_polMem, runUop_storeMem, runUop_configure, uopActions, List.append_nil]

/-- TRACE with the actions of the µops left does not change in a run. -/
theorem runKeeps_trace (m : Byte → Byte) (tr : List PortAction) :
    RunKeeps fun _ s => ReadsAs m s ∧ s.trace ++ listActions m s.pol s.uops = tr where
  host hv hu hs := by
    have ht := congrArg State.trace hv
    have hp := congrArg State.pol hv
    simp only [runView] at ht hp
    exact ⟨hs.1.of_runView hv hu, by rw [hu, ht, hp]; exact hs.2⟩
  uop {_ s u rest} hu hs := by
    obtain ⟨hm, htr⟩ := hs
    refine ⟨hm.uop hu, ?_⟩
    have hread := hm.known u (by simp [hu])
    rw [hu, listActions, ← List.append_assoc, ← runUop_trace hread, ← runUop_pol hread] at htr
    exact htr
  receive _ _ hs := ⟨hs.1.congr rfl rfl, hs.2⟩
  complete _ hs := ⟨hs.1.congr rfl rfl, hs.2⟩

theorem finish_trace {m : Byte → Byte} {es : List Event} {s u : State} (hm : ReadsAs m s) (h : finish es s = some u) :
    u.trace = s.trace ++ listActions m s.pol s.uops := by
  obtain ⟨hu, -, htr⟩ := finish_keeps (runKeeps_trace m _) (bs := []) h ⟨hm, rfl⟩
  simpa only [hu, listActions, List.append_nil] using htr

/-- The payload of WRITECOMPLETE issues its bytes in order, then the Stop (R147). -/
theorem listActions_payload (m : Byte → Byte) (p : Bool) (xs : List Byte) :
    listActions m p (xs.flatMap payloadP ++ stopP) = xs.map (fun x => .load (m x)) ++ [.stop] := by
  induction xs with
  | nil => rfl
  | cons x xs ih => exact congrArg (PortAction.load (m x) :: ·) ih

/-- Each slot of READCOMPLETE receives a byte and acknowledges it by its own policy, whatever POL was (R150, R152). -/
theorem listActions_slots (m : Byte → Byte) (p : Bool) (xs : List Byte) :
    listActions m p (xs.flatMap slotP ++ stopP) =
      xs.flatMap (fun x => [.rcvEnable, .ack (ackBit (m x))]) ++ [.stop] := by
  induction xs generalizing p with
  | nil => rfl
  | cons x xs ih =>
    exact congrArg (fun l => PortAction.rcvEnable :: PortAction.ack (ackBit (m x)) :: l) (ih (ackBit (m x)))

/-- A command's list issues the command's actions (R120, R125–R130, R135, R137, R144–R150). -/
theorem expand_actions (i : Instr) (s : State) (p : Bool) :
    listActions (byteAt s) p (expand i s.arg) = portTrace i s := by
  cases i with
  | read q => rw [portTrace, ← ackBit_eq]; rfl
  | readPlus q => rw [portTrace, ← ackBit_eq]; rfl
  | callSlave a d => rw [portTrace, ← addressByte_eq]; rfl
  | callSlavePlus a d => rw [portTrace, ← addressByte_eq]; rfl
  | writeComplete a base len =>
    have hburst := listActions_payload (byteAt s) p (burstList base len)
    rw [burstList, List.map_map] at hburst
    rw [expand, writeCompleteP, callP, addressByte_dirWrite, burstP_eq, burstList]
    exact congrArg (fun l => PortAction.start :: PortAction.load a :: l) hburst
  | readComplete a base len =>
    have hburst := listActions_slots (byteAt s)
    have hslots : (burstList base len).flatMap (fun x => [PortAction.rcvEnable, .ack (ackBit (byteAt s x))]) =
        (List.range len.toNat).flatMap
          (fun j => [.rcvEnable, .ack (decide (byteAt s (base + BitVec.ofNat 8 j) ≠ 0))]) := by
      simp only [burstList, List.flatMap_map, ackBit_eq]; rfl
    rw [expand, readCompleteP, callP, callP, addressByte_dirWrite, addressByte_dirRead, burstP_eq, portTrace, ← hslots,
      List.append_assoc _ _ stopP, List.append_assoc _ _ [PortAction.stop]]
    exact congrArg ([PortAction.start, .load a, .load (byteAt s base), .stop, .start,
      .load (BitVec.ofNat 8 (a.toNat + 1))] ++ ·) (hburst _ (burstList base len))
  | _ => rfl

/-! ### What a run leaves alone (R30, R120, R137, R150) -/

/-- A part of the state that neither the host nor the peripheral writes while a command runs. -/
structure SequencerOwned {α : Type} (g : State → α) : Prop where
  host : ∀ s : State, g (runView s) = g s
  peripheral : ∀ (s : State) (b : Byte), g { s with pend := none, shiftBuf := b } = g s

theorem SequencerOwned.of_runView {α : Type} {g : State → α} {s t : State} (hg : SequencerOwned g)
    (hv : runView t = runView s) : g t = g s :=
  calc g t = g (runView t) := (hg.host t).symm
    _ = g (runView s) := congrArg g hv
    _ = g s := hg.host s

/-- A part of the state that no µop left writes is kept in a run. -/
theorem runKeeps_of_unwritten {α : Type} {g : State → α} (hg : SequencerOwned g) (a : α) :
    RunKeeps fun _ s => (∀ v ∈ s.uops, ∀ t, g (runUop v t) = g t) ∧ g s = a where
  host hv hu hs := ⟨by rw [hu]; exact hs.1, (hg.of_runView hv).trans hs.2⟩
  uop {_ s u rest} hu hs := by
    obtain ⟨hkeep, ha⟩ := hs
    rw [hu] at hkeep
    refine ⟨fun v hv => hkeep v (List.mem_cons_of_mem _ hv), ?_⟩
    calc g { runUop u s with uops := rest }
        = g (runUop u s) := hg.of_runView (runView_uops _ rest)
      _ = g s := hkeep u List.mem_cons_self s
      _ = a := ha
  receive b _ hs := ⟨hs.1, (hg.peripheral _ b).trans hs.2⟩
  complete _ hs := ⟨hs.1, (hg.peripheral _ _).trans hs.2⟩

theorem finish_of_unwritten {α : Type} {g : State → α} {es : List Event} {s u : State} (hg : SequencerOwned g)
    (hkeep : ∀ v ∈ s.uops, ∀ t, g (runUop v t) = g t) (h : finish es s = some u) : g u = g s := by
  obtain ⟨-, -, hu⟩ := finish_keeps (runKeeps_of_unwritten hg (g s)) (bs := []) h ⟨hkeep, rfl⟩
  exact hu

/-- The peripheral's configuration: DIV, MASTER and the directions (R34–R36). -/
def configuration (s : State) : BitVec Config.divW × Bool × LineDir × LineDir := (s.div, s.master, s.dirScl, s.dirSda)

/-- What a receive leaves in the block: RDATA and T (R27, R30). -/
def received (s : State) : Word × Byte := (s.rdata, s.t)

/-- What a slot of READCOMPLETE writes: DMEM and POL (R30, R150). -/
def slotElements (s : State) : Memory × Bool := (s.dmem, s.pol)

theorem sequencerOwned_initDone : SequencerOwned State.initDone := ⟨fun _ => rfl, fun _ _ => rfl⟩

theorem sequencerOwned_configuration : SequencerOwned configuration := ⟨fun _ => rfl, fun _ _ => rfl⟩

theorem sequencerOwned_received : SequencerOwned received := ⟨fun _ => rfl, fun _ _ => rfl⟩

theorem sequencerOwned_slotElements : SequencerOwned slotElements := ⟨fun _ => rfl, fun _ _ => rfl⟩

/-- Only CONFIGURE writes the configuration (R114). -/
theorem runUop_configuration {u : Uop} (h : ∀ d, u ≠ .configure d) (s : State) :
    configuration (runUop u s) = configuration s := by
  by_cases hc : u = .capture
  · subst hc; rfl
  · have hregs := sequencerRegs_runUop s h hc
    simp only [sequencerRegs, Prod.mk.injEq] at hregs
    obtain ⟨hdiv, hmaster, hscl, hsda, -⟩ := hregs
    rw [configuration, hdiv, hmaster, hscl, hsda]; rfl

/-- Only CAPTURE writes RDATA and T (R110). -/
theorem runUop_received {u : Uop} (h : u ≠ .capture) (s : State) : received (runUop u s) = received s := by
  cases u with
  | cond c => cases c <;> simp only [received, runUop_condStart, runUop_condRestart, runUop_condStop]
  | capture => exact absurd rfl h
  | _ =>
    simp only [received, runUop_waitIdle, runUop_loadLit, runUop_loadMem, runUop_rcvEn, runUop_ackLit, runUop_ackPol,
      runUop_polMem, runUop_storeMem, runUop_configure]

/-- Only STOREMEM writes DMEM, and only POLMEM writes POL (R112, R113). -/
theorem runUop_slotElements {u : Uop} (hstore : ∀ x, u ≠ .storeMem x) (hpol : ∀ x, u ≠ .polMem x) (s : State) :
    slotElements (runUop u s) = slotElements s := by
  have hp : (runUop u s).pol = s.pol := by
    cases u with
    | cond c => cases c <;> simp only [runUop_condStart, runUop_condRestart, runUop_condStop]
    | polMem x => exact absurd rfl (hpol x)
    | _ =>
      simp only [runUop_waitIdle, runUop_loadLit, runUop_loadMem, runUop_rcvEn, runUop_capture, runUop_ackLit,
        runUop_ackPol, runUop_storeMem, runUop_configure]
  rw [slotElements, runUop_dmem s hstore, hp]; rfl

/-- A command that receives nothing captures nothing (R137, R149, R150). -/
theorem capture_not_mem_expand {i : Instr} (h : receiveCount i = 0) (arg : Word) : Uop.capture ∉ expand i arg := by
  cases i with
  | read p => cases h
  | readPlus p => cases h
  | readComplete a base len =>
    have hlen : len.toNat = 0 := h
    simp [expand, readCompleteP, startP, stopP, callP, writeP, payloadP, burstP, hlen]
  | _ =>
    simp [expand, initP, waitP, startP, restartP, stopP, ackP, writeP, callP, callPlusP, writePlusP, writeCompleteP,
      burstP, payloadP]

/-- Only READCOMPLETE's list has a STOREMEM or a POLMEM (R102, R150). -/
theorem slot_not_mem_expand {i : Instr} (h : ∀ a base len, i ≠ .readComplete a base len) (arg : Word) (x : Byte) :
    Uop.storeMem x ∉ expand i arg ∧ Uop.polMem x ∉ expand i arg := by
  cases i with
  | readComplete a base len => exact absurd rfl (h a base len)
  | _ =>
    simp [expand, initP, waitP, startP, restartP, stopP, ackP, writeP, readP, callP, callPlusP, writePlusP, readPlusP,
      writeCompleteP, burstP, payloadP]

/-! ### Acceptance and the divisor (R121, R123, R124) -/

theorem exec_of_not_initDone {i : Instr} {s : State} (hi : i ≠ .init) (hb : busy s = false) (hd : s.initDone = false) :
    exec i s = .next (reject .notInit s) := by
  simp [exec_eq, hi, acceptCommand, hb, hd]

theorem exec_init_of_initDone {s : State} (hb : busy s = false) (hd : s.initDone = true) :
    exec .init s = .next (reject .reinit s) := by
  simp [exec_eq, acceptInit, hb, hd]

theorem exec_init_of_arg_zero {s : State} (hb : busy s = false) (hd : s.initDone = false) (ha : s.arg = 0) :
    exec .init s = .next (reject .rateZero s) := by
  simp [exec_eq, acceptInit, hb, hd, ha]

/-- The divisor is the residue of the exact quotient less one. -/
theorem divisorOf_toNat (fOsc width rate : Nat) :
    ((divisorOf fOsc width rate).toNat : Int) = ((fOsc / (4 * rate) : Nat) - 1 : Int) % (2 ^ width : Nat) := by
  rw [divisorOf, BitVec.toNat_ofInt]
  exact Int.toNat_of_nonneg (Int.emod_nonneg _ (by exact_mod_cast (Nat.two_pow_pos width).ne'))

/-- A rate above a quarter of the oscillator's gives the slowest clock (R122). -/
theorem divisorOf_of_lt {fOsc rate : Nat} (width : Nat) (h : fOsc < 4 * rate) :
    divisorOf fOsc width rate = BitVec.allOnes width := by
  calc divisorOf fOsc width rate
      = BitVec.ofInt width (-1) := by rw [divisorOf, Nat.div_eq_of_lt h]; rfl
    _ = -1#width := BitVec.ofInt_neg
    _ = BitVec.allOnes width := BitVec.neg_one_eq_allOnes

/-! ### The obligations about initialization and what a command's run issues and leaves -/

/-- Settles O19: TRACE with the actions of the µops left is the same all along a run, whose operands read as they stand at
acceptance; and one round for each µop is a run. -/
theorem commandPortTrace : Obligations.CommandPortTrace := by
  intro i s ha hw
  refine ⟨exec_of_acceptable ha, ?_, fun es u h => ?_⟩
  · obtain ⟨u, hu, -⟩ := roundsComplete (accepted i s) (List.replicate _ (0, false)) List.length_replicate
    exact ⟨_, u, hu⟩
  · rw [finish_trace (readsAs_accepted hw) h, ← expand_actions i s s.pol]; rfl

/-- Settles O27: each part is written by µops of its own, which the list of the command does not have. -/
theorem commandRunFrame : Obligations.CommandRunFrame := by
  intro i s ha
  refine ⟨exec_of_acceptable ha, fun es u h => ⟨?_, fun hi => ?_, fun hr => ?_, fun hc => ?_⟩⟩
  · refine finish_of_unwritten sequencerOwned_initDone (fun v _ t => ?_) h
    obtain ⟨-, -, hd, -⟩ := runUop_frame v t
    exact hd
  · have hkeep : configuration u = configuration s := finish_of_unwritten (s := accepted i s) sequencerOwned_configuration
      (fun v hv => runUop_configuration fun d hd => configure_not_mem_expand hi s.arg d (hd ▸ hv)) h
    simpa only [configuration, Prod.mk.injEq] using hkeep
  · have hkeep : received u = received s := finish_of_unwritten (s := accepted i s) sequencerOwned_received
      (fun v hv => runUop_received fun hd => capture_not_mem_expand hr s.arg (hd ▸ hv)) h
    simpa only [received, Prod.mk.injEq] using hkeep
  · have hno := slot_not_mem_expand hc s.arg
    have hkeep : slotElements u = slotElements s := finish_of_unwritten (s := accepted i s) sequencerOwned_slotElements
      (fun v hv => runUop_slotElements (fun x hx => (hno x).1 (hx ▸ hv)) fun x hx => (hno x).2 (hx ▸ hv)) h
    simpa only [slotElements, Prod.mk.injEq] using hkeep

/-- Settles O54: the register holds the residue, and a quotient of zero leaves -1, all ones. -/
theorem divisorFormula : Obligations.DivisorFormula := by
  refine ⟨fun fOsc width rate _ => divisorOf_toNat fOsc width rate, by decide, fun fOsc width rate h => ?_⟩
  rw [divisorOf_of_lt width h, BitVec.toNat_allOnes]

/-- Settles O14: acceptance comes to the order with INIT after OVERRUN. -/
theorem notInitRejection : Obligations.NotInitRejection := fun _ _ hi hb hd => exec_of_not_initDone hi hb hd

/-- Settles O15: acceptance of INIT looks at INIT_DONE before ARG. -/
theorem reinitAndRateZero : Obligations.ReinitAndRateZero := fun _ hb =>
  ⟨exec_init_of_initDone hb, exec_init_of_arg_zero hb⟩

/-- Settles O28: the list of INIT is one CONFIGURE, and the sequencer performs it at once. -/
theorem initConfigures : Obligations.InitConfigures := by
  intro s ha
  refine ⟨exec_of_acceptable ha, ?_⟩
  have hstep : sequencerStep (accepted .init s) =
      { runUop (.configure (divisor s.arg)) (accepted .init s) with uops := [] } := by
    rw [sequencerStep_cons (show (accepted .init s).uops = [.configure (divisor s.arg)] from rfl)]; rfl
  have hrun : runEvent .sequencer (accepted .init s) = .next _ := congrArg Host.Outcome.next hstep
  rw [finish_cons_next [] hrun (List.cons_ne_nil _ _) nofun, runUop_configure]
  rfl

end Sys2Proof.Machine
end

section
/-! PROOFS. The family of byte transfer: how many bytes a command receives, and what a READ returns (R27, R110, R116, R137, R140,
R149). -/

namespace Sys2Proof.Machine

open Sys2Proof

/-! ### The receives of a run (R105, R110, R116) -/

/-- The receives the command in progress has still to complete: those it has yet to enable, and the one pending. -/
def receivesDue (s : State) : Nat := s.uops.count .rcvEn + if s.pend = some .rcv then 1 else 0

theorem receivesDue_congr {s t : State} (hp : t.pend = s.pend) (hu : t.uops = s.uops) : receivesDue t = receivesDue s := by
  rw [receivesDue, receivesDue, hp, hu]

theorem receiveHeld_congr {s t : State} (hp : t.pend = s.pend) (hu : t.uops = s.uops) (h : receiveHeld s) :
    receiveHeld t := by
  rw [receiveHeld, hp, hu]; exact h

/-- No receive is pending at a µop that is performed, so RCVEN turns a receive to be enabled into the pending one, and every other
µop leaves both alone. -/
theorem receivesDue_sequencer {s : State} {u : Uop} {rest : List Uop} (hu : s.uops = u :: rest)
    (he : u = .waitIdle → s.pend = none) (hs : receiveHeld s) :
    receivesDue { runUop u s with uops := rest } = receivesDue s := by
  have hidle : s.pend ≠ some .rcv := fun hp => by
    have hw : u = .waitIdle := by simpa [hu] using hs.2 hp
    rw [he hw] at hp
    cases hp
  by_cases hrcv : u = .rcvEn
  · subst hrcv
    simp [receivesDue, hu, hidle, runUop_rcvEn]
  · have hnone : (runUop u s).pend ≠ some .rcv := fun hp =>
      (runUop_rcv hp).elim hrcv fun hold => hidle hold.1
    simp [receivesDue, hu, hidle, hnone, hrcv]

/-- Every event of a running command delivers the receives it takes off those due. -/
theorem receivesDue_event {e : Event} {s t : State} (hs : receiveHeld s) (hb : s.uops ≠ []) (hr : e ≠ .reset)
    (h : runEvent e s = .next t) : receiveHeld t ∧ (delivered e s).length + receivesDue t = receivesDue s := by
  cases e with
  | hostWrite off w =>
    obtain ⟨hv, hu⟩ := host_busy (e := .hostWrite off w) rfl hb h
    exact ⟨receiveHeld_congr (runView_pend hv) hu hs, by simp [delivered, receivesDue_congr (runView_pend hv) hu]⟩
  | hostRead off =>
    obtain ⟨hv, hu⟩ := host_busy (e := .hostRead off) rfl hb h
    exact ⟨receiveHeld_congr (runView_pend hv) hu hs, by simp [delivered, receivesDue_congr (runView_pend hv) hu]⟩
  | sequencer =>
    cases h
    rcases sequencerStep_cases s with ⟨-, hq⟩ | ⟨u, rest, hu, he, hq⟩
    · rw [hq]; exact ⟨hs, by simp [delivered]⟩
    · rw [hq]; exact ⟨receiveHeld_sequencer hu he hs, by simp [delivered, receivesDue_sequencer hu he hs]⟩
  | peripheral b k =>
    cases h
    rw [periphComplete_eq]
    refine ⟨⟨hs.1, nofun⟩, ?_⟩
    by_cases hrcv : s.pend = some .rcv
    · simp [delivered, receivesDue, hrcv, Nat.add_comm]
    · simp [delivered, receivesDue, hrcv]
  | reset => exact absurd rfl hr

/-- A run of a command delivers exactly the receives due at its start. -/
theorem finish_receives {es : List Event} {s u : State} (hs : receiveHeld s) (h : finish es s = some u) :
    (receivedBytes es s).length = receivesDue s := by
  induction es generalizing s with
  | nil =>
    unfold finish at h
    split at h
    · rename_i hn
      have hidle : s.pend ≠ some .rcv := fun hp => by simpa [hn] using hs.2 hp
      simp [receivedBytes, receivesDue, hn, hidle]
    · cases h
  | cons e es ih =>
    obtain ⟨hb, hr, t, ht, hf⟩ := finish_cons h
    obtain ⟨hheld, hdue⟩ := receivesDue_event hs hb hr ht
    rw [← hdue, ← ih hheld hf]
    simp only [receivedBytes, ht, List.length_append]

/-- A command's list enables as many receives as the command receives bytes (R137, R149, R150). -/
theorem count_rcvEn_expand (i : Instr) (arg : Word) : (expand i arg).count .rcvEn = receiveCount i := by
  have hslots : ∀ xs : List Byte, (xs.flatMap slotP).count .rcvEn = xs.length := fun xs => by
    induction xs with
    | nil => rfl
    | cons x xs ih => rw [List.flatMap_cons, List.count_append, ih, List.length_cons, Nat.add_comm]; rfl
  have hpayload : ∀ xs : List Byte, (xs.flatMap payloadP).count .rcvEn = 0 := fun xs => by
    simp [List.count_eq_zero, payloadP]
  cases i with
  | writeComplete a base len =>
    simp only [expand, writeCompleteP, burstP_eq, List.count_append, hpayload]; rfl
  | readComplete a base len =>
    simp only [expand, readCompleteP, burstP_eq, List.count_append, hslots, burstList, List.length_map, List.length_range]
    simp [startP, stopP, callP, writeP, payloadP, receiveCount]
  | _ => rfl

/-- A command started with no receive pending receives its count of bytes. -/
theorem length_receivedBytes {i : Instr} {s u : State} {es : List Event} (hinit : i = .init → s.pend = none)
    (hp : s.pend ≠ some .rcv) (h : finish es (accepted i s) = some u) :
    (receivedBytes es (accepted i s)).length = receiveCount i :=
  calc (receivedBytes es (accepted i s)).length
      = receivesDue (accepted i s) := finish_receives (receiveHeld_accepted hinit) h
    _ = (expand i s.arg).count .rcvEn := by simp [receivesDue, accepted, hp]
    _ = receiveCount i := count_rcvEn_expand i s.arg

/-! ### RDATA (R27, R110, R137, R149) -/

theorem runView_rdata {s t : State} (h : runView s = runView t) : s.rdata = t.rdata := by
  have hr := congrArg State.rdata h
  exact hr

/-- READP's CAPTURE finds the delivered byte in the shift buffer. -/
theorem seqRun_readP_rdata (p b : Byte) (bs ds : List Byte) {s : State} (hp : s.pend ≠ some .rcv) :
    (seqRun (readP p) (b :: bs) ds s).1.rdata = b.signExtend 32 := by
  rw [readP, seqRun, if_neg hp]
  rfl

theorem seqRun_stopP_rdata (bs ds : List Byte) (s : State) : (seqRun stopP bs ds s).1.rdata = s.rdata := by
  obtain ⟨bs', b, hrun⟩ := seqRun_waitIdle [.cond .stop] bs s
  rw [stopP, hrun]
  rfl

theorem seqRun_readPlusP_rdata (p b : Byte) (bs ds : List Byte) {s : State} (hp : s.pend ≠ some .rcv) :
    (seqRun (readPlusP p) (b :: bs) ds s).1.rdata = b.signExtend 32 := by
  rw [readPlusP, seqRun_append, seqRun_stopP_rdata, seqRun_readP_rdata p b bs ds hp]

/-! ### The obligation about READ and READPLUS -/

/-- Settles O25: the one receive is enabled, waited for and captured, and nothing after it writes RDATA. -/
theorem readReturnsReceivedByte : Obligations.ReadReturnsReceivedByte := by
  intro i p s hi ha hp
  obtain ⟨hne, hcount, hslot⟩ : i ≠ .init ∧ receiveCount i = 1 ∧ ∀ a base len, i ≠ .readComplete a base len := by
    rcases hi with rfl | rfl <;> exact ⟨nofun, rfl, nofun⟩
  obtain ⟨hexec, hframe⟩ := commandRunFrame i s ha
  refine ⟨hexec, fun es u h => ?_⟩
  obtain ⟨b, hb⟩ := List.length_eq_one_iff.mp
    ((length_receivedBytes (fun hinit => absurd hinit hne) hp h).trans hcount)
  obtain ⟨-, ds, hv⟩ := finish_eq_seqRun (tame_accepted hne s) h
  have hrdata : u.rdata = (seqRun (expand i s.arg) [b] ds (accepted i s)).1.rdata := by
    rw [← hb]; exact runView_rdata hv
  obtain ⟨-, -, -, hmem⟩ := hframe es u h
  obtain ⟨hdmem, -⟩ := hmem hslot
  refine ⟨b, hb, hrdata.trans ?_, hdmem⟩
  rcases hi with rfl | rfl
  · exact seqRun_readP_rdata p b [] ds hp
  · exact seqRun_readPlusP_rdata p b [] ds hp

end Sys2Proof.Machine
end

section
/-! PROOFS. The family of transactions: how long the µop lists are, that a list put together runs as its parts, how
many Starts and Stops a command issues, and the slots READCOMPLETE fills (R67, R102, R103, R143–R155). -/

namespace Sys2Proof.Machine

open Sys2Proof

/-! ### The lengths of the lists (R102, R155) -/

/-- A burst of parts of one length. -/
theorem length_burstP {f : Byte → List Uop} {n : Nat} (hf : ∀ x, (f x).length = n) (base len : Byte) :
    (burstP f base len).length = n * len.toNat := by
  simp [burstP, List.length_flatMap, hf, Nat.mul_comm]

/-! ### Lists put together (R103, R143) -/

theorem burstP_one (f : Byte → List Uop) (base : Byte) : burstP f base 1 = f base := by
  simp [burstP, burstAddr]

/-- The lists of the composed commands are their constituents' lists (R145–R151). -/
theorem expand_composed (rate : Word) (a b base len : Byte) (d : Dir) :
    expand (.callSlavePlus a d) rate = expand .start rate ++ expand (.callSlave a d) rate ∧
    expand (.writePlus b) rate = expand (.write b) rate ++ expand .stop rate ∧
    expand (.readPlus b) rate = expand (.read b) rate ++ expand .stop rate ∧
    expand (.writeComplete a base len) rate =
      expand (.callSlavePlus a 0) rate ++ burstP payloadP base len ++ expand .stop rate ∧
    expand (.readComplete a base len) rate =
      expand (.writeComplete a base 1) rate ++ expand (.callSlavePlus a 1) rate ++ burstP slotP base len ++
        expand .stop rate := by
  refine ⟨rfl, rfl, rfl, rfl, ?_⟩
  simp only [expand, writeCompleteP, burstP_one, readCompleteP, callPlusP, dirWrite, dirRead, List.append_assoc]

/-- While the block is busy a CMD write is dropped, whatever its word is (R164). -/
theorem hostWriteCmd_of_busy (w : Word) {s : State} (hb : busy s = true) : hostWriteCmd w s = .next (reject .overrun s) := by
  unfold hostWriteCmd
  split
  · next i _ =>
    rw [exec_eq]
    by_cases hi : i = .init
    · rw [if_pos hi, acceptInit, if_pos hb]
    · rw [if_neg hi, acceptCommand, if_pos hb]
  · rw [acceptNone, if_pos hb]

theorem reject_withUops (c : ErrCode) (s : State) (us : List Uop) :
    reject c { s with uops := us } = { reject c s with uops := us } := by
  rcases reject_cases c s with ⟨he, hr⟩ | ⟨he, hr⟩
  · rw [hr, reject, if_pos he]
  · rw [hr, reject, if_neg (by simpa using he)]

/-- A host write does not depend on which µops keep the block busy. -/
theorem hostWrite_withUops {off : Offset} {w : Word} {s t : State} {us : List Uop} (hb : s.uops ≠ []) (hu : us ≠ [])
    (h : hostWrite off w s = .next t) : hostWrite off w { s with uops := us } = .next { t with uops := us } := by
  have hbs : busy s = true := busy_eq_true.mpr hb
  have hbu : busy { s with uops := us } = true := busy_eq_true.mpr hu
  unfold hostWrite at h ⊢
  cases hreg : hostReg off with
  | cmd =>
    simp only [hreg, hostWriteCmd_of_busy w hbs] at h
    cases h
    simp only [hostWriteCmd_of_busy w hbu, reject_withUops]
  | status =>
    simp only [hreg] at h
    cases h
    simp only [hostWriteStatus]
    split <;> rfl
  | dmem k =>
    simp only [hreg, hostWriteDmem, if_pos hbs] at h
    cases h
    simp only [hostWriteDmem, if_pos hbu, reject_withUops]
  | _ =>
    simp only [hreg] at h
    cases h
    rfl

/-- A host read returns the BUSY bit of every list alike. -/
theorem hostRead_withUops (off : Offset) {s : State} {us : List Uop} (hb : s.uops ≠ []) (hu : us ≠ []) :
    hostRead off { s with uops := us } = { hostRead off s with uops := us } := by
  have hbusy : busy { s with uops := us } = busy s := (busy_eq_true.mpr hu).trans (busy_eq_true.mpr hb).symm
  have hstatus : statusWord { s with uops := us } = statusWord s := by
    simp only [statusWord, hbusy]
  unfold hostRead readReg
  cases hostReg off with
  | status => simp only [hstatus]
  | _ => rfl

theorem uopEnabled_withUops (u : Uop) (s : State) (us : List Uop) : uopEnabled u { s with uops := us } = uopEnabled u s := by
  cases u <;> rfl

/-- A µop does not look at the list it is taken from. -/
theorem runUop_withUops (u : Uop) (s : State) (us vs : List Uop) :
    { runUop u { s with uops := us } with uops := vs } = { runUop u s with uops := vs } := by
  cases u with
  | cond c => cases c <;> rfl
  | _ => rfl

/-- Before the first list is done, the µops behind it make no difference to an event. -/
theorem runEvent_of_append {e : Event} {s t : State} {us vs : List Uop} (hs : s.uops = us ++ vs) (hu : us ≠ [])
    (hr : e ≠ .reset) (h : runEvent e s = .next t) :
    ∃ us', t.uops = us' ++ vs ∧ runEvent e { s with uops := us } = .next { t with uops := us' } := by
  have hb : s.uops ≠ [] := by simp [hs, hu]
  cases e with
  | hostWrite off w =>
    obtain ⟨-, hut⟩ := host_busy (e := .hostWrite off w) rfl hb h
    exact ⟨us, hut.trans hs, hostWrite_withUops hb hu h⟩
  | hostRead off =>
    obtain ⟨-, hut⟩ := host_busy (e := .hostRead off) rfl hb h
    cases h
    exact ⟨us, hut.trans hs, congrArg Host.Outcome.next (hostRead_withUops off hb hu)⟩
  | sequencer =>
    cases h
    obtain ⟨u, rest, rfl⟩ := List.exists_cons_of_ne_nil hu
    have hshort := sequencerStep_cons (s := { s with uops := u :: rest }) rfl
    rw [uopEnabled_withUops, runUop_withUops] at hshort
    rw [runEvent, hshort, sequencerStep_cons (u := u) (rest := rest ++ vs) hs]
    by_cases he : uopEnabled u s = true
    · rw [if_pos he, if_pos he]; exact ⟨rest, rfl, rfl⟩
    · rw [if_neg he, if_neg he]; exact ⟨u :: rest, hs, rfl⟩
  | peripheral b k =>
    cases h
    refine ⟨us, by rw [periphComplete_eq]; exact hs, ?_⟩
    simp only [runEvent, periphComplete_eq]
  | reset => exact absurd rfl hr

/-- A run of two lists put together reaches the end of the first, and goes on as a run of the second. -/
theorem finish_append {us vs : List Uop} {es : List Event} {s u : State} (hs : s.uops = us ++ vs)
    (h : finish es s = some u) :
    ∃ es₁ es₂ m, es = es₁ ++ es₂ ∧ finish es₁ { s with uops := us } = some m ∧
      finish es₂ { m with uops := vs } = some u := by
  induction es generalizing us s with
  | nil =>
    unfold finish at h
    split at h
    · next hn =>
      obtain ⟨rfl, rfl⟩ := List.append_eq_nil_iff.mp (hs.symm.trans hn)
      have hself : { s with uops := [] } = s := by rw [← hn]
      have hend : finish [] { s with uops := [] } = some s := by rw [hself]; exact if_pos hn
      cases h
      exact ⟨[], [], _, rfl, hend, hend⟩
    · cases h
  | cons e es ih =>
    by_cases hu : us = []
    · subst hu
      refine ⟨[], e :: es, { s with uops := [] }, rfl, rfl, ?_⟩
      rw [← h]
      exact congrArg (finish (e :: es)) (by rw [← List.nil_append vs, ← hs])
    · obtain ⟨-, hr, t, ht, hf⟩ := finish_cons h
      obtain ⟨us', hut, ht'⟩ := runEvent_of_append hs hu hr ht
      obtain ⟨es₁, es₂, m, hes, h₁, h₂⟩ := ih hut hf
      exact ⟨e :: es₁, es₂, m, congrArg (e :: ·) hes, (finish_cons_next es₁ ht' hu hr).trans h₁, h₂⟩

/-! ### How many conditions a run issues (R105, R107, R154) -/

/-- The port action of a condition (R107). -/
def conditionAction : Condition → PortAction
  | .start => .start
  | .restart => .restart
  | .stop => .stop

/-- Only the µop of a condition issues it, whatever DMEM holds. -/
theorem runUop_count (c : Condition) (u : Uop) (s : State) :
    (runUop u s).trace.count (conditionAction c) =
      s.trace.count (conditionAction c) + [u].count (.cond c) := by
  cases u with
  | cond c' =>
    cases c' <;> cases c <;>
      simp [conditionAction, runUop_condStart, runUop_condRestart, runUop_condStop]
  | _ =>
    cases c <;>
      simp [conditionAction, runUop_waitIdle, runUop_loadLit, runUop_loadMem, runUop_rcvEn, runUop_capture, runUop_ackLit,
        runUop_ackPol, runUop_polMem, runUop_storeMem, runUop_configure]

/-- The conditions issued and those left to issue are the same number all along a run. -/
theorem runKeeps_count (c : Condition) (n : Nat) :
    RunKeeps fun _ s => s.trace.count (conditionAction c) + s.uops.count (.cond c) = n where
  host hv hu hs := by
    have ht := congrArg State.trace hv
    simp only [runView] at ht
    rw [hu, ht]; exact hs
  uop {_ s u rest} hu hs := by
    have hcons : s.uops.count (.cond c) = [u].count (.cond c) + rest.count (.cond c) := by
      rw [hu, ← List.count_append]; rfl
    rw [hcons, ← Nat.add_assoc, ← runUop_count] at hs
    exact hs
  receive _ _ hs := hs
  complete _ hs := hs

theorem finish_count (c : Condition) {es : List Event} {s u : State} (h : finish es s = some u) :
    u.trace.count (conditionAction c) = s.trace.count (conditionAction c) + s.uops.count (.cond c) := by
  obtain ⟨hu, hcount⟩ := finish_keeps (runKeeps_count c _) (bs := []) h rfl
  simpa only [hu, List.count_nil, Nat.add_zero] using hcount

/-- A burst of parts without a condition has none. -/
theorem count_burstP {f : Byte → List Uop} {u : Uop} (hf : ∀ x, u ∉ f x) (base len : Byte) :
    (burstP f base len).count u = 0 := by
  simp [burstP, List.count_eq_zero, hf]

/-- How many Starts and Stops a command's list has (R154). -/
theorem count_cond_expand (i : Instr) (arg : Word) :
    (expand i arg).count (.cond .start) = startCount i ∧ (expand i arg).count (.cond .stop) = stopCount i := by
  cases i with
  | writeComplete a base len =>
    have hburst (c : Condition) := count_burstP (f := payloadP) (u := .cond c) (by simp [payloadP]) base len
    simp only [expand, writeCompleteP, List.count_append, hburst]
    exact ⟨rfl, rfl⟩
  | readComplete a base len =>
    have hburst (c : Condition) := count_burstP (f := slotP) (u := .cond c) (by simp [slotP]) base len
    simp only [expand, readCompleteP, List.count_append, hburst]
    exact ⟨rfl, rfl⟩
  | _ => exact ⟨rfl, rfl⟩

/-! ### The slots of READCOMPLETE (R67, R112, R113, R150, R151) -/

theorem runView_dmem {s t : State} (h : runView s = runView t) : s.dmem = t.dmem := by
  have hd := congrArg State.dmem h
  exact hd

theorem burstList_getElem? (base len : Byte) {j : Nat} (h : j < len.toNat) :
    (burstList base len)[j]? = some (BitVec.ofNat 8 (base.toNat + j)) := by
  simp [burstList, h, burstAddr_eq]

/-- `n` is `m` with the bytes `bs` stored at the addresses `xs`, one each, and nothing else changed. -/
structure SlotsFilled (xs bs : List Byte) (m n : Memory) : Prop where
  stored : ∀ {j : Nat} {x b : Byte}, xs[j]? = some x → bs[j]? = some b → n.read x.toNat = some b
  kept : ∀ {a : Nat}, (∀ x ∈ xs, a ≠ x.toNat) → n.read a = m.read a

/-- A byte stored before the others stays where none of them is stored. -/
theorem SlotsFilled.cons {x b : Byte} {xs bs : List Byte} {m n : Memory} (hx : x ∉ xs)
    (h : SlotsFilled xs bs (m.write x.toNat b) n) : SlotsFilled (x :: xs) (b :: bs) m n where
  stored {j y c} hy hc := by
    cases j with
    | zero =>
      obtain rfl : x = y := by simpa using hy
      obtain rfl : b = c := by simpa using hc
      have hkept : ∀ z ∈ xs, x.toNat ≠ z.toNat := fun z hz heq => hx (BitVec.eq_of_toNat_eq heq ▸ hz)
      rw [h.kept hkept, Memory.read_write_same]
    | succ j => exact h.stored (by simpa using hy) (by simpa using hc)
  kept {a} ha := by
    rw [List.forall_mem_cons] at ha
    rw [h.kept ha.2, Memory.read_write_other _ _ ha.1]

/-- The µop enables no receive and writes neither RDATA nor DMEM (R104). -/
def Uop.receivesNothing : Uop → Bool
  | .rcvEn | .capture | .storeMem _ => false
  | .waitIdle | .cond _ | .loadLit _ | .loadMem _ | .ackLit _ | .ackPol | .polMem _ | .configure _ => true

theorem seqUop_of_receivesNothing {u : Uop} (d : Byte) {s : State} (hu : u.receivesNothing = true)
    (hp : s.pend ≠ some .rcv) :
    (seqUop d u s).dmem = s.dmem ∧ (seqUop d u s).rdata = s.rdata ∧ (seqUop d u s).pend ≠ some .rcv := by
  cases u with
  | rcvEn => cases hu
  | capture => cases hu
  | storeMem x => cases hu
  | cond c => cases c <;> simp [seqUop, runUop_condStart, runUop_condRestart, runUop_condStop]
  | _ =>
    simp [seqUop, runUop_waitIdle, runUop_loadLit, runUop_ackLit, runUop_ackPol, runUop_configure, hp]

/-- With no receive pending, a list that enables none takes no delivered byte and leaves DMEM and RDATA alone. -/
theorem seqRun_of_receivesNothing {us : List Uop} (bs ds : List Byte) {s : State}
    (hus : us.all Uop.receivesNothing = true) (hp : s.pend ≠ some .rcv) :
    ∃ t ds', seqRun us bs ds s = (t, bs, ds') ∧ t.dmem = s.dmem ∧ t.rdata = s.rdata ∧ t.pend ≠ some .rcv := by
  induction us generalizing ds s with
  | nil => exact ⟨s, ds, rfl, rfl, rfl, hp⟩
  | cons u us ih =>
    rw [List.all_cons, Bool.and_eq_true] at hus
    obtain ⟨hu, hus⟩ := hus
    by_cases hw : u = .waitIdle
    · subst hw
      rw [seqRun, if_neg hp]
      exact ih (s := settle 0 s) ds hus nofun
    · obtain ⟨hmem, hrdata, hpend⟩ := seqUop_of_receivesNothing (ds.headD 0) hu hp
      rw [seqRun_cons _ _ _ _ hw, ← hmem, ← hrdata]
      exact ih ds.tail hus hpend

/-- A slot receives one byte, stores it at its address and returns it in RDATA. -/
theorem seqRun_slotP (x b : Byte) (bs ds : List Byte) {s : State} (hp : s.pend ≠ some .rcv) :
    ∃ t ds', seqRun (slotP x) (b :: bs) ds s = (t, bs, ds') ∧ t.dmem = s.dmem.write x.toNat b ∧
      t.rdata = b.signExtend 32 ∧ t.pend ≠ some .rcv := by
  simp [slotP, seqRun, seqUop, settle, hp, runUop_rcvEn, runUop_capture, runUop_ackPol, runUop_storeMem, signedByte]

/-- The slots take the delivered bytes in order; RDATA keeps the last, and the Stop leaves both alone. -/
theorem seqRun_slots {xs bs : List Byte} (ds : List Byte) {s : State} (hxs : xs.Nodup) (hlen : bs.length = xs.length)
    (hp : s.pend ≠ some .rcv) :
    SlotsFilled xs bs s.dmem (seqRun (xs.flatMap slotP ++ stopP) bs ds s).1.dmem ∧
      (seqRun (xs.flatMap slotP ++ stopP) bs ds s).1.rdata = (bs.getLast?.map (·.signExtend 32)).getD s.rdata := by
  induction xs generalizing bs ds s with
  | nil =>
    obtain rfl := List.length_eq_zero_iff.mp hlen
    obtain ⟨t, ds', hstop, hmem, hrdata, -⟩ := seqRun_of_receivesNothing (us := stopP) [] ds rfl hp
    rw [List.flatMap_nil, List.nil_append, hstop]
    exact ⟨⟨nofun, fun _ => congrArg (Memory.read · _) hmem⟩, hrdata⟩
  | cons x xs ih =>
    obtain ⟨b, bs, rfl⟩ := List.exists_cons_of_length_eq_add_one hlen
    obtain ⟨hx, hxs⟩ := List.nodup_cons.mp hxs
    obtain ⟨t, ds', hslot, hmem, hrdata, hpt⟩ := seqRun_slotP x b bs ds hp
    obtain ⟨hfilled, hlast⟩ := ih ds' hxs (Nat.succ.inj hlen) hpt
    rw [List.flatMap_cons, List.append_assoc, seqRun_append, hslot]
    refine ⟨(hmem ▸ hfilled).cons hx, ?_⟩
    rw [hlast, hrdata, List.getLast?_cons]
    cases bs.getLast? <;> rfl

/-- The list of READCOMPLETE before its slots: the select transaction, then the call for the read (R150). -/
def beforeSlotsP (a base : Byte) : List Uop :=
  startP ++ callP a dirWrite ++ payloadP base ++ stopP ++ startP ++ callP a dirRead

theorem readCompleteP_eq (a base len : Byte) :
    readCompleteP a base len = beforeSlotsP a base ++ ((burstList base len).flatMap slotP ++ stopP) := by
  rw [← burstP_eq, readCompleteP, beforeSlotsP, List.append_assoc _ _ stopP]

/-- READCOMPLETE performed in order, with one byte delivered for each slot. -/
theorem seqRun_readCompleteP (a base : Byte) {len : Byte} {bs : List Byte} (ds : List Byte) {s : State}
    (hlen : bs.length = len.toNat) (hp : s.pend ≠ some .rcv) :
    SlotsFilled (burstList base len) bs s.dmem (seqRun (readCompleteP a base len) bs ds s).1.dmem ∧
      (seqRun (readCompleteP a base len) bs ds s).1.rdata = (bs.getLast?.map (·.signExtend 32)).getD s.rdata := by
  obtain ⟨t, ds', hbefore, hmem, hrdata, hpt⟩ :=
    seqRun_of_receivesNothing (us := beforeSlotsP a base) bs ds rfl hp
  have hcount : bs.length = (burstList base len).length := by simp [burstList, hlen]
  rw [readCompleteP_eq, seqRun_append, hbefore, ← hmem, ← hrdata]
  exact seqRun_slots ds' (burstList_nodup base len) hcount hpt

/-! ### The obligations about transactions -/

/-- Settles O12: the lists of R102 are written out but for the bursts, which have two µops a payload byte and eight a slot. -/
theorem uopCounts : Obligations.UopCounts := by
  intro i rate
  cases i with
  | writeComplete a base len =>
    have hburst := length_burstP (f := payloadP) (n := 2) (fun _ => rfl) base len
    simp only [expand, writeCompleteP, startP, callP, writeP, stopP, List.length_append, List.length_cons, List.length_nil,
      hburst, uopCount]
    omega
  | readComplete a base len =>
    have hburst := length_burstP (f := slotP) (n := 8) (fun _ => rfl) base len
    simp only [expand, readCompleteP, startP, callP, writeP, payloadP, stopP, List.length_append, List.length_cons,
      List.length_nil, hburst, uopCount]
    omega
  | _ => rfl

/-- Settles O26: one byte is delivered for each slot, the slots are distinct addresses, and nothing else stores or captures. -/
theorem readCompleteFillsBuffer : Obligations.ReadCompleteFillsBuffer := by
  intro a base len s ha hp
  refine ⟨exec_of_acceptable ha, fun es u h => ?_⟩
  have hlen : (receivedBytes es (accepted (.readComplete a base len) s)).length = len.toNat :=
    length_receivedBytes (i := .readComplete a base len) nofun hp h
  obtain ⟨-, ds, hv⟩ := finish_eq_seqRun (tame_accepted (i := .readComplete a base len) nofun s) h
  obtain ⟨hfilled, hlast⟩ := seqRun_readCompleteP a base ds (s := accepted (.readComplete a base len) s) hlen hp
  refine ⟨_, rfl, hlen, fun j hj => ?_, fun x hx => ?_, (runView_rdata hv).trans hlast⟩
  · rw [runView_dmem hv]
    exact hfilled.stored (burstList_getElem? base len (hlen ▸ hj)) (List.getElem?_eq_getElem hj)
  · rw [runView_dmem hv]
    refine hfilled.kept fun y hy => ?_
    obtain ⟨j, hj, rfl⟩ := List.mem_map.mp hy
    rw [burstAddr_eq]
    exact hx j (List.mem_range.mp hj)

/-- Settles O29: a run issues the conditions of the command's list, and its bursts have none. -/
theorem framingCounts : Obligations.FramingCounts := by
  intro i s ha
  refine ⟨exec_of_acceptable ha, fun es u h => ?_⟩
  obtain ⟨hstart, hstop⟩ := count_cond_expand i s.arg
  exact ⟨hstart ▸ finish_count .start h, hstop ▸ finish_count .stop h⟩

/-- Settles O31: the lists are equal by R102, and no event of a run looks past the list that is not yet done. -/
theorem compositionsRunAsConstituents : Obligations.CompositionsRunAsConstituents :=
  ⟨expand_composed, fun us vs s _ _ h => finish_append (s := { s with uops := us ++ vs }) rfl h⟩

end Sys2Proof.Machine
end

section
/-! PROOFS. The family of exceptions: rejections and the error latch, the faults a µop and a command record, the ghost state that only
grows, and the acknowledge draws that nothing records (R160–R176). -/

namespace Sys2Proof.Machine

open Sys2Proof

/-! ### Words that are no command (R91, R92, R161–R163) -/

theorem decode_of_fieldOp_zero {w : Word} (h : fieldOp w = 0) : decode w = .error .illegalOp := by
  rw [decode, if_pos h]

/-- A word that decodes is in the row of its command (R88). -/
theorem wordWellFormed_of_decode {w : Word} {i : Instr} (h : decode w = .ok i) : wordWellFormed w = true := by
  obtain ⟨r, hr, -, hmatch, -, -⟩ := encode_matchesRow i
  rw [encode_of_decode h] at hmatch
  exact List.any_eq_true.mpr ⟨r, hr, hmatch⟩

/-- A must-be-zero field is never refused as an opcode. -/
theorem acceptFields_ne_illegalOp (zero : Bool) (i : Instr) : acceptFields zero i ≠ .error .illegalOp := by
  cases zero <;> simp [acceptFields]

/-- Every opcode but 0 has a row (R82, R88). -/
theorem decodeRow_ne_illegalOp {op : BitVec 4} (hop : op ≠ 0) (dir : Dir) (opa len base : Byte) :
    decodeRow op dir opa len base ≠ .error .illegalOp := by
  unfold decodeRow
  split
  case h_16 =>
    have hpos : op.toNat ≠ 0 := fun h0 => hop (BitVec.eq_of_toNat_eq h0)
    have hlt := op.isLt
    simp only [imp_false] at *
    omega
  all_goals exact acceptFields_ne_illegalOp _ _

/-- A word with an assigned opcode that is in no row has a nonzero field that must be zero (R92). -/
theorem decode_of_not_wellFormed {w : Word} (hop : fieldOp w ≠ 0) (h : wordWellFormed w = false) :
    decode w = .error .rsvdField := by
  rcases hd : decode w with c | i
  · cases c with
    | rsvdField => rfl
    | illegalOp =>
      rw [decode, if_neg hop] at hd
      split at hd
      · cases hd
      · exact absurd hd (decodeRow_ne_illegalOp hop _ _ _ _)
  · rw [wordWellFormed_of_decode hd] at h
    cases h

/-- While the block is not busy a word that is no command is rejected with the decoder's reason (R162, R163). -/
theorem hostWriteCmd_of_error {w : Word} {c : DecodeError} {s : State} (hb : busy s = false) (h : decode w = .error c) :
    hostWriteCmd w s = .next (reject (decodeErrCode c) s) := by
  simp [hostWriteCmd, h, acceptNone, hb]

/-! ### The error latch (R23, R161, R166, R167) -/

/-- The codes of a rejected CMD write (R161). -/
def cmdCodes : List ErrCode := [.illegalOp, .rsvdField, .overrun, .notInit, .reinit, .rateZero]

/-- A CMD write is rejected with one of its codes, or accepted. -/
theorem hostWriteCmd_cases (w : Word) (s : State) :
    (∃ c ∈ cmdCodes, hostWriteCmd w s = .next (reject c s)) ∨ ∃ i, hostWriteCmd w s = .next (accepted i s) := by
  by_cases hb : busy s = true
  · exact .inl ⟨.overrun, by decide, hostWriteCmd_of_busy w hb⟩
  rw [Bool.not_eq_true] at hb
  rcases hd : decode w with c | i
  · exact .inl ⟨decodeErrCode c, by cases c <;> decide, hostWriteCmd_of_error hb hd⟩
  rw [hostWriteCmd_of_decode s hd]
  by_cases ha : acceptable i s = true
  · exact .inr ⟨i, exec_of_acceptable ha⟩
  left
  by_cases hi : i = .init
  · subst hi
    cases hdone : s.initDone with
    | true => exact ⟨.reinit, by decide, exec_init_of_initDone hb hdone⟩
    | false =>
      have harg : s.arg = 0 := by simpa [acceptable, hb, hdone] using ha
      exact ⟨.rateZero, by decide, exec_init_of_arg_zero hb hdone harg⟩
  · have hdone : s.initDone = false := by simpa [acceptable, hb, hi] using ha
    exact ⟨.notInit, by decide, exec_of_not_initDone hi hb hdone⟩

/-- What a host write does to the error latch: it leaves it, clears it, or is a rejected write of CMD or DMEM. -/
theorem hostWrite_latch {off : Offset} {w : Word} {s t : State} (h : hostWrite off w s = .next t) :
    (t.cmdErr = s.cmdErr ∧ t.errCode = s.errCode) ∨
      (hostReg off = .status ∧ w.getLsbD 2 = true ∧ t = clearError s) ∨
      (hostReg off = .cmd ∧ ∃ c ∈ cmdCodes, t = reject c s) ∨
      ∃ k, hostReg off = .dmem k ∧ busy s = true ∧ t = reject .dmemBusy s := by
  unfold hostWrite at h
  cases hreg : hostReg off with
  | cmd =>
    simp only [hreg] at h
    rcases hostWriteCmd_cases w s with ⟨c, hc, hq⟩ | ⟨i, hq⟩ <;> rw [hq] at h <;> cases h
    · exact .inr (.inr (.inl ⟨rfl, c, hc, rfl⟩))
    · exact .inl ⟨rfl, rfl⟩
  | status =>
    simp only [hreg, hostWriteStatus] at h
    cases h
    split
    · next hbit => exact .inr (.inl ⟨rfl, hbit, rfl⟩)
    · exact .inl ⟨rfl, rfl⟩
  | dmem k =>
    simp only [hreg, hostWriteDmem] at h
    cases h
    split
    · next hb => exact .inr (.inr (.inr ⟨k, rfl, hb, rfl⟩))
    · exact .inl ⟨rfl, rfl⟩
  | _ =>
    simp only [hreg] at h
    cases h
    exact .inl ⟨rfl, rfl⟩

/-- A rejection keeps a set latch; it sets a clear one to its code, and nothing else (R166). -/
theorem reject_latch (c : ErrCode) (s : State) :
    ((reject c s).cmdErr = s.cmdErr ∧ (reject c s).errCode = s.errCode) ∨
      (s.cmdErr = false ∧ reject c s = { s with cmdErr := true, errCode := (reject c s).errCode } ∧
        (reject c s).errCode = c) := by
  rcases reject_cases c s with ⟨-, hq⟩ | ⟨he, hq⟩ <;> rw [hq]
  · exact .inl ⟨rfl, rfl⟩
  · exact .inr ⟨he, rfl, rfl⟩

/-- The offsets from 0x100 on are DMEM's (R17, R65). -/
theorem hostReg_of_ge {off : Offset} (h : 0x100 ≤ off.toNat) : hostReg off = .dmem (off.extractLsb' 2 6) := by
  revert off; decide

theorem hostWrite_dmem_of_busy {off : Offset} {k : BitVec 6} (w : Word) {s : State} (hk : hostReg off = .dmem k)
    (hb : busy s = true) : hostWrite off w s = .next (reject .dmemBusy s) := by
  simp only [hostWrite, hk, hostWriteDmem, if_pos hb]

/-! ### The faults of a µop (R170–R172, R176) -/

theorem hasFault_addFault (j k : FaultKind) (f : FaultSet) :
    hasFault (addFault j f) k = (hasFault f k || decide (k = j)) := by
  cases j <;> cases k <;> simp [addFault, hasFault]

theorem hasFault_addFault_if (q : Prop) [Decidable q] (j k : FaultKind) (f : FaultSet) :
    hasFault (if q then addFault j f else f) k = (hasFault f k || (decide q && decide (k = j))) := by
  by_cases hq : q <;> simp [hq, hasFault_addFault]

/-- A µop's faults are those of its framing check and of its read, which LOADMEM has both. -/
theorem hasFault_runUop (u : Uop) (s : State) (k : FaultKind) :
    hasFault (runUop u s).faults k = (hasFault s.faults k || raises u s k) := by
  cases u with
  | cond c =>
    cases c <;> cases k <;>
      simp [runUop_condStart, runUop_condRestart, runUop_condStop, hasFault_addFault_if, raises]
  | _ =>
    cases k <;>
      simp [runUop_waitIdle, runUop_loadLit, runUop_loadMem, runUop_rcvEn, runUop_capture, runUop_ackLit, runUop_ackPol,
        runUop_polMem, runUop_storeMem, runUop_configure, readFaults, hasFault_addFault_if, raises]

/-! ### The ghost state (R43, R44, R105, R170) -/

/-- FAULTS and TRACE. -/
def ghosts (s : State) : FaultSet × List PortAction := (s.faults, s.trace)

theorem ghosts_hostWrite {off : Offset} {w : Word} {s t : State} (h : hostWrite off w s = .next t) :
    ghosts t = ghosts s := by
  rcases hostWrite_cases h with
    rfl | ⟨c, rfl⟩ | ⟨i, -, -, -, rfl⟩ | ⟨-, rfl⟩ | ⟨-, -, rfl⟩ | ⟨k, -, -, rfl⟩
  case inr.inl => simp [ghosts]
  all_goals rfl

/-- No event but a sequencer step or a reset touches FAULTS or TRACE. -/
theorem ghosts_of_ne_sequencer {e : Event} {s t : State} (h : runEvent e s = .next t) (hr : e ≠ .reset)
    (hs : e ≠ .sequencer) : ghosts t = ghosts s := by
  cases e with
  | hostWrite off w => exact ghosts_hostWrite h
  | hostRead off =>
    obtain ⟨v, n, hv⟩ := hostRead_frame off s
    cases h
    rw [hv]; rfl
  | sequencer => exact absurd rfl hs
  | peripheral b k =>
    cases h
    rw [periphComplete_eq]; rfl
  | reset => exact absurd rfl hr

/-- A µop only appends to TRACE (R105). -/
theorem runUop_trace_extends (u : Uop) (s : State) : ∃ l, (runUop u s).trace = s.trace ++ l := by
  rcases runUop_port u s with ⟨e, ht, -⟩ | ⟨ht, -⟩ | ⟨d, rfl⟩
  · exact ⟨[e], ht⟩
  · exact ⟨[], by rw [ht, List.append_nil]⟩
  · exact ⟨_, by rw [runUop_configure]⟩

/-- A sequencer step keeps every fault and only appends to TRACE. -/
theorem sequencerStep_ghosts (s : State) :
    (∀ k, hasFault s.faults k = true → hasFault (sequencerStep s).faults k = true) ∧
      ∃ l, (sequencerStep s).trace = s.trace ++ l := by
  rcases sequencerStep_cases s with ⟨-, hq⟩ | ⟨u, rest, -, -, hq⟩ <;> rw [hq]
  · exact ⟨fun _ hk => hk, [], (List.append_nil _).symm⟩
  · exact ⟨fun k hk => by simp [hasFault_runUop, hk], runUop_trace_extends u s⟩

/-! ### Acknowledge draws (R116, R174) -/

theorem runEvent_eraseAck (e : Event) (s : State) : runEvent (eraseAck e) s = runEvent e s := by
  cases e <;> rfl

theorem runEvents_eraseAck (es : List Event) (s : State) : runEvents (es.map eraseAck) s = runEvents es s := by
  induction es generalizing s with
  | nil => rfl
  | cons e es ih =>
    obtain ⟨t, ht⟩ := runEvent_next e s
    rw [List.map_cons, runEvents_cons_next _ ((runEvent_eraseAck e s).trans ht), runEvents_cons_next es ht]
    exact ih t

/-! ### The faults of a list (R107–R112, R171, R172) -/

/-- What a µop raises depends on FRAMING and on whether the byte it reads is written. -/
theorem raises_congr {u : Uop} {s t : State} (k : FaultKind) (hf : s.framing = t.framing)
    (hr : ∀ x, u.readAddr = some x → written s x = written t x) : raises u s k = raises u t k := by
  cases k with
  | uninitBufferRead =>
    cases u with
    | loadMem x => exact congrArg (!·) (hr x rfl)
    | polMem x => exact congrArg (!·) (hr x rfl)
    | _ => rfl
  | _ => simp only [raises, hf]

/-- Whether a µop of the list raises the fault, the list performed from the framing `f` with DMEM as in `s`. -/
def listRaises (s : State) (k : FaultKind) : Framing → List Uop → Bool
  | _, [] => false
  | f, u :: us => raises u { s with framing := f } k || listRaises s k (framingUop f u) us

theorem listRaises_append (s : State) (k : FaultKind) (f : Framing) (us vs : List Uop) :
    listRaises s k f (us ++ vs) = (listRaises s k f us || listRaises s k (us.foldl framingUop f) vs) := by
  induction us generalizing f with
  | nil => rfl
  | cons u us ih => simp only [List.cons_append, listRaises, ih, List.foldl_cons, Bool.or_assoc]

/-- The bytes a list reads are in `n` as they are in `m`, and the list stores none of them before it reads it. -/
structure ReadsKept (m n : Memory) (us : List Uop) : Prop where
  unstored : readsUnstored us
  kept : ∀ v ∈ us, ∀ x, v.readAddr = some x → n.read x.toNat = m.read x.toNat

/-- A µop changes no DMEM byte but the one it stores (R113). -/
theorem runUop_read_of_not_stored {u : Uop} {x : Byte} (s : State) (h : u ≠ .storeMem x) :
    (runUop u s).dmem.read x.toNat = s.dmem.read x.toNat := by
  by_cases hst : ∃ y, u = .storeMem y
  · obtain ⟨y, rfl⟩ := hst
    rw [runUop_storeMem]
    exact Memory.read_write_other _ _ fun heq => h (congrArg Uop.storeMem (BitVec.eq_of_toNat_eq heq.symm))
  · rw [runUop_dmem s (not_exists.mp hst)]

theorem ReadsKept.uop {m : Memory} {s : State} {u : Uop} {rest : List Uop} (h : ReadsKept m s.dmem (u :: rest)) :
    ReadsKept m (runUop u s).dmem rest where
  unstored := h.unstored.2
  kept v hv x hx := by
    have hu : u ≠ .storeMem x := fun hst => h.unstored.1 x hst v hv hx
    rw [runUop_read_of_not_stored s hu]
    exact h.kept v (List.mem_cons_of_mem u hv) x hx

/-- The faults recorded and those the µops left will raise are the same all along a run, which reads DMEM as `m` has it. -/
theorem runKeeps_faults (m : State) (F : FaultKind → Bool) :
    RunKeeps fun _ s => ReadsKept m.dmem s.dmem s.uops ∧
      ∀ k, (hasFault s.faults k || listRaises m k s.framing s.uops) = F k where
  host hv hu hs := by
    have hfaults := congrArg State.faults hv
    have hframing := congrArg State.framing hv
    simp only [runView] at hfaults hframing
    rw [runView_dmem hv, hu, hfaults, hframing]; exact hs
  uop {_ s u rest} hu hs := by
    obtain ⟨hm, hf⟩ := hs
    rw [hu] at hm hf
    refine ⟨hm.uop, fun k => ?_⟩
    have hraise : raises u { m with framing := s.framing } k = raises u s k := raises_congr k rfl fun x hx =>
      congrArg Option.isSome (hm.kept u List.mem_cons_self x hx).symm
    rw [← hf k, listRaises, hraise, ← Bool.or_assoc, ← hasFault_runUop, ← runUop_framing]
  receive _ _ hs := hs
  complete _ hs := hs

theorem finish_faults {es : List Event} {s u : State} (hm : readsUnstored s.uops) (h : finish es s = some u)
    (k : FaultKind) : hasFault u.faults k = (hasFault s.faults k || listRaises s k s.framing s.uops) := by
  obtain ⟨hu, -, hf⟩ := finish_keeps (runKeeps_faults s _) (bs := []) h ⟨⟨hm, fun _ _ _ _ => rfl⟩, fun _ => rfl⟩
  rw [← hf k, hu, listRaises, Bool.or_false]

/-! ### The faults of a command's list (R126–R130, R135, R137, R144–R150) -/

/-- Only a read raises UninitBufferRead, wherever it stands in the list. -/
theorem listRaises_uninit (s : State) (f : Framing) (us : List Uop) :
    listRaises s .uninitBufferRead f us = (us.filterMap Uop.readAddr).any fun x => !written s x := by
  induction us generalizing f with
  | nil => rfl
  | cons u us ih =>
    cases u with
    | loadMem x => exact congrArg (!written s x || ·) (ih f)
    | polMem x => exact congrArg (!written s x || ·) (ih f)
    | _ => exact ih _

section
variable {s : State} {k : FaultKind} {p : Byte → List Uop}
  (hquiet : ∀ x, listRaises s k .busOpen (p x) = false) (hframing : ∀ x f, (p x).foldl framingUop f = f)
include hquiet hframing

/-- A burst whose every part raises nothing in an open transaction raises nothing there. -/
theorem listRaises_burst (xs : List Byte) : listRaises s k .busOpen (xs.flatMap p) = false := by
  induction xs with
  | nil => rfl
  | cons x xs ih => rw [List.flatMap_cons, listRaises_append, hquiet, hframing, ih, Bool.or_false]

/-- A transaction from its Start to its Stop raises what its Start raises. -/
theorem listRaises_transaction (f : Framing) (a : Byte) (d : Dir) (base len : Byte) :
    listRaises s k f (startP ++ callP a d ++ burstP p base len ++ stopP) =
      raises (.cond .start) { s with framing := f } k := by
  have hopen : (callP a d).foldl framingUop (startP.foldl framingUop f) = .busOpen := rfl
  simp only [burstP_eq, listRaises_append, List.foldl_append, hopen, listRaises_burst hquiet hframing,
    foldl_burst_id hframing]
  cases k <;> cases f <;> rfl

end

section
variable (s : State) {k : FaultKind} (hk : k ≠ .uninitBufferRead)
include hk

theorem listRaises_payloadP (x : Byte) : listRaises s k .busOpen (payloadP x) = false := by
  cases k with
  | uninitBufferRead => exact absurd rfl hk
  | _ => rfl

theorem listRaises_slotP (x : Byte) : listRaises s k .busOpen (slotP x) = false := by
  cases k with
  | uninitBufferRead => exact absurd rfl hk
  | _ => rfl

theorem listRaises_writeCompleteP (f : Framing) (a base len : Byte) :
    listRaises s k f (writeCompleteP a base len) = raises (.cond .start) { s with framing := f } k :=
  listRaises_transaction (listRaises_payloadP s hk) (fun _ _ => rfl) f a dirWrite base len

/-- READCOMPLETE's list is two transactions, and the Stop of the first frees the bus for the Start of the second (R150). -/
theorem listRaises_readCompleteP (f : Framing) (a base len : Byte) :
    listRaises s k f (readCompleteP a base len) = raises (.cond .start) { s with framing := f } k := by
  have hlist : readCompleteP a base len =
      writeCompleteP a base 1 ++ (startP ++ callP a dirRead ++ burstP slotP base len ++ stopP) := by
    simp only [readCompleteP, writeCompleteP, burstP_one, List.append_assoc]
  have hfree : (writeCompleteP a base 1).foldl framingUop f = .busFree :=
    expand_framing (.writeComplete a base 1) 0 f
  rw [hlist, listRaises_append, hfree, listRaises_writeCompleteP s hk,
    listRaises_transaction (listRaises_slotP s hk) fun _ _ => rfl]
  cases k <;> simp [raises]

end

/-- A command's list raises a misuse only at its first framing check. -/
theorem expand_raises_misuse (i : Instr) (arg : Word) (s : State) (f : Framing) :
    listRaises s .misuseNoTransaction f (expand i arg) = (needsOpen i && decide (f = .busFree)) ∧
      listRaises s .misuseNestedStart f (expand i arg) = (needsFree i && decide (f = .busOpen)) := by
  cases i with
  | writeComplete a base len =>
    rw [expand, listRaises_writeCompleteP s (k := .misuseNoTransaction) nofun,
      listRaises_writeCompleteP s (k := .misuseNestedStart) nofun]
    cases f <;> exact ⟨rfl, rfl⟩
  | readComplete a base len =>
    rw [expand, listRaises_readCompleteP s (k := .misuseNoTransaction) nofun,
      listRaises_readCompleteP s (k := .misuseNestedStart) nofun]
    cases f <;> exact ⟨rfl, rfl⟩
  | _ => cases f <;> exact ⟨rfl, rfl⟩

/-- What a command's list adds to FAULTS (R171, R172). -/
theorem hasFault_faultsAfter (i : Instr) (s : State) (k : FaultKind) :
    hasFault (faultsAfter i s) k = (hasFault s.faults k || listRaises s k s.framing (expand i s.arg)) := by
  obtain ⟨hopen, hfree⟩ := expand_raises_misuse i s.arg s s.framing
  cases k with
  | misuseNoTransaction => rw [hopen]; rfl
  | misuseNestedStart => rw [hfree]; rfl
  | uninitBufferRead =>
    rw [listRaises_uninit, expand_readAddrs]
    simp [hasFault, faultsAfter, operandsWritten, List.not_all_eq_any_not]

/-- Sets of faults with the same members are equal (R43). -/
theorem faultSet_ext {f g : FaultSet} (h : ∀ k, hasFault f k = hasFault g k) : f = g := by
  cases f; cases g
  rw [FaultSet.mk.injEq]
  exact ⟨h .misuseNoTransaction, h .misuseNestedStart, h .uninitBufferRead⟩

/-! ### The obligations about exceptions -/

/-- Settles O9: the event taken from the interleaving answers a next state. -/
theorem everyStepAnswersNext : Obligations.EveryStepAnswersNext := fun s => runEvent_next (nextEvent s).1 (nextEvent s).2

/-- Settles O13: OVERRUN comes before the decoder. -/
theorem overrunDropsCommandWrite : Obligations.OverrunDropsCommandWrite := fun w _ hb => hostWriteCmd_of_busy w hb

/-- Settles O16, by the two cases of CMDERR; after a rejection it is set. -/
theorem rejectKeepsFirstError : Obligations.RejectKeepsFirstError := by
  have keeps : ∀ (c : ErrCode) (s : State), s.cmdErr = true → reject c s = s := fun c s h => by rw [reject, if_pos h]
  refine fun c d s => ⟨fun h => ?_, keeps c s, keeps d _ (reject_cmdErr s c)⟩
  rw [reject, if_neg (by simp [h])]

/-- Settles O5: the decoder names why the word is no command, and a block that is not busy rejects it by that name. -/
theorem badWordsRejected : Obligations.BadWordsRejected := fun _ _ hb =>
  ⟨fun hop => hostWriteCmd_of_error hb (decode_of_fieldOp_zero hop),
    fun hop hw => hostWriteCmd_of_error hb (decode_of_not_wellFormed hop hw)⟩

/-- Settles O51: every offset from 0x100 on is DMEM's, and a host read touches the host's word and the draw counter at most. -/
theorem dmemBusyRefused : Obligations.DmemBusyRefused := by
  intro off w s hoff
  obtain ⟨v, n, hread⟩ := hostRead_frame off s
  rw [hread]
  exact ⟨hostWrite_dmem_of_busy w (hostReg_of_ge hoff), rfl, rfl⟩

/-- Settles O45: only a host write touches the latch, by clearing it or by a rejection, which keeps a latch that is set. -/
theorem errorLatchSticky : Obligations.ErrorLatchSticky := by
  intro e s t h hr
  cases e with
  | hostWrite off w =>
    rcases hostWrite_latch h with hkeep | ⟨hoff, hbit, rfl⟩ | ⟨hoff, c, hc, rfl⟩ | ⟨k, hoff, hb, rfl⟩
    · exact .inl hkeep
    · obtain ⟨hlo, hhi⟩ := hostReg_status hoff
      exact .inr (.inl ⟨rfl, rfl, off, w, rfl, hlo, hhi, hbit⟩)
    · rcases reject_latch c s with hkeep | ⟨hclear, hset, hcode⟩
      · exact .inl hkeep
      · exact .inr (.inr ⟨hclear, hset, off, w, rfl, .inl ⟨hostReg_cmd hoff, hcode.symm ▸ hc⟩⟩)
    · rcases reject_latch .dmemBusy s with hkeep | ⟨hclear, hset, hcode⟩
      · exact .inl hkeep
      · exact .inr (.inr ⟨hclear, hset, off, w, rfl, .inr ⟨hostReg_dmem hoff, hb, hcode⟩⟩)
  | _ =>
    obtain ⟨-, hlatch⟩ := argAndLatch_of_not_hostWrite h hr rfl
    exact .inl hlatch

/-- Settles O41: the table is each µop's framing check and read. -/
theorem uopFaults : Obligations.UopFaults := hasFault_runUop

/-- Settles O40: no other event touches FAULTS or TRACE, and a µop only adds to them. -/
theorem ghostsOnlyGrow : Obligations.GhostsOnlyGrow := by
  intro e s t h hr
  by_cases hs : e = .sequencer
  · subst hs
    cases h
    obtain ⟨hfaults, l, htrace⟩ := sequencerStep_ghosts s
    exact ⟨hfaults, fun _ _ _ => rfl, l, htrace, fun _ => rfl⟩
  · obtain ⟨hfaults, htrace⟩ := Prod.mk.inj (ghosts_of_ne_sequencer h hr hs)
    rw [hfaults, htrace]
    exact ⟨fun _ hk => hk, fun k hno hyes => (by rw [hno] at hyes; cases hyes), [], (List.append_nil _).symm,
      fun hl => absurd rfl hl⟩

/-- Settles O34: each list runs as it does with its acknowledge draws erased. -/
theorem silentNak : Obligations.SilentNak := by
  intro es fs s h
  calc runEvents es s
      = runEvents (es.map eraseAck) s := (runEvents_eraseAck es s).symm
    _ = runEvents (fs.map eraseAck) s := by rw [h]
    _ = runEvents fs s := runEvents_eraseAck fs s

/-- Settles O21: a run raises what the command's list raises, whose reads find DMEM as it stands at acceptance. -/
theorem commandFaults : Obligations.CommandFaults := by
  intro i s ha
  refine ⟨exec_of_acceptable ha, fun es u h => faultSet_ext fun k => ?_⟩
  calc hasFault u.faults k
      = (hasFault s.faults k || listRaises (accepted i s) k s.framing (expand i s.arg)) :=
        finish_faults (s := accepted i s) (expand_readsUnstored i s.arg) h k
    _ = hasFault (faultsAfter i s) k := (hasFault_faultsAfter i (accepted i s) k).symm

end Sys2Proof.Machine
end

section
/-! PROOFS. The family of reset and hazards: the values a reset leaves and the boot sequence; that a fair run takes the µops of a
busy block one after the other; final states, and the end of a transaction after a WAIT (R46, R190, R192, R196, R200, R201). -/

namespace Sys2Proof.Machine

open Sys2Proof

/-! ### STATUS of a block that has finished (R20–R24) -/

/-- Without a rejection and with no µop left, STATUS has INIT_DONE alone. -/
theorem statusWord_of_finished {s : State} (herr : s.cmdErr = false) (hcode : s.errCode = .none) (hb : busy s = false) :
    statusWord s = if s.initDone then 0x00000002 else 0x00000000 := by
  rw [statusWord, herr, hcode, hb]
  cases s.initDone <;> decide

/-! ### Runs to completion (R115) -/

theorem finish_uops {es : List Event} {s u : State} (h : finish es s = some u) : u.uops = [] := by
  obtain ⟨hu, -⟩ := finish_keeps (runKeeps_framing _) (bs := []) h rfl
  exact hu

/-- A run of a command to its completion is a run of its events. -/
theorem runEvents_of_finish {es : List Event} {s u : State} (h : finish es s = some u) : runEvents es s = .next u := by
  induction es generalizing s with
  | nil =>
    rw [finish] at h
    split at h
    · exact congrArg Host.Outcome.next (Option.some.inj h)
    · cases h
  | cons e es ih =>
    obtain ⟨-, -, t, ht, hf⟩ := finish_cons h
    exact (runEvents_cons_next es ht).trans (ih hf)

/-! ### What an event does while the block is busy (R103, R106, R116, R200) -/

/-- Whether the sequencer has a step depends on the list and on PEND. -/
theorem sequencerEnabled_congr {s t : State} (hu : t.uops = s.uops) (hp : t.pend = s.pend) :
    sequencerEnabled t = sequencerEnabled s := by
  rw [sequencerEnabled, sequencerEnabled, hu]
  cases s.uops with
  | nil => rfl
  | cons u rest => cases u <;> simp [uopEnabled, hp]

/-- With nothing pending a busy block has a sequencer step (R106). -/
theorem sequencerEnabled_of_idle {s : State} (hb : s.uops ≠ []) (hp : s.pend = none) : sequencerEnabled s = true := by
  obtain ⟨u, rest, hu⟩ := List.exists_cons_of_ne_nil hb
  rw [sequencerEnabled, hu]
  cases u <;> simp [uopEnabled, hp]

/-- What an event that keeps the µop list leaves: a step the sequencer had is not the one taken, and is still there; and after a
peripheral step the sequencer has one. -/
structure KeepsList (e : Event) (s t : State) : Prop where
  uops : t.uops = s.uops
  enabled : sequencerEnabled s = true → e ≠ .sequencer ∧ sequencerEnabled t = true
  settled : isPeripheral e = true → sequencerEnabled t = true

/-- While the block is busy an event shortens the µop list or keeps it. -/
theorem shortens_or_keepsList {e : Event} {s t : State} (hb : s.uops ≠ []) (h : runEvent e s = .next t) :
    t.uops.length < s.uops.length ∨ KeepsList e s t := by
  have host : isHostAccess e = true → e ≠ .sequencer → isPeripheral e = false → KeepsList e s t := fun hh hs hp => by
    obtain ⟨hv, hu⟩ := host_busy hh hb h
    exact ⟨hu, fun he => ⟨hs, (sequencerEnabled_congr hu (runView_pend hv)).trans he⟩,
      fun hper => (by rw [hp] at hper; cases hper)⟩
  cases e with
  | hostWrite off w => exact .inr (host rfl nofun rfl)
  | hostRead off => exact .inr (host rfl nofun rfl)
  | sequencer =>
    cases h
    rcases sequencerStep_cases s with ⟨hd, hq⟩ | ⟨u, rest, hu, -, hq⟩
    · exact .inr ⟨by rw [hq], fun he => (by rw [hd] at he; cases he), nofun⟩
    · exact .inl (by rw [hq, hu]; exact Nat.lt_succ_self rest.length)
  | peripheral b k =>
    cases h
    have hidle : sequencerEnabled (periphComplete b k s) = true := by
      rw [periphComplete_eq]; exact sequencerEnabled_of_idle hb rfl
    exact .inr ⟨by rw [periphComplete_eq], fun _ => ⟨nofun, hidle⟩, fun _ => hidle⟩
  | reset =>
    cases h
    exact .inl (List.length_pos_of_ne_nil hb)

/-! ### Fair runs (R200) -/

/-- From the point `n` on every event keeps the µop list, which is not empty. -/
structure Stalled (ε : Nat → Event) (σ : Nat → State) (n : Nat) : Prop where
  busy : ∀ m, n ≤ m → (σ m).uops ≠ []
  keeps : ∀ m, n ≤ m → KeepsList (ε m) (σ m) (σ (m + 1))

section
variable {ε : Nat → Event} {σ : Nat → State} {n : Nat}

/-- A busy block whose list never gets shorter than it is at `n` is stalled from `n` on. -/
theorem stalled_of_not_shorter (hrun : IsRun ε σ) (hb : (σ n).uops ≠ [])
    (hno : ∀ m, n ≤ m → ¬ (σ m).uops.length < (σ n).uops.length) : Stalled ε σ n := by
  have keeps : ∀ m, n ≤ m → (σ m).uops = (σ n).uops → KeepsList (ε m) (σ m) (σ (m + 1)) := fun m hm hu => by
    refine (shortens_or_keepsList (by rw [hu]; exact hb) (hrun m)).resolve_left ?_
    rw [hu]; exact hno (m + 1) (Nat.le_succ_of_le hm)
  have same : ∀ m, n ≤ m → (σ m).uops = (σ n).uops := fun m hm => by
    induction m, hm using Nat.le_induction with
    | base => rfl
    | succ m hm ih => exact (keeps m hm ih).uops.trans ih
  exact ⟨fun m hm => by rw [same m hm]; exact hb, fun m hm => keeps m hm (same m hm)⟩

/-- The peripheral's fairness gives a stalled sequencer a step: what is pending completes. -/
theorem Stalled.exists_enabled (h : Stalled ε σ n) (hper : PeriphFair ε σ) :
    ∃ m, n ≤ m ∧ sequencerEnabled (σ m) = true := by
  by_contra hnone
  have hdis : ∀ m, n ≤ m → ¬ sequencerEnabled (σ m) = true := fun m hm he => hnone ⟨m, hm, he⟩
  obtain ⟨m, hm, hp⟩ := hper n fun m hm hp => hdis m hm (sequencerEnabled_of_idle (h.busy m hm) hp)
  exact hdis (m + 1) (Nat.le_succ_of_le hm) ((h.keeps m hm).settled hp)

/-- A fair run never stalls: the step the sequencer has stays until it is taken, and the one that takes it shortens the list. -/
theorem not_stalled (hper : PeriphFair ε σ) (hseq : SequencerFair ε σ) : ¬ Stalled ε σ n := by
  intro h
  obtain ⟨k, hk, hen⟩ := h.exists_enabled hper
  have stays : ∀ m, k ≤ m → sequencerEnabled (σ m) = true := fun m hm => by
    induction m, hm using Nat.le_induction with
    | base => exact hen
    | succ m hm ih => exact ((h.keeps m (hk.trans hm)).enabled ih).2
  obtain ⟨m, hm, htaken⟩ := hseq k stays
  obtain ⟨hnot, -⟩ := (h.keeps m (hk.trans hm)).enabled (stays m hm)
  exact hnot htaken

/-- In a fair run the list of a busy block gets shorter. -/
theorem exists_shorter (hrun : IsRun ε σ) (hper : PeriphFair ε σ) (hseq : SequencerFair ε σ) (hb : (σ n).uops ≠ []) :
    ∃ m, n ≤ m ∧ (σ m).uops.length < (σ n).uops.length := by
  by_contra hno
  exact not_stalled hper hseq (stalled_of_not_shorter hrun hb fun m hm hlt => hno ⟨m, hm, hlt⟩)

end

/-! ### Final states (R201) -/

theorem hasFault_empty (k : FaultKind) : hasFault {} k = false := by cases k <;> rfl

/-- A set of faults is empty when it has no member (R43). -/
theorem faultSet_eq_empty_iff {f : FaultSet} : f = {} ↔ ∀ k, hasFault f k = false :=
  ⟨fun h => h ▸ hasFault_empty, fun h => faultSet_ext fun k => (h k).trans (hasFault_empty k).symm⟩

theorem isHostWrite_eq_false {e : Event} : isHostWrite e = false ↔ ∀ off w, e ≠ .hostWrite off w := by
  cases e with
  | hostWrite off w => exact ⟨nofun, fun h => absurd rfl (h off w)⟩
  | _ => exact ⟨fun _ => nofun, fun _ => rfl⟩

theorem framing_eq_busFree_iff {f : Framing} : f = .busFree ↔ f ≠ .busOpen := by
  cases f <;> decide

/-- The block's part of a final state: no µop left, nothing pending, no transaction open, no fault (R201). -/
structure Quiescent (s : State) : Prop where
  uops : s.uops = []
  pend : s.pend = none
  framing : s.framing = .busFree
  faults : s.faults = {}

/-- A final state is one in which the block has finished and the host writes no more (R201). -/
theorem finalBefore_iff {rest : Nat → Event} {s : State} :
    FinalBefore rest s ↔ (∀ n, isHostWrite (rest n) = false) ∧ Quiescent s :=
  ⟨fun ⟨hq, hu, hp, hfr, hfl⟩ => ⟨hq, hu, hp, hfr, hfl⟩, fun ⟨hq, hu, hp, hfr, hfl⟩ => ⟨hq, hu, hp, hfr, hfl⟩⟩

/-- Where the block has finished, nothing but a host write starts anything. -/
theorem Quiescent.event {e : Event} {s t : State} (hs : Quiescent s) (he : isHostWrite e = false)
    (h : runEvent e s = .next t) : Quiescent t := by
  obtain ⟨hu, hp, hfr, hfl⟩ := hs
  cases e with
  | hostWrite off w => cases he
  | hostRead off =>
    obtain ⟨v, n, hv⟩ := hostRead_frame off s
    cases h
    rw [hv]; exact ⟨hu, hp, hfr, hfl⟩
  | sequencer =>
    cases h
    rw [sequencerStep_nil hu]; exact ⟨hu, hp, hfr, hfl⟩
  | peripheral b k =>
    cases h
    rw [periphComplete_eq]; exact ⟨hu, rfl, hfr, hfl⟩
  | reset =>
    cases h
    exact ⟨rfl, rfl, rfl, rfl⟩

/-- WRITECOMPLETE and READCOMPLETE free the bus again, and from FRAMING `FREE`, with their operands written, they record no fault
(R147, R150, R171, R172). -/
theorem complete_framing_faults {i : Instr} {a base len : Byte} {s : State}
    (hi : i = .writeComplete a base len ∨ i = .readComplete a base len) (hw : operandsWritten i s = true)
    (hfr : s.framing = .busFree) (hfl : s.faults = {}) :
    framingAfter i s.framing = .busFree ∧ faultsAfter i s = {} := by
  have hfaults : needsOpen i = false → faultsAfter i s = {} := fun hopen => by
    simp [faultsAfter, hopen, hw, hfr, hfl]
  rcases hi with rfl | rfl
  · exact ⟨rfl, hfaults rfl⟩
  · exact ⟨rfl, hfaults rfl⟩

/-- WAIT, from a state without an open transaction or a fault, ends with the block finished (R125, R196). -/
theorem quiescent_of_wait {fs : List Event} {u v : State} (ha : acceptable .wait u = true)
    (hfr : u.framing = .busFree) (hfl : u.faults = {}) (h : finish fs (accepted .wait u) = some v) : Quiescent v where
  uops := finish_uops h
  pend := (commandPend .wait u ha nofun).2 fs v h
  framing := ((commandFraming .wait u ha).2 fs v h).trans hfr
  faults := by
    rw [(commandFaults .wait u ha).2 fs v h]
    simp [faultsAfter, hfl, needsOpen, needsFree, operandsWritten, readAddrs]

/-! ### The obligations about reset, fairness and final states -/

/-- Settles O55: a reset replaces everything but the inbox and the draw counter by the reset state. -/
theorem resetFromAnyState : Obligations.ResetFromAnyState := fun s =>
  ⟨resetBlock s, rfl, rfl, rfl, rfl, rfl, rfl, rfl, rfl, fun _ => rfl, rfl, rfl, hasFault_empty, rfl,
    statusWord_of_finished rfl rfl rfl⟩

/-- Settles O56: the word is INIT's, which is acceptable once ARG is nonzero, and its one step configures the peripheral. -/
theorem bootSequence : Obligations.BootSequence := by
  intro rate hrate
  have hacc : acceptable .init { State.reset with arg := rate } = true :=
    acceptable_iff.mpr ⟨rfl, fun _ => ⟨rfl, hrate⟩, nofun⟩
  obtain ⟨hexec, hfin⟩ := initConfigures _ hacc
  have harg : runEvent (.hostWrite offArg rate) State.reset = .next { State.reset with arg := rate } := rfl
  have hcmd : runEvent (.hostWrite offCmd 0x00000001) { State.reset with arg := rate } =
      .next (accepted .init { State.reset with arg := rate }) :=
    (hostWriteCmd_of_decode _ (decode_encode .init)).trans hexec
  exact ⟨_, (runEvents_cons_next _ harg).trans ((runEvents_cons_next _ hcmd).trans (runEvents_of_finish hfin)),
    statusWord_of_finished rfl rfl rfl, rfl, rfl, rfl, rfl, rfl, rfl, rfl⟩

/-- Settles O32, by induction on the length of the list: a fair run shortens the list of a busy block. -/
theorem fairRunsComplete : Obligations.FairRunsComplete := by
  intro ε σ hrun hper hseq n
  induction hlen : (σ n).uops.length using Nat.strong_induction_on generalizing n with
  | _ len ih =>
    by_cases hb : (σ n).uops = []
    · exact ⟨n, le_rfl, busy_eq_false.mpr hb⟩
    · obtain ⟨m, hm, hlt⟩ := exists_shorter hrun hper hseq hb
      obtain ⟨k, hk, hidle⟩ := ih _ (hlen ▸ hlt) m rfl
      exact ⟨k, hm.trans hk, hidle⟩

/-- Settles O58: the definition in the words of R201, the events `step` takes, and what each event but a host write leaves. -/
theorem finalStates : Obligations.FinalStates := by
  refine ⟨fun rest s => ?_, fun s t h => ⟨rfl, fun n => comingEvent_succ n h⟩, fun rest s t hs h => ?_⟩
  · rw [busy_eq_false, periphIdle_eq, decide_eq_true_eq, ← framing_eq_busFree_iff, ← faultSet_eq_empty_iff]
    exact and_congr_left fun _ => forall_congr' fun _ => isHostWrite_eq_false
  · obtain ⟨hquiet, hq⟩ := finalBefore_iff.mp hs
    exact finalBefore_iff.mpr ⟨fun n => hquiet (n + 1), hq.event (hquiet 0) h⟩

/-- Settles O57: the Complete command leaves no transaction open and no fault, and the WAIT nothing pending. -/
theorem completeThenWaitIsFinal : Obligations.CompleteThenWaitIsFinal := by
  intro i a base len s hi ha hw hfr hfl es fs u v hu
  obtain ⟨hfree, hnone⟩ := complete_framing_faults hi hw hfr hfl
  have hframing : u.framing = .busFree := ((commandFraming i s ha).2 es u hu).trans hfree
  have hfaults : u.faults = {} := ((commandFaults i s ha).2 es u hu).trans hnone
  have hdone : u.initDone = true := ((commandRunFrame i s ha).2 es u hu).1
  have hwait : acceptable .wait u = true :=
    acceptable_iff.mpr ⟨busy_eq_false.mpr (finish_uops hu), nofun, fun _ => hdone⟩
  refine ⟨exec_of_acceptable hwait, fun hv => ?_⟩
  have hquiescent := quiescent_of_wait hwait hframing hfaults hv
  have hfinal : ∀ rest, FinalBefore rest v ↔ ∀ n, isHostWrite (rest n) = false := fun rest =>
    finalBefore_iff.trans (and_iff_left hquiescent)
  exact ⟨hfinal, hfinal _⟩

end Sys2Proof.Machine
end
